-- ==== Sys2Proof/Word.lean ====
section
/-! DEFINITION. The byte, the only word this hardware has: "Every byte is 8 bits" (spec/00_scope.md R9). Lengths, capacities,
frame-waiting times and counters are naturals there ("computed without wrap-around"), so they are `Nat` here. -/

namespace Sys2Proof

/-- One byte of a frame, or the code of the command register (R9, R64). -/
abbrev Byte := BitVec 8

end Sys2Proof
end

