-- ==== Sys2Proof/Config.lean ====
section
/-! DEFINITION. What the environment fixes: the compliance modes, the transport's answers, and the named parameters of
spec/00_scope.md R8. R8 asks that the model "take every `OPEN` one as an argument": the parameters are ONE record, `Params`,
which State carries and no step writes, so every statement about all states is a statement about all parameter values. The
values the machine has at reset are constants without a body, so nothing can be proved of them. -/

namespace Sys2Proof

/-- The compliance modes of R33. -/
inductive Mode where
  | nfcForum
  | emv
  | iso
  deriving DecidableEq, Repr, Inhabited

/-- The transmission errors of R410: "timeout/CRC/parity/framing/incomplete-byte". -/
inductive TxError where
  | timeout
  | crc
  | parity
  | framing
  | incompleteByte
  deriving DecidableEq, Repr, Inhabited

/-- What one `TStatus()` of the transport returns (R422); `done f` carries the received frame, its CRC removed. -/
inductive TStatus where
  | busy
  | linkLoss
  | error (e : TxError)
  | done (f : List Byte)
  deriving DecidableEq, Repr, Inhabited

/-- `LISTENER_RULES` (R8, R340). -/
inductive ListenerRules where
  | iso
  | refuse
  deriving DecidableEq, Repr, Inhabited

/-- The parameters of R8 that the spec leaves open or lets an implementation choose. `fwiDefault` has no value above 14
because R180 has a model refuse such a configuration; each `fsxMax` is at most 65535 (D21). -/
structure Params where
  maxFwt : Nat
  fwiDefault : Fin 15
  sfgtMin : Nat
  fwtDsl : Nat
  dslCap : Nat
  bailOn : List (Mode × TxError)
  fsxMaxNfcForum : Fin 65536
  fsxMaxEmv : Fin 65536
  fsxMaxIso : Fin 65536
  listenerRules : ListenerRules
  txFlags : Nat
  deriving DecidableEq, Repr

namespace Config

/-- `MAX_FWT`, OPEN (D9). -/
opaque maxFwt : Nat
/-- `FWI_DEFAULT`, OPEN in `0..14` (D34). -/
opaque fwiDefault : Fin 15
/-- `SFGT_MIN`, OPEN (D35). -/
opaque sfgtMin : Nat
/-- `FWT_DSL`, OPEN (D28). -/
opaque fwtDsl : Nat
/-- `DSL_CAP`, OPEN (D28). -/
opaque dslCap : Nat
/-- `FSX_MAX(mode)`, OPEN, each at most 65535 (D21). -/
opaque fsxMax : Mode → Fin 65536
/-- `TX_FLAGS`, OPEN (D25). -/
opaque txFlags : Nat
/-- FREE VALUES: what a rule finds in `ses.dFwt`, `ses.ourFsx` and `ses.nad` before any `SET_SESSION`, where R63 leaves them
"unspecified" and 93_implementation_defined.md I8 has "any value" (log entry 13). -/
opaque unspecifiedDFwt : Nat
/-- See `unspecifiedDFwt`; `ses.ourFsx` is in `0..65535` (R41). -/
opaque unspecifiedOurFsx : Fin 65536
/-- See `unspecifiedDFwt`. -/
opaque unspecifiedNad : Option Byte
/-- A FREE VALUE: what the transport answers to a `TStatus()` for which nothing fixes the answer (log entry 4). -/
opaque freeStatus : Nat → TStatus

/-- The parameters the machine has at reset: every open one unknown, `BAIL_ON` empty and `LISTENER_RULES` `Iso`, the defaults
R8 decides for these two. -/
def params : Params where
  maxFwt := maxFwt
  fwiDefault := fwiDefault
  sfgtMin := sfgtMin
  fwtDsl := fwtDsl
  dslCap := dslCap
  bailOn := []
  fsxMaxNfcForum := fsxMax .nfcForum
  fsxMaxEmv := fsxMax .emv
  fsxMaxIso := fsxMax .iso
  listenerRules := .iso
  txFlags := txFlags

end Config

end Sys2Proof
end

