-- ==== Sys2Proof/Syntax.lean ====
section
/-! DEFINITION. The two encoded instruction sets of spec/30_encoding.md as ONE inductive: the six block headers (format `pcb`,
R114) and the eleven commands of the host command register (format `cmd`, R121); and the registers they are read from. -/

namespace Sys2Proof

/-- The block kinds the codec encodes (R122: `I`=1, `R_ACK`=2, `R_NAK`=3, `S_DSL`=4, `S_WTX`=5). -/
inductive BlockKind where
  | i
  | rAck
  | rNak
  | sDsl
  | sWtx
  deriving DecidableEq, Repr

/-- The tagged union a received header byte decodes to (R164): C chaining, D DID present, N NAD present, B block number. -/
inductive Header where
  | invalid
  | iBlock (c d n b : Bool)
  | rAck (d b : Bool)
  | rNak (d b : Bool)
  | sDsl (d : Bool)
  | sWtx (d : Bool)
  deriving DecidableEq, Repr

/-- The instructions: one constructor per row of spec/opcode_table.json. -/
inductive Instr where
  /-- `I_FINAL` (`0000DN1B`): an I-block without chaining is received. -/
  | iFinal (d n b : Bool)
  /-- `I_CHAIN` (`0001DN1B`): an I-block with the chaining bit is received. -/
  | iChain (d n b : Bool)
  /-- `R_ACK` (`1010D01B`) is received. -/
  | rAck (d b : Bool)
  /-- `R_NAK` (`1011D01B`) is received. -/
  | rNak (d b : Bool)
  /-- `S_DSL` (`1100D010`) is received. -/
  | sDsl (d : Bool)
  /-- `S_WTX` (`1111D010`) is received. -/
  | sWtx (d : Bool)
  /-- `INIT` (`0x01`, R240). -/
  | init (mode : Mode) (maxI maxR maxS : Nat)
  /-- `SET_SESSION` (`0x02`, R242). -/
  | setSession (dFwt ourFsx : Nat) (nad : Option Byte)
  /-- `START_TX` (`0x03`, R245). -/
  | startTx (txBuffer : List Byte) (txLength : Nat) (chainingFlag : Bool) (rxCap fwt fsx : Nat) (did : Option Byte)
  /-- `POLL` (`0x04`, R248). -/
  | poll
  /-- `DESELECT` (`0x05`, R381). -/
  | deselect
  /-- `LISTEN_START` (`0x06`, R260). -/
  | listenStart (rxCap fwt fsx : Nat) (did : Option Byte)
  /-- `GET_MAX_PAYLOAD` (`0x07`, R252). -/
  | getMaxPayload
  /-- `ENCODE_HDR` (`0x08`, R167). -/
  | encodeHdr (kind : BlockKind) (bn chain didPresent nadPresent : Bool)
  /-- `DECODE_HDR` (`0x09`, R168). -/
  | decodeHdr (pcb : Byte)
  /-- `FWI2FWT` (`0x0A`, R181). -/
  | fwi2fwt (fwi : BitVec 4)
  /-- `SFGI2SFGT` (`0x0B`, R186). -/
  | sfgi2sfgt (sfgi : BitVec 4)
  deriving DecidableEq, Repr

/-- The names of the argument fields of the command register (R121, R122). -/
inductive ArgName where
  | mode | maxI | maxR | maxS | ourFsx | nad | txLength | txBuffer | chainingFlag | rxCap | fsx | did
  | kind | bn | chain | didPresent | nadPresent | pcb | fwi | sfgi
  deriving DecidableEq, Repr

/-- The argument fields of the command register as the host writes them: VALUES, "not byte images" (R84), each possibly out
of its range. A command reads the fields R121 lists for it and no other. -/
structure Args where
  mode : Nat := 0
  maxI : Nat := 0
  maxR : Nat := 0
  maxS : Nat := 0
  dFwt : Nat := 0
  ourFsx : Nat := 0
  nad : Option Nat := none
  txBuffer : List Byte := []
  txLength : Nat := 0
  chainingFlag : Nat := 0
  rxCap : Nat := 0
  fwt : Nat := 0
  fsx : Nat := 0
  did : Option Nat := none
  kind : Nat := 1
  bn : Nat := 0
  chain : Nat := 0
  didPresent : Nat := 0
  nadPresent : Nat := 0
  pcb : Nat := 0
  fwi : Nat := 0
  sfgi : Nat := 0
  deriving DecidableEq, Repr

/-- The host command register `cmd` (R64, R120): "an 8-bit code `cmd.op` and the argument fields of that code". -/
structure CmdReg where
  op : Byte
  args : Args := {}
  deriving DecidableEq, Repr

/-- An encoded instruction: a header byte or a command register. -/
inductive Code where
  | pcb (b : Byte)
  | cmd (c : CmdReg)
  deriving DecidableEq, Repr

end Sys2Proof
end

