-- ==== Sys2Proof/WellFormed.lean ====
section
/-! DEFINITION. Which terms of Instr are instructions: the argument ranges of spec/30_encoding.md R122 that the types of the
constructors' arguments do not already say. -/

namespace Sys2Proof

/-- The largest frame size, buffer capacity and length: "naturals in `0..65535`" (R9, R122). -/
abbrev maxLen : Nat := 65535

/-- The largest retry ceiling an `INIT` may set (R34, R122). -/
abbrev maxCeiling : Nat := 255

/-- The argument ranges of R122. -/
def Instr.wf : Instr → Bool
  | .iFinal _ _ _ => true
  | .iChain _ _ _ => true
  | .rAck _ _ => true
  | .rNak _ _ => true
  | .sDsl _ => true
  | .sWtx _ => true
  | .init _ maxI maxR maxS => decide (maxI ≤ maxCeiling) && decide (maxR ≤ maxCeiling) && decide (maxS ≤ maxCeiling)
  | .setSession _ ourFsx _ => decide (ourFsx ≤ maxLen)
  | .startTx txBuffer txLength _ rxCap _ fsx _ =>
    decide (txLength ≤ maxLen) && decide (txLength ≤ txBuffer.length) && decide (rxCap ≤ maxLen) && decide (fsx ≤ maxLen)
  | .poll => true
  | .deselect => true
  | .listenStart rxCap _ fsx _ => decide (rxCap ≤ maxLen) && decide (fsx ≤ maxLen)
  | .getMaxPayload => true
  | .encodeHdr _ _ _ _ _ => true
  | .decodeHdr _ => true
  | .fwi2fwt _ => true
  | .sfgi2sfgt _ => true

/-- An instruction whose arguments are in the ranges of R122. -/
abbrev Instr.WellFormed (i : Instr) : Prop := i.wf = true

end Sys2Proof
end

