-- ==== Sys2Proof/Decode.lean ====
section
/-! DEFINITION. The decoder and, after it, the encoder. Header bytes follow spec/30_encoding.md R101 to R114 and
spec/40_codec.md R150 to R164; the command register follows R120 to R123. Decoding is total and rejects by name. -/

namespace Sys2Proof

/-- Why a code is no instruction. `invalidHeader` is a reported result, not a refusal: a received invalid header is a
`ProtocolError` (R112); the other two are refused (R113, R122, R408). -/
inductive DecodeError where
  | invalidHeader
  | unknownCode
  | argument (a : ArgName)
  deriving DecidableEq, Repr

/-! ### Header bytes: decode (R160 to R164) -/

/-- The result of `Classify` (R160). -/
inductive BlockClass where
  | i
  | r
  | s
  | invalid
  deriving DecidableEq, Repr

/-- `Classify(pcb)` (R160), with the masks and values of R105. -/
def classify (pcb : Byte) : BlockClass :=
  if pcb &&& 0xE2#8 = 0x02#8 then .i
  else if pcb &&& 0xE6#8 = 0xA2#8 then .r
  else if pcb &&& 0xC7#8 = 0xC2#8 ∧ (pcb &&& 0x30#8 = 0x00#8 ∨ pcb &&& 0x30#8 = 0x30#8) then .s
  else .invalid

/-- `C = pcb[4]` of an I-block, `K = pcb[4]` of an R-block (R111). -/
def bitC (pcb : Byte) : Bool := pcb.getLsbD 4
/-- `D = pcb[3]`, a DID byte follows (R111). -/
def bitD (pcb : Byte) : Bool := pcb.getLsbD 3
/-- `N = pcb[2]`, a NAD byte follows (R111). -/
def bitN (pcb : Byte) : Bool := pcb.getLsbD 2
/-- `B = pcb[0]`, the sender's block number (R111). -/
def bitB (pcb : Byte) : Bool := pcb.getLsbD 0

/-- `Decode(pcb)` (R164), built from `DecI`, `DecR` and `DecS` (R161 to R163). -/
def decodePcb (pcb : Byte) : Header :=
  match classify pcb with
  | .i => .iBlock (bitC pcb) (bitD pcb) (bitN pcb) (bitB pcb)
  | .r => if bitC pcb then .rNak (bitD pcb) (bitB pcb) else .rAck (bitD pcb) (bitB pcb)
  | .s => if pcb &&& 0x30#8 = 0x00#8 then .sDsl (bitD pcb) else .sWtx (bitD pcb)
  | .invalid => .invalid

/-- The instruction a decoded header is (R114); none for `Invalid` (R112). -/
def headerInstr : Header → Option Instr
  | .invalid => none
  | .iBlock false d n b => some (.iFinal d n b)
  | .iBlock true d n b => some (.iChain d n b)
  | .rAck d b => some (.rAck d b)
  | .rNak d b => some (.rNak d b)
  | .sDsl d => some (.sDsl d)
  | .sWtx d => some (.sWtx d)

/-! ### The command register: decode (R121, R122) -/

/-- A number argument in `0..max`. -/
def argUpTo (a : ArgName) (max v : Nat) : Except DecodeError Nat :=
  if v ≤ max then .ok v else .error (.argument a)

/-- A one-bit argument. -/
def argBit (a : ArgName) : Nat → Except DecodeError Bool
  | 0 => .ok false
  | 1 => .ok true
  | _ => .error (.argument a)

/-- A byte argument. -/
def argByte (a : ArgName) (v : Nat) : Except DecodeError Byte :=
  if v < 256 then .ok (BitVec.ofNat 8 v) else .error (.argument a)

/-- A 4-bit argument. -/
def argNibble (a : ArgName) (v : Nat) : Except DecodeError (BitVec 4) :=
  if v < 16 then .ok (BitVec.ofNat 4 v) else .error (.argument a)

/-- An argument that is `Absent` or a byte. -/
def argOptByte (a : ArgName) : Option Nat → Except DecodeError (Option Byte)
  | none => .ok none
  | some v => (argByte a v).map some

/-- `mode` ∈ {0, 1, 2}: `NFC_FORUM`, `EMV`, `ISO` (R33, R122). -/
def argMode : Nat → Except DecodeError Mode
  | 0 => .ok .nfcForum
  | 1 => .ok .emv
  | 2 => .ok .iso
  | _ => .error (.argument .mode)

/-- `kind` ∈ {1 .. 5} (R122). -/
def argKind : Nat → Except DecodeError BlockKind
  | 1 => .ok .i
  | 2 => .ok .rAck
  | 3 => .ok .rNak
  | 4 => .ok .sDsl
  | 5 => .ok .sWtx
  | _ => .error (.argument .kind)

/-- `txBuffer`, "a byte sequence of at least `txLength` bytes" (R122). -/
def argBuffer (txLength : Nat) (b : List Byte) : Except DecodeError (List Byte) :=
  if txLength ≤ b.length then .ok b else .error (.argument .txBuffer)

/-- The command register decoded by the code table of R121; a code outside it is reserved (R113), an argument outside its
range is refused (R122). -/
def decodeCmd (c : CmdReg) : Except DecodeError Instr :=
  let a := c.args
  match c.op.toNat with
  | 0x01 => do
    let m ← argMode a.mode
    let i ← argUpTo .maxI maxCeiling a.maxI
    let r ← argUpTo .maxR maxCeiling a.maxR
    let s ← argUpTo .maxS maxCeiling a.maxS
    return .init m i r s
  | 0x02 => do
    let f ← argUpTo .ourFsx maxLen a.ourFsx
    let n ← argOptByte .nad a.nad
    return .setSession a.dFwt f n
  | 0x03 => do
    let l ← argUpTo .txLength maxLen a.txLength
    let b ← argBuffer l a.txBuffer
    let c ← argBit .chainingFlag a.chainingFlag
    let r ← argUpTo .rxCap maxLen a.rxCap
    let f ← argUpTo .fsx maxLen a.fsx
    let d ← argOptByte .did a.did
    return .startTx b l c r a.fwt f d
  | 0x04 => .ok .poll
  | 0x05 => .ok .deselect
  | 0x06 => do
    let r ← argUpTo .rxCap maxLen a.rxCap
    let f ← argUpTo .fsx maxLen a.fsx
    let d ← argOptByte .did a.did
    return .listenStart r a.fwt f d
  | 0x07 => .ok .getMaxPayload
  | 0x08 => do
    let k ← argKind a.kind
    let b ← argBit .bn a.bn
    let c ← argBit .chain a.chain
    let d ← argBit .didPresent a.didPresent
    let n ← argBit .nadPresent a.nadPresent
    return .encodeHdr k b c d n
  | 0x09 => do
    let p ← argByte .pcb a.pcb
    return .decodeHdr p
  | 0x0A => do
    let f ← argNibble .fwi a.fwi
    return .fwi2fwt f
  | 0x0B => do
    let f ← argNibble .sfgi a.sfgi
    return .sfgi2sfgt f
  | _ => .error .unknownCode

/-- The decoder: a header byte by R164, a command register by R121. -/
def decode : Code → Except DecodeError Instr
  | .pcb b =>
    match headerInstr (decodePcb b) with
    | some i => .ok i
    | none => .error .invalidHeader
  | .cmd c => decodeCmd c

/-! ### The encoder -/

/-- One bit of a byte, at position `k`. -/
def bitAt (b : Bool) (k : Nat) : Byte := (if b then 1#8 else 0#8) <<< k

/-- `EncI(bn, chain, didP, nadP)` (R150). -/
def encI (bn chain didP nadP : Bool) : Byte := 0x02#8 ||| bitAt chain 4 ||| bitAt didP 3 ||| bitAt nadP 2 ||| bitAt bn 0
/-- `EncRAck(bn, didP)` (R151). -/
def encRAck (bn didP : Bool) : Byte := 0xA2#8 ||| bitAt didP 3 ||| bitAt bn 0
/-- `EncRNak(bn, didP)` (R152). -/
def encRNak (bn didP : Bool) : Byte := 0xB2#8 ||| bitAt didP 3 ||| bitAt bn 0
/-- `EncSDsl(didP)` (R153). -/
def encSDsl (didP : Bool) : Byte := 0xC2#8 ||| bitAt didP 3
/-- `EncSWtx(didP)` (R154). -/
def encSWtx (didP : Bool) : Byte := 0xF2#8 ||| bitAt didP 3

/-- The header of a block of kind `k`; operands the kind does not use are ignored (R167, D46). -/
def encHeader (k : BlockKind) (bn chain didP nadP : Bool) : Byte :=
  match k with
  | .i => encI bn chain didP nadP
  | .rAck => encRAck bn didP
  | .rNak => encRNak bn didP
  | .sDsl => encSDsl didP
  | .sWtx => encSWtx didP

/-- The number of a compliance mode (R33, D32). -/
def modeCode : Mode → Nat
  | .nfcForum => 0
  | .emv => 1
  | .iso => 2

/-- The number of a block kind (R122). -/
def kindCode : BlockKind → Nat
  | .i => 1
  | .rAck => 2
  | .rNak => 3
  | .sDsl => 4
  | .sWtx => 5

/-- A one-bit argument as the number it is. -/
def bitNat (b : Bool) : Nat := if b then 1 else 0

/-- The encoder: the header byte or the command register that IS the instruction (R114, R121). -/
def encode : Instr → Code
  | .iFinal d n b => .pcb (encI b false d n)
  | .iChain d n b => .pcb (encI b true d n)
  | .rAck d b => .pcb (encRAck b d)
  | .rNak d b => .pcb (encRNak b d)
  | .sDsl d => .pcb (encSDsl d)
  | .sWtx d => .pcb (encSWtx d)
  | .init m i r s => .cmd { op := 0x01#8, args := { mode := modeCode m, maxI := i, maxR := r, maxS := s } }
  | .setSession dFwt f n => .cmd { op := 0x02#8, args := { dFwt := dFwt, ourFsx := f, nad := n.map BitVec.toNat } }
  | .startTx b l c r w f d =>
    .cmd { op := 0x03#8, args := { txBuffer := b, txLength := l, chainingFlag := bitNat c, rxCap := r, fwt := w, fsx := f,
                                   did := d.map BitVec.toNat } }
  | .poll => .cmd { op := 0x04#8 }
  | .deselect => .cmd { op := 0x05#8 }
  | .listenStart r w f d => .cmd { op := 0x06#8, args := { rxCap := r, fwt := w, fsx := f, did := d.map BitVec.toNat } }
  | .getMaxPayload => .cmd { op := 0x07#8 }
  | .encodeHdr k b c d n =>
    .cmd { op := 0x08#8, args := { kind := kindCode k, bn := bitNat b, chain := bitNat c, didPresent := bitNat d,
                                   nadPresent := bitNat n } }
  | .decodeHdr p => .cmd { op := 0x09#8, args := { pcb := p.toNat } }
  | .fwi2fwt f => .cmd { op := 0x0A#8, args := { fwi := f.toNat } }
  | .sfgi2sfgt f => .cmd { op := 0x0B#8, args := { sfgi := f.toNat } }

/-! ### The opcode table's words -/

/-- The code a word of the opcode table stands for. The two instruction sets share the byte values `0x02`, `0x03`, `0x06`,
`0x07`, `0x0A` and `0x0B`: a command code is read as a command, every other byte as a header (log entry 3). The table gives
the argument fields no bits: each has its least legal value (log entry 3). -/
def tableCode (b : Byte) : Code :=
  if 0x01 ≤ b.toNat ∧ b.toNat ≤ 0x0B then .cmd { op := b } else .pcb b

/-- The instruction the decoder reads from a word of the opcode table; every row of the table has 8 bits. -/
def decodeTableWord (nbits w : Nat) : Option Instr :=
  if nbits = 8 ∧ w < 256 then
    match decode (tableCode (BitVec.ofNat 8 w)) with
    | .ok i => some i
    | .error _ => none
  else none

end Sys2Proof
end

