-- ==== Sys2Proof/Machine/State.lean ====
section
/-! DEFINITION. The state of the ISO-DEP Link Engine: the five groups of spec/10_state.md R30 (`cfg`, `ses`, `ctx`, `out`,
`cmd`), the transport's pending operation (R62), and what the two other agents of R461 have still to say (the host's further
commands, the transport's further answers). Then its reset value (R63), and the ways a step can stop. -/

namespace Sys2Proof.Machine

/-- `ctx.st` (R45). -/
inductive St where
  | uninit
  | idle
  | tx
  | rx
  | waitDeselect
  | activated
  deriving DecidableEq, Repr

/-- `ctx.role` (R46). -/
inductive Role where
  | poller
  | listener
  deriving DecidableEq, Repr

/-- The result codes of R401. -/
inductive Result where
  | done
  | busy
  | partialData
  | parameterError
  | protocolError
  | timeout
  | bufferTooSmall
  | linkLoss
  | deselected
  deriving DecidableEq, Repr

/-- The configuration registers (R33, R34). -/
structure Cfg where
  mode : Mode
  maxI : Nat
  maxR : Nat
  maxS : Nat
  deriving DecidableEq, Repr

/-- The session registers (R40, R41). -/
structure Ses where
  valid : Bool
  dFwt : Nat
  ourFsx : Nat
  nad : Option Byte
  deriving DecidableEq, Repr

/-- The Link Context (R45 to R58). `bn` is the block number (false is 0, true is 1); `lastKind = none` is the spec's `None`;
`dslIter = none` says that no `DESELECT` runs. -/
structure Ctx where
  st : St
  role : Role
  bn : Bool
  did : Option (BitVec 4)
  fwt : Nat
  fsx : Nat
  cntI : Nat
  cntR : Nat
  cntS : Nat
  txChaining : Bool
  rxChaining : Bool
  lastKind : Option BlockKind
  lastI : List Byte
  lastFrame : List Byte
  txInf : List Byte
  rxCap : Nat
  dslIter : Option Nat
  deriving DecidableEq, Repr

/-- The output registers (R59). -/
structure Out where
  result : Result
  rxData : List Byte
  rxLen : Nat
  value : Nat
  deriving DecidableEq, Repr

/-- The transport's pending operation: what `Submit` handed over (R62, R421). An empty `frame` arms reception only (D31). -/
structure Pending where
  frame : List Byte
  bitLen : Nat
  rxCap : Nat
  flags : Nat
  fwt : Nat
  deriving DecidableEq, Repr

/-- The transport as the block sees it. `pend` is the pending operation (R62); `rxBuf` its receive buffer (R421), which a
`Done` fills; `answers` is what the coming status reads of a pending operation return, the first read first (an input);
`fresh` counts the free values used up (the model's own, log entry 4). -/
structure Transport where
  pend : Option Pending
  rxBuf : List Byte
  answers : List TStatus
  fresh : Nat
  deriving DecidableEq, Repr

/-- The whole machine. `prm` are the parameters of R8, which no step writes; `cmd` is the command register while it holds a
command that has been written and not started (R64); `host` are the commands the caller issues after that, the next one first
(an input). -/
structure State where
  prm : Params
  cfg : Cfg
  ses : Ses
  ctx : Ctx
  out : Out
  cmd : Option CmdReg
  host : List CmdReg
  tr : Transport
  deriving DecidableEq, Repr

/-- Why the machine stops with a fault. -/
inductive Fault where
  /-- Raised by `memRead`, `memByte` and `memWrite` for an access outside a buffer, which "a model must fault" (R82). Safe: "a use
  outside these bounds does not occur in any rule"; only `START_TX` with a `txLength` above its buffer's length, which the decoder
  refuses, meets it. -/
  | bufferBounds
  deriving DecidableEq, Repr

/-- Why a step has no meaning: `refuse(reason)` of R408, "a model-level outcome". -/
inductive Refusal where
  /-- Raised by an arm of `exec` whose instruction has no meaning yet; no arm is one. Safe. -/
  | notModelled (mnemonic : String)
  /-- Raised by every command outside the admission table R262. Safe: the spec refuses it. -/
  | notAdmitted
  /-- Raised by `step` for a command code outside R121 (R113). Safe: the spec refuses it. -/
  | unknownCode
  /-- Raised by `step` for an argument outside its range (R122). Safe: the spec refuses it. -/
  | argumentRange (a : ArgName)
  /-- Raised by a block header executed in a state that reads no reception (R248 "otherwise -> refuse"). Safe. -/
  | noReception
  /-- Raised by an admitted `DESELECT` in a session whose ordinary frame-waiting time exceeds `FWT_DSL`: "a model must refuse a
  configuration that breaks it" (R197, 93_implementation_defined.md I18). Safe: the spec refuses it. -/
  | deselectWindow
  deriving DecidableEq, Repr

/-- The outcome of one step of this machine. -/
abbrev Outcome : Type := Host.Outcome State Fault Refusal

/-- The configuration registers at power-on: "unspecified" (R63); DESIGN CHOICE zero, log entry 2. A step reads them only in
the state that `placeFrame` makes for the host's probe (log entry 12). -/
def Cfg.reset : Cfg := { mode := .nfcForum, maxI := 0, maxR := 0, maxS := 0 }

/-- The session registers at power-on: `valid` false (R40); the rest "unspecified" (R63), DESIGN CHOICE zero, log entry 2,
and read by no rule (`Ses.readable`), but for a session that `openSession` opens for the host's probe (log entry 12). -/
def Ses.reset : Ses := { valid := false, dFwt := 0, ourFsx := 0, nad := none }

/-- The Link Context after `fullReset()` (R61): "every `ctx` field to its `INIT` value" (D27). -/
def Ctx.cleared : Ctx where
  st := .idle
  role := .poller
  bn := false
  did := none
  fwt := 0
  fsx := 0
  cntI := 0
  cntR := 0
  cntS := 0
  txChaining := false
  rxChaining := false
  lastKind := none
  lastI := []
  lastFrame := []
  txInf := []
  rxCap := 0
  dslIter := none

/-- The Link Context at power-on (R63): as after `INIT` but in `UNINIT`. -/
def Ctx.reset : Ctx := { Ctx.cleared with st := .uninit }

/-- The output registers at power-on (R59, R63); "buffers empty" (R440). -/
def Out.reset : Out := { result := .done, rxData := [], rxLen := 0, value := 0 }

/-- The transport at power-on: no pending operation (R63), and no answer of it laid down. -/
def Transport.reset : Transport := { pend := none, rxBuf := [], answers := [], fresh := 0 }

/-- The machine after power-on (R63, R440), with no command issued. -/
def State.reset : State where
  prm := Config.params
  cfg := Cfg.reset
  ses := Ses.reset
  ctx := Ctx.reset
  out := Out.reset
  cmd := none
  host := []
  tr := Transport.reset

end Sys2Proof.Machine
end

