-- ==== Sys2Proof/Machine/Buffers.lean ====
section
/-! DEFINITION. The byte buffers: the reads and writes of spec/20_memory.md R82. "A use outside these bounds does not occur in any
rule; a model must fault it rather than give it a value", so each of them may answer a fault. -/

namespace Sys2Proof.Machine

/-- `MemRead(buf, i, n)` (R82): defined only inside the buffer. -/
def memRead (buf : List Byte) (i n : Nat) : Except Fault (List Byte) :=
  if i + n ≤ buf.length then .ok ((buf.drop i).take n) else .error .bufferBounds

/-- `buf[i]`, which is `MemRead(buf, i, 1)` (R82). -/
def memByte (buf : List Byte) (i : Nat) : Except Fault Byte :=
  match buf.drop i with
  | b :: _ => .ok b
  | [] => .error .bufferBounds

/-- `MemWrite(buf, i, n, v)` (R82) with `n` the length of `v`, into a buffer of capacity `cap` (R81): defined only within the
capacity. A write that would leave a gap behind the buffer's bytes faults as well (log entry 17). -/
def memWrite (buf : List Byte) (cap i : Nat) (v : List Byte) : Except Fault (List Byte) :=
  if i + v.length ≤ cap ∧ i ≤ buf.length then .ok (buf.take i ++ v ++ buf.drop (i + v.length)) else .error .bufferBounds

end Sys2Proof.Machine
end

