-- ==== Sys2Proof/Machine/Operands.lean ====
section
/-! DEFINITION. The operands of the rules: the decided parameters of spec/00_scope.md R8, header lengths, the parts of a
received frame, the header check of spec/40_codec.md R166, and the range checks of the commands (R243, R246, R261). -/

namespace Sys2Proof.Machine

/-- `CRC_LEN`, decided 2 (R8, D7). -/
def crcLen : Nat := 2

/-- `DID_OK(mode)`, decided by D20: `NFC_FORUM` yes, `EMV` no, `ISO` yes. -/
def didOk : Mode → Bool
  | .nfcForum => true
  | .emv => false
  | .iso => true

/-- `NAD_OK(mode)`, decided by D20: `NFC_FORUM` no, `EMV` no, `ISO` yes. -/
def nadOk : Mode → Bool
  | .nfcForum => false
  | .emv => false
  | .iso => true

/-- `FSX_MAX(mode)` (R8). -/
def fsxMax (p : Params) : Mode → Nat
  | .nfcForum => p.fsxMaxNfcForum.val
  | .emv => p.fsxMaxEmv.val
  | .iso => p.fsxMaxIso.val

/-- `e ∈ BAIL_ON(mode)` (R8, R283). -/
def bailsOn (p : Params) (m : Mode) (e : TxError) : Bool := p.bailOn.contains (m, e)

/-- The session registers as every rule reads them. Before any `SET_SESSION` they are unspecified, and "a model must treat every
'unspecified' entry as unreadable" (R63): a rule then finds free values, never what the registers hold (log entry 13). -/
def Ses.readable (r : Ses) : Ses :=
  if r.valid then r
  else { valid := false, dFwt := Config.unspecifiedDFwt, ourFsx := Config.unspecifiedOurFsx.val, nad := Config.unspecifiedNad }

/-- The length of a header: one PCB byte, one DID byte when `d`, one NAD byte when `n` (R65, R110, R165). -/
def hdrLen (d n : Bool) : Nat := 1 + d.toNat + n.toNat

/-- `txHdrLen` of an I-block (R65). -/
def txHdrLenI (s : State) : Nat := hdrLen s.ctx.did.isSome s.ses.readable.nad.isSome

/-- `didP` of R155: whether frames carry the DID byte. -/
def didInUse (s : State) : Bool := s.ctx.did.isSome

/-- The DID byte a frame carries: `zext_8(ctx.did)`, or nothing when `Absent` (R107, R155). -/
def didBytes (s : State) : List Byte :=
  match s.ctx.did with
  | some d => [d.zeroExtend 8]
  | none => []

/-- The NAD byte a frame of kind `k` carries: `ses.nad` in an I-block, nothing elsewhere or when `Absent` (R108, R155). -/
def nadBytes (k : BlockKind) (s : State) : List Byte :=
  match k with
  | .i => s.ses.readable.nad.toList
  | _ => []

/-- `nadP` of R155: whether a frame of kind `k` carries the NAD byte. -/
def nadInUse (k : BlockKind) (s : State) : Bool :=
  match k with
  | .i => s.ses.readable.nad.isSome
  | _ => false

/-- `BuildFrame(kind, inf)` (R155): the header for the current session before the payload. -/
def buildFrame (k : BlockKind) (inf : List Byte) (s : State) : List Byte :=
  encHeader k s.ctx.bn s.ctx.txChaining (didInUse s) (nadInUse k s) :: (didBytes s ++ nadBytes k s ++ inf)

/-- The received frame (R421: the transport's receive buffer). -/
def rxFrame (s : State) : List Byte := s.tr.rxBuf

/-- `f[h..]`: the received INF behind a header of `h` bytes, `MemRead(f, h, len(f) − h)` (R90). -/
def rxInf (h : Nat) (s : State) : Except Fault (List Byte) := memRead (rxFrame s) h ((rxFrame s).length - h)

/-- `len(f) − h = 0`: the received block carries no INF (R290, R291, R299, R341, R354). -/
def noInf (h : Nat) (s : State) : Bool := (rxFrame s).length == h

/-- WTXM, `inf[5:0]` (R109, R111). -/
def wtxm (b : Byte) : Nat := (b &&& 0x3F#8).toNat

/-- The DID checks of R166: with a DID in use, the frame must carry it (bits 7:4 of its DID byte `f[1]` are ignored, R107); with
none in use, it must carry none (D5). -/
def didMatches (d : Bool) (s : State) : Except Fault Bool :=
  match s.ctx.did with
  | none => .ok (!d)
  | some v => if d then (memByte (rxFrame s) 1).map (fun b => b.truncate 4 == v) else .ok false

/-- The length and DID checks of `HeaderCheck` (R166) on a frame whose header has been decoded, in their written order: whether
the frame passes. -/
def headerCheck (d n : Bool) (s : State) : Except Fault Bool :=
  if (rxFrame s).length < hdrLen d n then .ok false
  else if s.ses.readable.ourFsx < (rxFrame s).length + crcLen then .ok false
  else didMatches d s

/-- `SessionCheck(ourFsx, nad)` passes (R243). -/
def sessionCheck (ourFsx : Nat) (nad : Option Byte) (s : State) : Bool :=
  decide (crcLen < ourFsx) && decide (ourFsx ≤ fsxMax s.prm s.cfg.mode) && (nad.isNone || nadOk s.cfg.mode)

/-- A `deviceId` argument is admitted: `Absent`, or `0..14` in a mode that permits a DID (the first line of R246). -/
def didArgOk (did : Option Byte) (s : State) : Bool :=
  match did with
  | none => true
  | some v => decide (v.toNat ≤ 14) && didOk s.cfg.mode

/-- `ListenCheck(fsx, did)` passes (R261): the checks of R246 that do not read `txLength`. -/
def listenCheck (fsx : Nat) (did : Option Byte) (s : State) : Bool :=
  didArgOk did s && decide (fsx ≤ fsxMax s.prm s.cfg.mode) && decide (hdrLen did.isSome s.ses.readable.nad.isSome + crcLen ≤ fsx)

/-- `TxCheck` passes (R246). -/
def txCheck (txLength fsx : Nat) (did : Option Byte) (s : State) : Bool :=
  listenCheck fsx did s && decide (txLength ≤ fsx - hdrLen did.isSome s.ses.readable.nad.isSome - crcLen)

/-- The DID in use that a checked `deviceId` argument names (R48). -/
def didOfArg (did : Option Byte) : Option (BitVec 4) := did.map (fun v => v.truncate 4)

end Sys2Proof.Machine
end

