-- ==== Sys2Proof/Machine/Flags.lean ====
section
/-! DEFINITION. The flags and counters of the Link Context: the block number (R47, R68), the chaining flags (R52, R53), the
three retry counters with `RetryStep` and `ExhaustCode` (R190 to R193), and the packing of `DECODE_HDR` (R123). -/

namespace Sys2Proof.Machine

/-- `ctx.bn <- 1 − ctx.bn` (R47). -/
def toggleBn (s : State) : State := { s with ctx := { s.ctx with bn := !s.ctx.bn } }

/-- The three retry counters `<- 0` (R192). -/
def clearCounters (s : State) : State := { s with ctx := { s.ctx with cntI := 0, cntR := 0, cntS := 0 } }

/-- `ctx.rxChaining <- true` (R53). -/
def setRxChaining (s : State) : State := { s with ctx := { s.ctx with rxChaining := true } }

/-- `ctx.txChaining <- false ; ctx.rxChaining <- false` (R60, R381). -/
def clearChaining (s : State) : State := { s with ctx := { s.ctx with txChaining := false, rxChaining := false } }

/-- `ctx.st <- st` (R45). -/
def setSt (st : St) (s : State) : State := { s with ctx := { s.ctx with st := st } }

/-- The kinds of retry counter (R51). -/
inductive Counter where
  | i
  | r
  | s
  deriving DecidableEq, Repr

/-- `ctx.cntk`. -/
def count (k : Counter) (s : State) : Nat :=
  match k with
  | .i => s.ctx.cntI
  | .r => s.ctx.cntR
  | .s => s.ctx.cntS

/-- `cfg.maxk`. -/
def ceiling (k : Counter) (s : State) : Nat :=
  match k with
  | .i => s.cfg.maxI
  | .r => s.cfg.maxR
  | .s => s.cfg.maxS

/-- `ctx.cntk <- ctx.cntk + 1`. -/
def countUp (k : Counter) (s : State) : State :=
  match k with
  | .i => { s with ctx := { s.ctx with cntI := s.ctx.cntI + 1 } }
  | .r => { s with ctx := { s.ctx with cntR := s.ctx.cntR + 1 } }
  | .s => { s with ctx := { s.ctx with cntS := s.ctx.cntS + 1 } }

/-- `RetryStep(k)` (R190): none is `Exhausted`, the counter unchanged. -/
def retryStep (k : Counter) (s : State) : Option State :=
  if count k s + 1 > ceiling k s then none else some (countUp k s)

/-- `ExhaustCode(k)` (R191). -/
def exhaustCode : Counter → Result
  | .i => .protocolError
  | .r => .timeout
  | .s => .protocolError

/-- The number of a result code (R401). -/
def Result.code : Result → Nat
  | .done => 0
  | .busy => 1
  | .partialData => 2
  | .parameterError => 3
  | .protocolError => 4
  | .timeout => 5
  | .bufferTooSmall => 6
  | .linkLoss => 7
  | .deselected => 8

/-- The block kind of a decoded header, none for `Invalid` (R228: "kind only"). -/
def headerKind : Header → Option BlockKind
  | .invalid => none
  | .iBlock _ _ _ _ => some .i
  | .rAck _ _ => some .rAck
  | .rNak _ _ => some .rNak
  | .sDsl _ => some .sDsl
  | .sWtx _ => some .sWtx

/-- The packed value of R123: kind in bits 2:0, C in bit 3, D in bit 4, N in bit 5, B in bit 6. -/
def packFields (kind : Nat) (c d n b : Bool) : Nat :=
  kind + 8 * bitNat c + 16 * bitNat d + 32 * bitNat n + 64 * bitNat b

/-- `Pack` of a decoded header (R123); 0 for `Invalid`. -/
def packHeader : Header → Nat
  | .invalid => 0
  | .iBlock c d n b => packFields 1 c d n b
  | .rAck d b => packFields 2 false d false b
  | .rNak d b => packFields 3 false d false b
  | .sDsl d => packFields 4 false d false false
  | .sWtx d => packFields 5 false d false false

end Sys2Proof.Machine
end

