-- ==== Sys2Proof/Machine/Ops.lean ====
section
/-! DEFINITION. The shared operations: the two resets (R60, R61), finishing and failing a command, which is
this hardware's taking an exception (R400, R404, R414), admission (R262), and the three transport operations (R421 to R423). -/

namespace Sys2Proof.Machine

/-! ### Resets -/

/-- `toIdle()` (R60): "the neutral state the source requires on a terminal path". -/
def toIdle (s : State) : State :=
  { s with ctx := { s.ctx with st := .idle, cntI := 0, cntR := 0, cntS := 0, rxChaining := false, txChaining := false,
                               dslIter := none } }

/-- `fullReset()` (R61): every field of the Link Context to its `INIT` value. -/
def fullReset (s : State) : State := { s with ctx := Ctx.cleared }

/-! ### Finishing a command, and terminal errors -/

/-- `finish(code)` (R400): `out.result <- code`. -/
def finish (code : Result) (s : State) : State := { s with out := { s.out with result := code } }

/-- What a rule of a reception step answers: the state it leaves and the code its `finish` is given, or the fault of a buffer
access out of bounds (R82). Who reads the code is `complete`'s: the output register after a `POLL`, the procedure inside a
`DESELECT` (R400). -/
abbrev Rx : Type := Except Fault (State × Result)

/-- `fail(code)` (R404): `toIdle(); finish(code)`. The one way a terminal error of a reception is taken (R414). -/
def fail (code : Result) (s : State) : Rx := .ok (toIdle s, code)

/-- An action after which the exchange goes on: `finish(Busy)`. -/
def busyAfter (act : State → State) (s : State) : Rx := .ok (act s, .busy)

/-- The end of a reception step that began in a state with `ctx.dslIter = iter` and whose rule left `s` with the code `c`. After a
`POLL` the code is the command's result (R400). In a `DESELECT` iteration `Busy` leads to the next iteration (R382), and every
other code completes the procedure: `fullReset(); finish(r)` (R384). -/
def complete (iter : Option Nat) (c : Result) (s : State) : State :=
  match iter with
  | none => finish c s
  | some _ => if c = .busy then s else finish c (fullReset s)

/-- The outcome of a reception step. -/
def conclude (iter : Option Nat) (r : Rx) : Outcome :=
  match r with
  | .ok (s, c) => .next (complete iter c s)
  | .error f => .fault f

/-! ### Admission -/

/-- The rows of the admission table R262; `query` stands for its last row. -/
inductive Row where
  | init
  | setSession
  | startTx
  | poll
  | deselect
  | listenStart
  | getMaxPayload
  | query
  deriving DecidableEq, Repr

/-- The admission table R262, row by row, for a block in which no `DESELECT` runs. -/
def tableAdmits (r : Row) (s : State) : Bool :=
  match r, s.ctx.st with
  | .init, .waitDeselect => false
  | .init, _ => true
  | _, .uninit => false
  | _, .waitDeselect => false
  | .setSession, .idle => true
  | .setSession, _ => false
  | .startTx, .idle => s.ses.valid
  | .startTx, _ => false
  | .poll, .idle => false
  | .poll, _ => true
  | .deselect, .activated => false
  | .deselect, _ => decide (s.ctx.role = .poller)
  | .listenStart, .idle => s.ses.valid && decide (s.prm.listenerRules = .iso)
  | .listenStart, _ => false
  | .getMaxPayload, .activated => true
  | .getMaxPayload, _ => s.ses.valid
  | .query, _ => true

/-- Whether a command is admitted (R262): "while a `DESELECT` runs every host command is refused". -/
def admits (r : Row) (s : State) : Bool := s.ctx.dslIter.isNone && tableAdmits r s

/-- A command's rule, run only where R262 admits it; else `refuse` (R408). -/
def ifAdmitted (r : Row) (s : State) (rule : Outcome) : Outcome :=
  if admits r s then rule else .refused .notAdmitted

/-! ### The transport -/

/-- `Submit(frame, fwt)` (R421): "always accepts; it replaces any pending operation". -/
def submit (frame : List Byte) (fwt : Nat) (s : State) : State :=
  { s with tr := { s.tr with pend := some { frame := frame, bitLen := 8 * frame.length, rxCap := s.ses.readable.ourFsx - crcLen,
                                            flags := s.prm.txFlags, fwt := fwt } } }

/-- `TCancel()` (R423): ends the pending operation, if any. -/
def tCancel (s : State) : State := { s with tr := { s.tr with pend := none } }

/-- What the status read finds, and the state with that answer used up: the next answer of the transport, or a free value
when none is laid down or no operation is pending (R422: "a model may return any value to it"). Log entry 4. -/
def nextStatus (s : State) : TStatus × State :=
  match s.tr.pend, s.tr.answers with
  | some _, a :: rest => (a, { s with tr := { s.tr with answers := rest } })
  | _, _ => (Config.freeStatus s.tr.fresh, { s with tr := { s.tr with fresh := s.tr.fresh + 1 } })

/-- The transport's state after it has answered `a`: "after a non-`Busy` value the operation is over" (R422); a received
frame is in the receive buffer (R421). -/
def afterStatus (a : TStatus) (s : State) : State :=
  match a with
  | .busy => s
  | .done f => { s with tr := { s.tr with pend := none, rxBuf := f } }
  | _ => { s with tr := { s.tr with pend := none } }

/-- `TStatus()` (R422): the answer and the state after it. -/
def tStatus (s : State) : TStatus × State :=
  let p := nextStatus s
  (p.1, afterStatus p.1 p.2)

/-! ### Retries and received data -/

/-- A bounded retry: `RetryStep(k)`, then the retry's action, or `fail(ExhaustCode(k))` (R190, R191). -/
def retryThen (k : Counter) (act : State → Rx) (s : State) : Rx :=
  match retryStep k s with
  | none => fail (exhaustCode k) s
  | some s' => act s'

/-- `out.rxLen <- len(f) − h ; out.rxData <- f[h..]`, which is `MemWrite(out.rxData, 0, len(f) − h, MemRead(f, h, len(f) − h))`
into a capacity of `ctx.rxCap` (R81, R90). The new bytes replace the old ones whole (R95, log entry 6). -/
def deliver (h : Nat) (s : State) : Except Fault State :=
  match rxInf h s with
  | .error f => .error f
  | .ok inf =>
    match memWrite [] s.ctx.rxCap 0 inf with
    | .error f => .error f
    | .ok data => .ok { s with out := { s.out with rxData := data, rxLen := (rxFrame s).length - h } }

/-- The delivery of an accepted I-block, then the rule's last state change `act` and its code. -/
def deliverThen (h : Nat) (act : State → State) (c : Result) (s : State) : Rx :=
  (deliver h s).map (fun t => (act t, c))

/-- The buffer check of an accepted I-block, "before any field is written" (R300): `BufferTooSmall`, or the rule's effect. -/
def ifFits (h : Nat) (s : State) (rule : Rx) : Rx :=
  if (rxFrame s).length - h > s.ctx.rxCap then fail .bufferTooSmall s else rule

end Sys2Proof.Machine
end

