-- ==== Sys2Proof/Machine/Timing.lean ====
section
/-! DEFINITION. The timing policy: the conversions FWI to FWT and SFGI to SFGT with their two query commands, and the
frame-waiting time of each submission (spec/41_timing_retry.md R180 to R198). -/

namespace Sys2Proof.Machine

/-- `Fwi2Fwt(fwi)` (R180): an out-of-range FWI is REPLACED by the default, not saturated (90_conflicts.md C1). -/
def fwi2Fwt (p : Params) (fwi : BitVec 4) : Nat :=
  min p.maxFwt (2 ^ ((if fwi.toNat ≤ 14 then fwi.toNat else p.fwiDefault.val) + 12))

/-- `Sfgi2Sfgt(sfgi)` (R185). -/
def sfgi2Sfgt (p : Params) (sfgi : BitVec 4) : Nat :=
  if sfgi.toNat = 0 then p.sfgtMin else 4096 * 2 ^ sfgi.toNat + 384 * 2 ^ sfgi.toNat

/-- `fwtNormal()` (R195). -/
def fwtNormal (s : State) : Nat := min s.prm.maxFwt (s.ctx.fwt + s.ses.readable.dFwt)

/-- `fwtWtx(m)` (R196, 90_conflicts.md C2). -/
def fwtWtx (m : Nat) (s : State) : Nat := min s.prm.maxFwt (s.ctx.fwt * m + s.ses.readable.dFwt)

/-- `fwtDsl()` (R197). -/
def fwtDsl (s : State) : Nat := s.prm.fwtDsl

/-- R197: the deactivation window is no shorter than the ordinary frame-waiting time, in a session; before any session there is
no frame-waiting time to compare it with (log entry 9). -/
def windowOk (s : State) : Bool := !s.ses.valid || decide (fwtNormal s ≤ fwtDsl s)

/-- The end of a query: `out.value <- v; finish(Done)`. -/
def answer (v : Nat) (s : State) : State := finish .done { s with out := { s.out with value := v } }

/-- `FWI2FWT fwi` (R181). -/
def execFwi2fwt (fwi : BitVec 4) (s : State) : Outcome :=
  ifAdmitted .query s (.next (answer (fwi2Fwt s.prm fwi) s))

/-- `SFGI2SFGT sfgi` (R186). -/
def execSfgi2sfgt (sfgi : BitVec 4) (s : State) : Outcome :=
  ifAdmitted .query s (.next (answer (sfgi2Sfgt s.prm sfgi) s))

end Sys2Proof.Machine
end

