-- ==== Sys2Proof/Machine/Codec.lean ====
section
/-! DEFINITION. The host commands of the Block Codec (spec/40_codec.md R167, R168) and the query of the largest payload
(spec/43_link_commands.md R252). -/

namespace Sys2Proof.Machine

/-- `ENCODE_HDR kind, bn, chain, didPresent, nadPresent` (R167). -/
def execEncodeHdr (kind : BlockKind) (bn chain didPresent nadPresent : Bool) (s : State) : Outcome :=
  ifAdmitted .query s (.next (answer (encHeader kind bn chain didPresent nadPresent).toNat s))

/-- `DECODE_HDR pcb` (R168): an `Invalid` header is the value 0 with result `Done`. -/
def execDecodeHdr (pcb : Byte) (s : State) : Outcome :=
  ifAdmitted .query s (.next (answer (packHeader (decodePcb pcb)) s))

/-- The value of `GET_MAX_PAYLOAD` (R252): `ctx.fsx − h − CRC_LEN`, saturating at 0. -/
def maxPayload (s : State) : Nat := s.ctx.fsx - txHdrLenI s - crcLen

/-- `GET_MAX_PAYLOAD` (R252). -/
def execGetMaxPayload (s : State) : Outcome :=
  ifAdmitted .getMaxPayload s (.next (answer (maxPayload s) s))

end Sys2Proof.Machine
end

