-- ==== Sys2Proof/Machine/Control.lean ====
section
/-! DEFINITION. The Control-Message Builder and the submission of I-blocks (spec/42_control_messages.md R220 to R228). -/

namespace Sys2Proof.Machine

/-- `SendFrame(kind, inf, fwt, false)` (R220): build, submit, and remember what was sent. -/
def sendFrame (k : BlockKind) (inf : List Byte) (fwt : Nat) (s : State) : State :=
  let f := buildFrame k inf s
  let t := submit f fwt s
  { t with ctx := { t.ctx with lastKind := some k, lastI := if k = .i then f else t.ctx.lastI, lastFrame := f } }

/-- `SendAck()` (R221): R(ACK) with the current block number. -/
def sendAck (s : State) : State := sendFrame .rAck [] (fwtNormal s) s

/-- `SendNak()` (R222). -/
def sendNak (s : State) : State := sendFrame .rNak [] (fwtNormal s) s

/-- `SendWtxReply(m)` (R223): one payload byte carrying the multiplier, at the extended frame-waiting time. -/
def sendWtxReply (m : Nat) (s : State) : State := sendFrame .sWtx [BitVec.ofNat 8 m] (fwtWtx m s) s

/-- `SendDsl()` (R224): at `FWT_DSL`. -/
def sendDsl (s : State) : State := sendFrame .sDsl [] (fwtDsl s) s

/-- `SendI()` (R226): the pending I-block. -/
def sendI (s : State) : State := sendFrame .i s.ctx.txInf (fwtNormal s) s

/-- `ResendI()` (R227): the last I-block, byte for byte; `ctx.lastFrame` is not written. -/
def resendI (s : State) : State :=
  let t := submit s.ctx.lastI (fwtNormal s) s
  { t with ctx := { t.ctx with lastKind := some .i } }

/-- A frame kept for retransmission, whose header is `pcb`, submitted again byte for byte (R228). -/
def resendKept (pcb : Byte) (s : State) : State :=
  let t := submit s.ctx.lastFrame (fwtNormal s) s
  { t with ctx := { t.ctx with lastKind := headerKind (decodePcb pcb) } }

/-- `ResendLast()` (R228): the listener's last frame; `ctx.lastFrame[0]` of an empty one is out of bounds (R82). -/
def resendLast (s : State) : Except Fault State :=
  (memByte s.ctx.lastFrame 0).map (fun pcb => resendKept pcb s)

/-- `Submit([], fwtNormal())`: arms reception without sending (R260, R343, D31). -/
def armReception (s : State) : State := submit [] (fwtNormal s) s

end Sys2Proof.Machine
end

