-- ==== Sys2Proof/Machine/Link.lean ====
section
/-! DEFINITION. The commands that set the link up: `INIT`, `SET_SESSION`, `START_TX` and `LISTEN_START`
(spec/43_link_commands.md R240 to R247, R260, R261). -/

namespace Sys2Proof.Machine

/-- `out.rxLen <- 0`. -/
def clearRxLen (s : State) : State := { s with out := { s.out with rxLen := 0 } }

/-- The effect of `INIT` (R240). -/
def initEffect (mode : Mode) (maxI maxR maxS : Nat) (s : State) : State :=
  let t := fullReset { tCancel s with cfg := { mode := mode, maxI := maxI, maxR := maxR, maxS := maxS } }
  finish .done { t with out := { t.out with rxLen := 0, value := 0 } }

/-- `INIT mode, maxI, maxR, maxS` (R240). -/
def execInit (mode : Mode) (maxI maxR maxS : Nat) (s : State) : Outcome :=
  ifAdmitted .init s (.next (initEffect mode maxI maxR maxS s))

/-- `SET_SESSION dFwt, ourFsx, nad` (R242): a failed check is a `ParameterError` with "no state change". -/
def execSetSession (dFwt ourFsx : Nat) (nad : Option Byte) (s : State) : Outcome :=
  ifAdmitted .setSession s <|
    if sessionCheck ourFsx nad s then
      .next (finish .done { s with ses := { valid := true, dFwt := dFwt, ourFsx := ourFsx, nad := nad } })
    else .next (finish .parameterError s)

/-- The effect of `START_TX` once `TxCheck` has passed, with the `inf` copied in (R247). -/
def startTxEffect (inf : List Byte) (chainingFlag : Bool) (rxCap fwt fsx : Nat) (did : Option Byte) (s : State) : State :=
  let t := clearCounters { s with ctx := { s.ctx with txInf := inf, txChaining := chainingFlag, rxCap := rxCap, fwt := fwt,
                                                      fsx := fsx, did := didOfArg did } }
  finish .done (setSt .tx (clearRxLen t))

/-- `START_TX` (R244 to R247). The copy-in is a `MemRead` (R91), which faults outside the caller's buffer (R82). -/
def execStartTx (txBuffer : List Byte) (txLength : Nat) (chainingFlag : Bool) (rxCap fwt fsx : Nat) (did : Option Byte)
    (s : State) : Outcome :=
  ifAdmitted .startTx s <|
    if txCheck txLength fsx did s then
      match memRead txBuffer 0 txLength with
      | .ok inf => .next (startTxEffect inf chainingFlag rxCap fwt fsx did s)
      | .error f => .fault f
    else .next (finish .parameterError s)

/-- The listener's Link Context that `LISTEN_START` sets up (R260). -/
def listenCtx (rxCap fwt fsx : Nat) (did : Option Byte) (c : Ctx) : Ctx :=
  { c with role := .listener, bn := true, did := didOfArg did, fsx := fsx, fwt := fwt, rxCap := rxCap,
           cntI := 0, cntR := 0, cntS := 0, txChaining := false, rxChaining := false,
           lastKind := none, lastI := [], lastFrame := [], txInf := [] }

/-- The effect of `LISTEN_START` once `ListenCheck` has passed (R260). -/
def listenEffect (rxCap fwt fsx : Nat) (did : Option Byte) (s : State) : State :=
  finish .done (setSt .activated (armReception (clearRxLen { s with ctx := listenCtx rxCap fwt fsx did s.ctx })))

/-- `LISTEN_START rxCap, fwt, fsx, did` (R260). -/
def execListenStart (rxCap fwt fsx : Nat) (did : Option Byte) (s : State) : Outcome :=
  ifAdmitted .listenStart s <|
    if listenCheck fsx did s then .next (listenEffect rxCap fwt fsx did s)
    else .next (finish .parameterError s)

end Sys2Proof.Machine
end

