-- ==== Sys2Proof/Machine/Reception.lean ====
section
/-! DEFINITION. What the poller's and the listener's reception steps share: which states read the transport (R248, R280, R341),
the outcomes of the transport other than a frame (R281 to R286, R342, R343), and how a received block runs its rule. -/

namespace Sys2Proof.Machine

/-- The reception a state is in: the poller's exchange, the poller's deselect, or the listener's (R280, R341). -/
inductive Phase where
  | pollerRx
  | pollerWait
  | listenerRx
  deriving DecidableEq, Repr

/-- Which reception step a state runs; none where the transport is not read (R248 "otherwise"). -/
def phase (s : State) : Option Phase :=
  match s.ctx.role, s.ctx.st with
  | .poller, .rx => some .pollerRx
  | .poller, .waitDeselect => some .pollerWait
  | .listener, .rx => some .listenerRx
  | .listener, .activated => some .listenerRx
  | _, _ => none

/-- The code of a bail-out (R283): `Timeout` for a `Timeout`, else `ProtocolError`. -/
def bailCode : TxError → Result
  | .timeout => .timeout
  | .crc => .protocolError
  | .parity => .protocolError
  | .framing => .protocolError
  | .incompleteByte => .protocolError

/-- The poller's recovery from a transmission error: ACK while the remote is mid-chaining (R284), S(DESELECT) while a deselect
is outstanding (R285), else NAK (R286); each bounded by the R ceiling. -/
def pollerRecover (s : State) : Rx :=
  if s.ctx.rxChaining then retryThen .r (busyAfter sendAck) s
  else if s.ctx.st = .waitDeselect then retryThen .r (busyAfter sendDsl) s
  else retryThen .r (busyAfter sendNak) s

/-- A transmission error: the bail-out of R283, then the poller's recovery or the listener's re-arming (R343). -/
def transmissionError (p : Phase) (e : TxError) (s : State) : Rx :=
  if bailsOn s.prm s.cfg.mode e then fail (bailCode e) s
  else match p with
    | .pollerRx => pollerRecover s
    | .pollerWait => pollerRecover s
    | .listenerRx => busyAfter armReception s

/-- A received block runs its rule. `d` and `n` are its header's presence bits; a frame that fails the length and DID checks
of R166 is a `ProtocolError` (R287, R345). Then the rule of the reception the block arrives in: `poller` in `RX` (R280),
`waiting` in `WAIT_DESELECT` (R298, R299), `listener` for a listener (R341). -/
def runBlock (d n : Bool) (poller waiting listener : State → Rx) (s : State) : Outcome :=
  match phase s with
  | none => .refused .noReception
  | some p =>
    conclude s.ctx.dslIter <|
      match headerCheck d n s with
      | .error f => .error f
      | .ok false => fail .protocolError s
      | .ok true =>
        match p with
        | .pollerRx => poller s
        | .pollerWait => waiting s
        | .listenerRx => listener s

/-- Any block but S(DESELECT) while a deselect is outstanding: `fail(ProtocolError)` (R298). -/
def waitingOther (s : State) : Rx := fail .protocolError s

end Sys2Proof.Machine
end

