-- ==== Sys2Proof/Machine/Poller.lean ====
section
/-! DEFINITION. The poller's rule for each received block (spec/44_poller_rx.md R288 to R299). `h` is the header's length. -/

namespace Sys2Proof.Machine

/-- An acknowledged chained block: toggle, counters 0, `IDLE`, `ctx.txChaining` left set (R290, R352). -/
def chainAcked (s : State) : Rx := .ok (setSt .idle (clearCounters (toggleBn s)), .done)

/-- S(WTX) in `RX` (R288): exactly one INF byte, WTXM in `1..59`, then a retry of kind S that sends the reply. -/
def pollerSWtx (h : Nat) (s : State) : Rx :=
  match rxInf h s with
  | .error f => .error f
  | .ok [b] =>
    let m := wtxm b
    if m = 0 ∨ 59 < m then fail .protocolError s else retryThen .s (busyAfter (sendWtxReply m)) s
  | .ok _ => fail .protocolError s

/-- S(DESELECT) in `RX`: no deselect is pending (R289). -/
def pollerSDsl (s : State) : Rx := fail .protocolError s

/-- S(DESELECT) in `WAIT_DESELECT` (R299). -/
def waitingSDsl (h : Nat) (s : State) : Rx :=
  if noInf h s then .ok (fullReset s, .done) else fail .protocolError s

/-- R(ACK) in `RX` (R290 to R292): meaningful only during transmit chaining (90_conflicts.md C4). -/
def pollerRAck (h : Nat) (b : Bool) (s : State) : Rx :=
  if !s.ctx.txChaining then fail .protocolError s
  else if !noInf h s then fail .protocolError s
  else if b = s.ctx.bn then chainAcked s
  else retryThen .i (busyAfter resendI) s

/-- R(NAK) in `RX`: never accepted by the poller (R292). -/
def pollerRNak (s : State) : Rx := fail .protocolError s

/-- A chained I-block in `RX` (R293, R294, R297). -/
def pollerIChain (h : Nat) (b : Bool) (s : State) : Rx :=
  if s.ctx.txChaining then fail .protocolError s
  else if b = s.ctx.bn then
    ifFits h s (deliverThen h id .partialData (sendAck (clearCounters (setRxChaining (toggleBn s)))))
  else busyAfter sendAck s

/-- A final I-block in `RX` (R295, R296, R297). -/
def pollerIFinal (h : Nat) (b : Bool) (s : State) : Rx :=
  if s.ctx.txChaining then fail .protocolError s
  else if b = s.ctx.bn then ifFits h s (deliverThen h toIdle .done (toggleBn s))
  else match s.cfg.mode with
    | .nfcForum => fail .protocolError s
    | .emv => fail .protocolError s
    | .iso => retryThen .r (busyAfter sendNak) s

end Sys2Proof.Machine
end

