-- ==== Sys2Proof/Machine/Listener.lean ====
section
/-! DEFINITION. The listener's rule for each received block (spec/45_listener.md R344 to R354). `h` is the header's length. -/

namespace Sys2Proof.Machine

/-- R(ACK) or R(NAK) whose block number is the listener's own: retransmit the last frame (R348). -/
def listenerRetransmit (s : State) : Rx :=
  if s.ctx.lastFrame = [] then fail .protocolError s
  else retryThen .i (fun t => (resendLast t).map (fun u => (setSt .rx u, .busy))) s

/-- R(ACK) (R341, R348, R350, R352). -/
def listenerRAck (h : Nat) (b : Bool) (s : State) : Rx :=
  if !noInf h s then fail .protocolError s
  else if b = s.ctx.bn then listenerRetransmit s
  else if s.ctx.txChaining then chainAcked s
  else fail .protocolError s

/-- R(NAK) (R341, R348, R349). -/
def listenerRNak (h : Nat) (b : Bool) (s : State) : Rx :=
  if !noInf h s then fail .protocolError s
  else if b = s.ctx.bn then listenerRetransmit s
  else retryThen .r (busyAfter (fun t => setSt .rx (sendAck t))) s

/-- A chained I-block (R344, R347): accepted whatever its block number is. -/
def listenerIChain (h : Nat) (s : State) : Rx :=
  if s.ctx.txChaining then fail .protocolError s
  else ifFits h s (deliverThen h (setSt .rx) .partialData (sendAck (clearCounters (setRxChaining (toggleBn s)))))

/-- A final I-block (R346, R347). -/
def listenerIFinal (h : Nat) (s : State) : Rx :=
  if s.ctx.txChaining then fail .protocolError s
  else ifFits h s (deliverThen h toIdle .done (toggleBn s))

/-- S(WTX): never due to a listener (R353). -/
def listenerSWtx (s : State) : Rx := fail .protocolError s

/-- S(DESELECT) (R354): reply at `fwtNormal()` without awaiting its completion, then the full reset. -/
def listenerSDsl (h : Nat) (s : State) : Rx :=
  if noInf h s then .ok (fullReset (sendFrame .sDsl [] (fwtNormal s) s), .deselected) else fail .protocolError s

end Sys2Proof.Machine
end

