-- ==== Sys2Proof/Machine/Blocks.lean ====
section
/-! DEFINITION. The meaning of each received block header (the rows of format `pcb`, spec/30_encoding.md R114): the received
frame is in the transport's receive buffer, and the block runs the rule of the role and state it arrives in. -/

namespace Sys2Proof.Machine

/-- `I_FINAL` received (R295 to R298, R346, R347). -/
def execIFinal (d n b : Bool) (s : State) : Outcome :=
  runBlock d n (pollerIFinal (hdrLen d n) b) waitingOther (listenerIFinal (hdrLen d n)) s

/-- `I_CHAIN` received (R293, R294, R297, R298, R344, R347). -/
def execIChain (d n b : Bool) (s : State) : Outcome :=
  runBlock d n (pollerIChain (hdrLen d n) b) waitingOther (listenerIChain (hdrLen d n)) s

/-- `R_ACK` received (R290 to R292, R298, R348, R350, R352). -/
def execRAck (d b : Bool) (s : State) : Outcome :=
  runBlock d false (pollerRAck (hdrLen d false) b) waitingOther (listenerRAck (hdrLen d false) b) s

/-- `R_NAK` received (R292, R298, R348, R349). -/
def execRNak (d b : Bool) (s : State) : Outcome :=
  runBlock d false pollerRNak waitingOther (listenerRNak (hdrLen d false) b) s

/-- `S_DSL` received (R289, R299, R354). -/
def execSDsl (d : Bool) (s : State) : Outcome :=
  runBlock d false pollerSDsl (waitingSDsl (hdrLen d false)) (listenerSDsl (hdrLen d false)) s

/-- `S_WTX` received (R288, R298, R353). -/
def execSWtx (d : Bool) (s : State) : Outcome :=
  runBlock d false (pollerSWtx (hdrLen d false)) waitingOther listenerSWtx s

end Sys2Proof.Machine
end

