-- ==== Sys2Proof/Machine/Poll.lean ====
section
/-! DEFINITION. One reception step (spec/44_poller_rx.md R280, spec/45_listener.md R341), the commands that run it, `POLL` and
`DESELECT` (R248, R249, R381), the iterations of a running `DESELECT` (R382 to R384), and what a step of the machine fetches. -/

namespace Sys2Proof.Machine

/-- A header that is no block: `fail(ProtocolError)` (R287, R301, R345, R355). -/
def malformed (s : State) : Outcome := conclude s.ctx.dslIter (fail .protocolError s)

/-- A received frame is dispatched on the tag of its decoded header (R164, R280, R341). -/
def runHeader (k : Header) (s : State) : Outcome :=
  match k with
  | .invalid => malformed s
  | .iBlock false d n b => execIFinal d n b s
  | .iBlock true d n b => execIChain d n b s
  | .rAck d b => execRAck d b s
  | .rNak d b => execRNak d b s
  | .sDsl d => execSDsl d s
  | .sWtx d => execSWtx d s

/-- What a reception step does with the answer of the transport, in the state that answer left (R280, R341). -/
def react (p : Phase) (a : TStatus) (s : State) : Outcome :=
  match a with
  | .busy => conclude s.ctx.dslIter (busyAfter id s)
  | .linkLoss => conclude s.ctx.dslIter (fail .linkLoss s)
  | .error e => conclude s.ctx.dslIter (transmissionError p e s)
  | .done [] => malformed s
  | .done (pcb :: _) => runHeader (decodePcb pcb) s

/-- One reception step: the transport is read exactly once (R280, R341); refused where none is due (R248). -/
def receive (s : State) : Outcome :=
  match phase s with
  | none => .refused .noReception
  | some p => react p (tStatus s).1 (tStatus s).2

/-- `POLL` in `TX`: send the pending I-block, move to `RX`, report `Busy`; the transport is not read (R249). -/
def pollTx (s : State) : State := finish .busy (setSt .rx (sendI s))

/-- `POLL` (R248). -/
def execPoll (s : State) : Outcome :=
  ifAdmitted .poll s (if s.ctx.st = .tx then .next (pollTx s) else receive s)

/-- The start of `DESELECT` (R381); the command does not finish here. -/
def deselectStart (s : State) : State :=
  let t := sendDsl (setSt .waitDeselect (clearCounters (clearChaining s)))
  { t with ctx := { t.ctx with dslIter := some 0 } }

/-- `DESELECT` (R380, R381); refused in a configuration that breaks R197. -/
def execDeselect (s : State) : Outcome :=
  ifAdmitted .deselect s (if windowOk s then .next (deselectStart s) else .refused .deselectWindow)

/-- One iteration of a running `DESELECT` with count `n` (R382); the cap (R383). -/
def deselectIteration (n : Nat) (s : State) : Outcome :=
  if n = s.prm.dslCap then .next (finish .timeout (fullReset (tCancel s)))
  else receive { s with ctx := { s.ctx with dslIter := some (n + 1) } }

/-! ### What a step runs -/

/-- What the machine does next: a command the host has written, an iteration of a running `DESELECT`, or nothing. -/
inductive Fetched where
  | command (c : CmdReg) (s : State)
  | iteration (n : Nat)
  | nothing

/-- The fetch: a written command register starts its command (R64); else a running `DESELECT` takes an iteration (R382); else
the host's next command is written and starts (log entry 5); else the block waits (R400). -/
def fetch (s : State) : Fetched :=
  match s.cmd with
  | some c => .command c { s with cmd := none }
  | none =>
    match s.ctx.dslIter with
    | some n => .iteration n
    | none =>
      match s.host with
      | c :: rest => .command c { s with host := rest }
      | [] => .nothing

/-- The row of the admission table (R262) a command code of R121 belongs to; none for a reserved code (R113). -/
def rowOf (op : Byte) : Option Row :=
  match op.toNat with
  | 0x01 => some .init
  | 0x02 => some .setSession
  | 0x03 => some .startTx
  | 0x04 => some .poll
  | 0x05 => some .deselect
  | 0x06 => some .listenStart
  | 0x07 => some .getMaxPayload
  | 0x08 => some .query
  | 0x09 => some .query
  | 0x0A => some .query
  | 0x0B => some .query
  | _ => none

/-- How a command register that the decoder rejects with `e` is refused in `s`, in the order of R413: admission by state,
then the argument that is out of range (R122). DEDUCED: a reserved code (R113) has no row of R262 to be admitted by, and is refused
as one in every state (log entry 7). A command register never gives `invalidHeader`. -/
def refusalOf (op : Byte) (e : DecodeError) (s : State) : Refusal :=
  match rowOf op, e with
  | some r, .argument a => if admits r s then .argumentRange a else .notAdmitted
  | _, _ => .unknownCode

/-- The frame a header byte stands at the head of, its other bytes zero: as long as R110 says, and one INF byte more for
S(WTX) (R100). -/
def zeroFrame (pcb : Byte) : List Byte :=
  match decodePcb pcb with
  | .invalid => [pcb]
  | .iBlock _ d n _ => pcb :: List.replicate (d.toNat + n.toNat) 0#8
  | .rAck d _ => pcb :: List.replicate d.toNat 0#8
  | .rNak d _ => pcb :: List.replicate d.toNat 0#8
  | .sDsl d => pcb :: List.replicate d.toNat 0#8
  | .sWtx d => pcb :: List.replicate (d.toNat + 1) 0#8

/-- The session a reception needs (R262): the one there is, or, before any `SET_SESSION`, one that can receive every frame.
DESIGN CHOICE (log entry 12): `dFwt` and `nad`, which R63 leaves unspecified there, then stay what the registers hold, after
power-on 0 and `Absent` (log entry 2), and a rule reads them. -/
def openSession (r : Ses) : Ses := if r.valid then r else { r with valid := true, ourFsx := maxLen }

/-- A state whose next step is a `POLL` that receives the frame `f`: the command, a session, a state in which a reception is
due, the pending operation and its answer (log entry 12). DESIGN CHOICE: before any `INIT` or `SET_SESSION` the block then
runs with what R63 leaves unspecified, at the power-on values of log entry 2: before an `INIT` the step reads `cfg.mode`
(`NFC_FORUM`) and the ceilings (0), before a `SET_SESSION` `ses.dFwt` (0) and `ses.nad` (`Absent`). No run of commands comes there. -/
def placeFrame (f : List Byte) (s : State) : State :=
  armReception { s with
    cmd := some { op := 0x04#8 }
    ses := openSession s.ses
    ctx := { s.ctx with st := if s.ctx.st = .activated ∧ s.ctx.role = .listener then .activated else .rx, dslIter := none }
    tr := { s.tr with answers := .done f :: s.tr.answers } }

/-- A code placed where the next step fetches it: a command in the command register, a header at the head of a received
frame. -/
def placeCode (c : Code) (s : State) : State :=
  match c with
  | .cmd r => { s with cmd := some r }
  | .pcb b => placeFrame (zeroFrame b) s

end Sys2Proof.Machine
end

