-- ==== Sys2Proof/Machine/Dispatch.lean ====
section
/-! DEFINITION. One arm per constructor of Instr, each one call of its meaning. -/

namespace Sys2Proof.Machine

def exec (i : Instr) (s : State) : Host.Outcome State Fault Refusal :=
  match i with
  -- the received block headers (format pcb)
  | .iFinal d n b => Sys2Proof.Machine.execIFinal d n b s
  | .iChain d n b => Sys2Proof.Machine.execIChain d n b s
  | .rAck d b => Sys2Proof.Machine.execRAck d b s
  | .rNak d b => Sys2Proof.Machine.execRNak d b s
  | .sDsl d => Sys2Proof.Machine.execSDsl d s
  | .sWtx d => Sys2Proof.Machine.execSWtx d s
  -- the host commands (format cmd)
  | .init mode maxI maxR maxS => Sys2Proof.Machine.execInit mode maxI maxR maxS s
  | .setSession dFwt ourFsx nad => Sys2Proof.Machine.execSetSession dFwt ourFsx nad s
  | .startTx txBuffer txLength chainingFlag rxCap fwt fsx did => Sys2Proof.Machine.execStartTx txBuffer txLength chainingFlag rxCap fwt fsx did s
  | .poll => Sys2Proof.Machine.execPoll s
  | .deselect => Sys2Proof.Machine.execDeselect s
  | .listenStart rxCap fwt fsx did => Sys2Proof.Machine.execListenStart rxCap fwt fsx did s
  | .getMaxPayload => Sys2Proof.Machine.execGetMaxPayload s
  | .encodeHdr kind bn chain didPresent nadPresent => Sys2Proof.Machine.execEncodeHdr kind bn chain didPresent nadPresent s
  | .decodeHdr pcb => Sys2Proof.Machine.execDecodeHdr pcb s
  | .fwi2fwt fwi => Sys2Proof.Machine.execFwi2fwt fwi s
  | .sfgi2sfgt sfgi => Sys2Proof.Machine.execSfgi2sfgt sfgi s

end Sys2Proof.Machine
end

