-- ==== Sys2Proof/Machine/Step.lean ====
section
/-! DEFINITION. One step: fetch, decode, execute. A step is one command, or one iteration of a running `DESELECT`
(spec/00_scope.md R12), or nothing when the host has issued no command. -/

namespace Sys2Proof.Machine

/-- One step of the machine. The checks of a command come in the order of R413: what `exec` runs, and `refusalOf` names, is
admission first, then the arguments' ranges, then the rule; a reserved code is refused before either (log entry 7). -/
def step (s : State) : Host.Outcome State Fault Refusal :=
  match fetch s with
  | .nothing => .next s
  | .iteration n => deselectIteration n s
  | .command c t =>
    match decode (.cmd c) with
    | .ok i => exec i t
    | .error e => .refused (refusalOf c.op e t)

/-- The state `s` with the table word `w` placed where the next step fetches it: a command code in the command register, a
header byte at the head of the frame the next `POLL` receives (log entry 12). -/
def State.withFetchWord (s : State) (nbits w : Nat) : State :=
  placeCode (tableCode (BitVec.ofNat 8 (w % 2 ^ nbits))) s

end Sys2Proof.Machine
end

