-- ==== Sys2Proof/Safety.lean ====
section
/-! DEFINITION. What every reachable state of the link engine meets: the invariants that spec/10_state.md states (R45, R48, R62,
R66, R67) or derives (R58, R82, R247), and the one R197 asks of a configuration, each under its own name and all together as `Invariant`. -/

namespace Sys2Proof.Machine

/-- R67: no retry counter exceeds its ceiling. -/
abbrev CountersBounded (s : State) : Prop :=
  s.ctx.cntI ≤ s.cfg.maxI ∧ s.ctx.cntR ≤ s.cfg.maxR ∧ s.ctx.cntS ≤ s.cfg.maxS

/-- R45: the states each role may be in. -/
abbrev LegalState (s : State) : Prop :=
  (s.ctx.role = .poller → s.ctx.st ≠ .activated) ∧
  (s.ctx.role = .listener → s.ctx.st ≠ .uninit ∧ s.ctx.st ≠ .waitDeselect)

/-- The states that read the transport (R280, R341). -/
abbrev Reading (s : State) : Prop := s.ctx.st = .rx ∨ s.ctx.st = .activated ∨ s.ctx.st = .waitDeselect

/-- R62, R422: wherever the transport may be read, an operation is pending, so that no rule issues the read whose value R422
leaves open. -/
abbrev ReadsPending (s : State) : Prop := Reading s → s.tr.pend ≠ none

/-- R58, R262: a `DESELECT` runs exactly in `WAIT_DESELECT`, and its count is at most the cap. -/
structure DeselectMarked (s : State) : Prop where
  waiting : s.ctx.dslIter ≠ none ↔ s.ctx.st = .waitDeselect
  capped : ∀ n, s.ctx.dslIter = some n → n ≤ s.prm.dslCap

/-- R52, R53, R247, R341: the remote is mid-chaining only in `RX`, and never while the block itself is; a listener that has
sent nothing yet is not chaining. -/
abbrev ChainingApart (s : State) : Prop :=
  (s.ctx.rxChaining = true → s.ctx.st = .rx) ∧ (s.ctx.rxChaining = true → s.ctx.txChaining = false) ∧
  (s.ctx.st = .activated → s.ctx.txChaining = false)

/-- R81: a frame the remote's frame size does not bound: none at all, or a control frame of at most 3 bytes. -/
abbrev ShortControl (f : List Byte) : Prop :=
  f.length ≤ 3 ∧ ∀ pcb, f.head? = some pcb → headerKind (decodePcb pcb) ≠ some .i

/-- R66, R81: the pending I-block fits the remote's frame size, and so do the frames an exchange may retransmit. -/
structure FramesFit (s : State) : Prop where
  pending : s.ctx.st = .tx → s.ctx.txInf.length + txHdrLenI s + crcLen ≤ s.ctx.fsx
  last : s.ctx.st = .rx → s.ctx.txChaining = true → s.ctx.lastI ≠ [] ∧ s.ctx.lastI.length + crcLen ≤ s.ctx.fsx
  kept : Reading s → s.ctx.lastFrame.length + crcLen ≤ s.ctx.fsx ∨ ShortControl s.ctx.lastFrame

/-- R63, R262: an exchange runs only in a session, and a session can receive (R243). -/
abbrev SessionValid (s : State) : Prop :=
  (s.ctx.st = .tx ∨ s.ctx.st = .rx ∨ s.ctx.st = .activated → s.ses.valid = true) ∧
  (s.ses.valid = true → crcLen < s.ses.ourFsx)

/-- R9, R34, R48: the ranges of the registers. -/
abbrev RangesKept (s : State) : Prop :=
  s.ctx.did ≠ some 15#4 ∧ s.ctx.fsx ≤ maxLen ∧ s.ctx.rxCap ≤ maxLen ∧ s.ses.ourFsx ≤ maxLen ∧
  s.cfg.maxI ≤ maxCeiling ∧ s.cfg.maxR ≤ maxCeiling ∧ s.cfg.maxS ≤ maxCeiling

/-- R55, R228: the frame kept for retransmission, if any, has a header the codec recognises. -/
def LastFrameValid (s : State) : Prop := ∀ pcb rest, s.ctx.lastFrame = pcb :: rest → decodePcb pcb ≠ .invalid

/-- R59: `out.rxLen` is the length of `out.rxData`, or 0 where a command has cleared it. -/
abbrev RxLenRight (s : State) : Prop := s.out.rxLen = 0 ∨ s.out.rxLen = s.out.rxData.length

/-- R197: while a `DESELECT` runs in a session, the deactivation window is no shorter than the ordinary frame-waiting time (log
entry 9). -/
abbrev WindowIsLarger (s : State) : Prop :=
  s.ctx.st = .waitDeselect → s.ses.valid = true → fwtNormal s ≤ fwtDsl s

/-- What holds at reset and after every step. -/
structure Invariant (s : State) : Prop where
  counters : CountersBounded s
  legal : LegalState s
  reads : ReadsPending s
  marked : DeselectMarked s
  chaining : ChainingApart s
  fit : FramesFit s
  session : SessionValid s
  ranges : RangesKept s
  lastFrame : LastFrameValid s
  rxLen : RxLenRight s
  window : WindowIsLarger s

/-- `k` steps, stopping at the first fault or refusal. -/
def run : Nat → State → Outcome
  | 0, s => .next s
  | k + 1, s =>
    match step s with
    | .next t => run k t
    | .fault r => .fault r
    | .refused r => .refused r

end Sys2Proof.Machine
end

