-- ==== Sys2Proof/Certificates/Slice0/Obligations.lean ====
section
/-! DEFINITION. The statements about the link engine, one per rule or group of rules of spec/. Next states are written out as
record updates, so that a statement is also a frame: every field it does not name is unchanged. -/

namespace Sys2Proof.Spec

open Sys2Proof.Machine

/-- A poller's exchange awaits a block (`RX`), and no `DESELECT` runs. -/
abbrev pollerAwaits (s : State) : Prop := s.ctx.role = .poller ∧ s.ctx.st = .rx ∧ s.ctx.dslIter = none

/-- A listener awaits a block (`RX` or `ACTIVATED`), and no `DESELECT` runs. -/
abbrev listenerAwaits (s : State) : Prop :=
  s.ctx.role = .listener ∧ (s.ctx.st = .rx ∨ s.ctx.st = .activated) ∧ s.ctx.dslIter = none

/-- The poller awaits the answer to its S(DESELECT): iteration `n` of a running `DESELECT` (R382). -/
abbrev deselectAwaits (n : Nat) (s : State) : Prop :=
  s.ctx.role = .poller ∧ s.ctx.st = .waitDeselect ∧ s.ctx.dslIter = some n

/-- A received block whose header carries a DID byte (`d`) and a NAD byte (`n`) passes `HeaderCheck` (R166). -/
abbrev passes (d n : Bool) (s : State) : Prop := headerCheck d n s = .ok true

/-- The length of the received INF behind that header. -/
abbrev infLen (d n : Bool) (s : State) : Nat := (rxFrame s).length - hdrLen d n

/-- `min(MAX_FWT, ctx.fwt + ses.dFwt)` (R195). -/
abbrev ordinaryFwt (s : State) : Nat := min s.prm.maxFwt (s.ctx.fwt + s.ses.readable.dFwt)

/-- R197's condition on a configuration: in a session, `FWT_DSL` is no shorter than the ordinary frame-waiting time. -/
abbrev windowIsLarger (s : State) : Prop := s.ses.valid = true → ordinaryFwt s ≤ s.prm.fwtDsl

/-- The operation `Submit(f, w)` leaves pending (R421). -/
abbrev pending (f : List Byte) (w : Nat) (s : State) : Option Pending :=
  some { frame := f, bitLen := 8 * f.length, rxCap := s.ses.readable.ourFsx - 2, flags := s.prm.txFlags, fwt := w }

/-- A control frame (R220 to R224): the header byte, then the DID byte while a DID is in use, then the payload. -/
abbrev controlFrame (header : Byte) (inf : List Byte) (s : State) : List Byte :=
  header :: ((s.ctx.did.toList.map (fun d => d.zeroExtend 8)) ++ inf)

/-- `s` after a control frame `f` of kind `k` has been submitted at `w` (R220): pending, and remembered. -/
abbrev sent (k : BlockKind) (f : List Byte) (w : Nat) (s : State) : State :=
  { s with ctx := { s.ctx with lastKind := some k, lastFrame := f }, tr := { s.tr with pend := pending f w s } }

/-- `s` with the result register written. -/
abbrev result (r : Result) (s : State) : State := { s with out := { s.out with result := r } }

/-- `s` with the query output and the result register written. -/
abbrev answered (v : Nat) (s : State) : State := { s with out := { s.out with result := .done, value := v } }

/-- `s` after a terminal error with code `r` (R60, R404, R414). -/
abbrev failed (r : Result) (s : State) : State :=
  { s with ctx := { s.ctx with st := .idle, cntI := 0, cntR := 0, cntS := 0, rxChaining := false, txChaining := false,
                               dslIter := none },
           out := { s.out with result := r } }

/-- The Link Context after `fullReset()` (R61). -/
abbrev clearedCtx : Ctx :=
  { st := .idle, role := .poller, bn := false, did := none, fwt := 0, fsx := 0, cntI := 0, cntR := 0, cntS := 0,
    txChaining := false, rxChaining := false, lastKind := none, lastI := [], lastFrame := [], txInf := [], rxCap := 0,
    dslIter := none }

/-- The received blocks, as against the host's commands. -/
def isBlock : Instr → Bool
  | .iFinal _ _ _ => true
  | .iChain _ _ _ => true
  | .rAck _ _ => true
  | .rNak _ _ => true
  | .sDsl _ => true
  | .sWtx _ => true
  | .init _ _ _ _ => false
  | .setSession _ _ _ => false
  | .startTx _ _ _ _ _ _ _ => false
  | .poll => false
  | .deselect => false
  | .listenStart _ _ _ _ => false
  | .getMaxPayload => false
  | .encodeHdr _ _ _ _ _ => false
  | .decodeHdr _ => false
  | .fwi2fwt _ => false
  | .sfgi2sfgt _ => false

/-- `s` begins the command `c`, in the state `t`: the command register holds it, or (no command there and no `DESELECT` running)
the host issues it next (R64; the order of the two is the model's, log entry 5). -/
abbrev begins (c : CmdReg) (s t : State) : Prop :=
  (s.cmd = some c ∧ t = { s with cmd := none }) ∨
  (s.cmd = none ∧ s.ctx.dslIter = none ∧ ∃ rest, s.host = c :: rest ∧ t = { s with host := rest })

/-- The operation pending in `s` suits the remote (R66, R81): its frame fits the remote's frame size with its CRC, and its answer
is awaited; or it is no I-block and at most 3 bytes long. -/
abbrev pendingFits (s : State) : Prop :=
  ∀ p, s.tr.pend = some p →
    (p.frame.length + 2 ≤ s.ctx.fsx ∧ (s.ctx.st = .rx ∨ s.ctx.st = .activated ∨ s.ctx.st = .waitDeselect)) ∨
    (p.frame.length ≤ 3 ∧ ∀ pcb f, p.frame = pcb :: f → ∀ c d n b, decodePcb pcb ≠ .iBlock c d n b)

/-- The DID and NAD presence bits of a block's header. -/
def hasDid : Instr → Bool
  | .iFinal d _ _ => d
  | .iChain d _ _ => d
  | .rAck d _ => d
  | .rNak d _ => d
  | .sDsl d => d
  | .sWtx d => d
  | _ => false

/-- The NAD presence bit of a block's header. -/
def hasNad : Instr → Bool
  | .iFinal _ n _ => n
  | .iChain _ n _ => n
  | _ => false

/-- The argument ranges of R122 for the command code `op`, false for a code outside R121. -/
def inRange (c : CmdReg) : Prop :=
  match c.op.toNat with
  | 0x01 => c.args.mode ≤ 2 ∧ c.args.maxI ≤ 255 ∧ c.args.maxR ≤ 255 ∧ c.args.maxS ≤ 255
  | 0x02 => c.args.ourFsx ≤ 65535 ∧ (∀ n, c.args.nad = some n → n ≤ 255)
  | 0x03 => c.args.txLength ≤ 65535 ∧ c.args.txLength ≤ c.args.txBuffer.length ∧ c.args.chainingFlag ≤ 1 ∧
      c.args.rxCap ≤ 65535 ∧ c.args.fsx ≤ 65535 ∧ (∀ n, c.args.did = some n → n ≤ 255)
  | 0x04 => True
  | 0x05 => True
  | 0x06 => c.args.rxCap ≤ 65535 ∧ c.args.fsx ≤ 65535 ∧ (∀ n, c.args.did = some n → n ≤ 255)
  | 0x07 => True
  | 0x08 => 1 ≤ c.args.kind ∧ c.args.kind ≤ 5 ∧ c.args.bn ≤ 1 ∧ c.args.chain ≤ 1 ∧ c.args.didPresent ≤ 1 ∧ c.args.nadPresent ≤ 1
  | 0x09 => c.args.pcb ≤ 255
  | 0x0A => c.args.fwi ≤ 15
  | 0x0B => c.args.sfgi ≤ 15
  | _ => False

/-- A `deviceId` argument `START_TX` and `LISTEN_START` accept (first line of R246; the modes by D20). -/
abbrev didAccepted (did : Option Byte) (s : State) : Prop :=
  ∀ v, did = some v → v.toNat ≤ 14 ∧ (s.cfg.mode = .nfcForum ∨ s.cfg.mode = .iso)

/-- The header length `h` of R246. -/
abbrev argHdrLen (did : Option Byte) (s : State) : Nat :=
  1 + (if did = none then 0 else 1) + (if s.ses.nad = none then 0 else 1)

end Sys2Proof.Spec

open Sys2Proof Sys2Proof.Machine Sys2Proof.Spec

/-! ### Reset, encoding, decoding -/

/-- R440, R63: the power-on state. What R63 leaves "unspecified" there (`cfg`, `ses.dFwt`, `ses.ourFsx`, `ses.nad`) is not stated
but unreadable: in `UNINIT` no instruction reads `cfg`, and before any `SET_SESSION` no step reads the session registers, so that
whatever they hold the outcome is the same, a next state keeping what they held until `SET_SESSION` writes them. -/
def Obligations.ResetLeavesPowerOnState : Prop :=
  State.reset.ctx = { clearedCtx with st := .uninit } ∧ State.reset.ses.valid = false ∧ State.reset.tr.pend = none ∧
  State.reset.out = { result := .done, rxData := [], rxLen := 0, value := 0 } ∧
  (∀ i s cfg, s.ctx.st = .uninit → exec i { s with cfg := cfg } = exec i s) ∧
  (∀ s ses, s.ses.valid = false → ses.valid = false →
    step { s with ses := ses } =
      match step s with
      | .next t => .next (if t.ses.valid then t else { t with ses := ses })
      | .fault f => .fault f
      | .refused r => .refused r)

/-- R114, R161 to R163: a header byte decodes to a row exactly when it matches the row's mask and value, and its fields are the
bits of R111; every byte that no row matches is `Invalid` (R112), and no other byte is; no encoder builds an `Invalid` one. -/
def Obligations.HeaderBytesDecodeByTheMap : Prop :=
  (∀ k bn c d n, decodePcb (encHeader k bn c d n) ≠ .invalid) ∧
  ∀ pcb : Byte,
    (∀ d n b, decode (.pcb pcb) = .ok (.iFinal d n b) ↔
      pcb &&& 0xF2#8 = 0x02#8 ∧ pcb.getLsbD 3 = d ∧ pcb.getLsbD 2 = n ∧ pcb.getLsbD 0 = b) ∧
    (∀ d n b, decode (.pcb pcb) = .ok (.iChain d n b) ↔
      pcb &&& 0xF2#8 = 0x12#8 ∧ pcb.getLsbD 3 = d ∧ pcb.getLsbD 2 = n ∧ pcb.getLsbD 0 = b) ∧
    (∀ d b, decode (.pcb pcb) = .ok (.rAck d b) ↔ pcb &&& 0xF6#8 = 0xA2#8 ∧ pcb.getLsbD 3 = d ∧ pcb.getLsbD 0 = b) ∧
    (∀ d b, decode (.pcb pcb) = .ok (.rNak d b) ↔ pcb &&& 0xF6#8 = 0xB2#8 ∧ pcb.getLsbD 3 = d ∧ pcb.getLsbD 0 = b) ∧
    (∀ d, decode (.pcb pcb) = .ok (.sDsl d) ↔ pcb &&& 0xF7#8 = 0xC2#8 ∧ pcb.getLsbD 3 = d) ∧
    (∀ d, decode (.pcb pcb) = .ok (.sWtx d) ↔ pcb &&& 0xF7#8 = 0xF2#8 ∧ pcb.getLsbD 3 = d) ∧
    (decode (.pcb pcb) = .error .invalidHeader ↔
      (pcb &&& 0xF2#8 ≠ 0x02#8 ∧ pcb &&& 0xF2#8 ≠ 0x12#8 ∧ pcb &&& 0xF6#8 ≠ 0xA2#8 ∧ pcb &&& 0xF6#8 ≠ 0xB2#8 ∧
       pcb &&& 0xF7#8 ≠ 0xC2#8 ∧ pcb &&& 0xF7#8 ≠ 0xF2#8))

/-- R102 to R104, R121: words written out from the spec's encodings decode to what they stand for. -/
def Obligations.WrittenOutWordsDecode : Prop :=
  decode (.pcb 0b00001011#8) = .ok (.iFinal true false true) ∧
  decode (.pcb 0b00010110#8) = .ok (.iChain false true false) ∧
  decode (.pcb 0b10101010#8) = .ok (.rAck true false) ∧
  decode (.pcb 0b10110011#8) = .ok (.rNak false true) ∧
  decode (.pcb 0b11001010#8) = .ok (.sDsl true) ∧
  decode (.pcb 0b11110010#8) = .ok (.sWtx false) ∧
  decode (.cmd { op := 0x01#8, args := { mode := 2, maxI := 2, maxR := 3, maxS := 4 } }) = .ok (.init .iso 2 3 4) ∧
  decode (.cmd { op := 0x04#8 }) = .ok .poll ∧
  decode (.cmd { op := 0x0A#8, args := { fwi := 15 } }) = .ok (.fwi2fwt 15#4)

/-- R114, R121, R122: decoding the code of a well-formed instruction gives the instruction back, every operand at every value. -/
def Obligations.DecodeOfEncodeIsTheInstruction : Prop :=
  ∀ i : Instr, i.WellFormed → decode (encode i) = .ok i

/-- R114: each header byte has one meaning: the instruction a byte decodes to has that byte as its encoding. -/
def Obligations.EncodeOfDecodedHeaderIsTheByte : Prop :=
  ∀ (pcb : Byte) (i : Instr), decode (.pcb pcb) = .ok i → encode i = .pcb pcb

/-- R113, R122: the command register decodes exactly when its code is in R121 and the arguments of that code are in range, and
what it decodes to is well-formed. -/
def Obligations.CommandsDecodeExactlyInRange : Prop :=
  ∀ c : CmdReg, ((∃ i, decode (.cmd c) = .ok i) ↔ inRange c) ∧ (∀ i, decode (.cmd c) = .ok i → i.WellFormed)

/-! ### The step -/

/-- R12, R64, R113, R408, R413: a step runs the command the register holds, or else (no `DESELECT` running) the host's next one;
where that comes from is the model's choice (log entry 5). A command with an argument out of range is refused as not admitted where
the same command with its arguments in range is (`c'`, `i`), and else for its argument: admission before the ranges, which is all
that R413 orders. That a reserved code, which R408 lists beside the ranges, is refused as such in every state is the model's choice
(log entry 7), and so is the argument the refusal names where several are out of range. -/
def Obligations.StepRunsTheDecodedCommand : Prop :=
  ∀ c s t, begins c s t →
    (∀ i, decode (.cmd c) = .ok i → step s = exec i t) ∧
    (decode (.cmd c) = .error .unknownCode → step s = .refused .unknownCode) ∧
    (∀ a c' i, decode (.cmd c) = .error (.argument a) → c'.op = c.op → decode (.cmd c') = .ok i →
      (exec i t = .refused .notAdmitted → step s = .refused .notAdmitted) ∧
      (exec i t ≠ .refused .notAdmitted → step s = .refused (.argumentRange a)))

/-- R280, R341: when a reception is due and the transport answers with a frame whose header byte decodes to a block, `POLL` runs
that block; so does an iteration of a running `DESELECT` below its cap (R382). That the frame then stands in `tr.rxBuf` is the
model's choice (log entry 14). -/
def Obligations.ReceptionRunsTheDecodedBlock : Prop :=
  ∀ s pcb f rest i, decode (.pcb pcb) = .ok i → s.tr.pend ≠ none → s.tr.answers = .done (pcb :: f) :: rest →
    ((pollerAwaits s ∨ listenerAwaits s) →
      exec .poll s = exec i { s with tr := { s.tr with pend := none, rxBuf := pcb :: f, answers := rest } }) ∧
    (∀ n, deselectAwaits n s → s.cmd = none → n ≠ s.prm.dslCap →
      step s = exec i { s with ctx := { s.ctx with dslIter := some (n + 1) },
                               tr := { s.tr with pend := none, rxBuf := pcb :: f, answers := rest } })

/-- R241: in `UNINIT` every command but `INIT` is refused. -/
def Obligations.UninitRefusesAllButInit : Prop :=
  ∀ i s, isBlock i = false → s.ctx.st = .uninit → (∀ m a b c, i ≠ .init m a b c) → ∃ r, exec i s = .refused r

/-- R262: a command is refused exactly outside the admission table, and while a `DESELECT` runs. -/
def Obligations.AdmissionTableDecides : Prop :=
  ∀ s : State,
    (∀ m a b c, exec (.init m a b c) s = .refused .notAdmitted ↔ ¬(s.ctx.dslIter = none ∧ s.ctx.st ≠ .waitDeselect)) ∧
    (∀ w f n, exec (.setSession w f n) s = .refused .notAdmitted ↔ ¬(s.ctx.dslIter = none ∧ s.ctx.st = .idle)) ∧
    (∀ b l c r w f d, exec (.startTx b l c r w f d) s = .refused .notAdmitted ↔
      ¬(s.ctx.dslIter = none ∧ s.ctx.st = .idle ∧ s.ses.valid = true)) ∧
    (exec .poll s = .refused .notAdmitted ↔
      ¬(s.ctx.dslIter = none ∧ (s.ctx.st = .tx ∨ s.ctx.st = .rx ∨ s.ctx.st = .activated))) ∧
    (exec .deselect s = .refused .notAdmitted ↔
      ¬(s.ctx.dslIter = none ∧ s.ctx.role = .poller ∧ (s.ctx.st = .idle ∨ s.ctx.st = .tx ∨ s.ctx.st = .rx))) ∧
    (∀ r w f d, exec (.listenStart r w f d) s = .refused .notAdmitted ↔
      ¬(s.ctx.dslIter = none ∧ s.ctx.st = .idle ∧ s.ses.valid = true ∧ s.prm.listenerRules = .iso)) ∧
    (exec .getMaxPayload s = .refused .notAdmitted ↔
      ¬(s.ctx.dslIter = none ∧ (s.ctx.st = .activated ∨
        s.ses.valid = true ∧ (s.ctx.st = .idle ∨ s.ctx.st = .tx ∨ s.ctx.st = .rx)))) ∧
    (∀ i, ((∃ k b c d n, i = .encodeHdr k b c d n) ∨ (∃ p, i = .decodeHdr p) ∨ (∃ v, i = .fwi2fwt v) ∨ (∃ v, i = .sfgi2sfgt v)) →
      (exec i s = .refused .notAdmitted ↔
        ¬(s.ctx.dslIter = none ∧ (s.ctx.st = .idle ∨ s.ctx.st = .tx ∨ s.ctx.st = .rx ∨ s.ctx.st = .activated))))

/-- R248: a block header means something only where a reception is due; elsewhere its execution is refused (the model's choice,
log entry 8). -/
def Obligations.BlocksRunOnlyInAReception : Prop :=
  ∀ i s, isBlock i = true →
    ((exec i s = .refused .noReception) ↔
      ¬((s.ctx.role = .poller ∧ (s.ctx.st = .rx ∨ s.ctx.st = .waitDeselect)) ∨
        (s.ctx.role = .listener ∧ (s.ctx.st = .rx ∨ s.ctx.st = .activated))))

/-! ### The commands -/

/-- R240: `INIT`. -/
def Obligations.InitResetsTheLinkContext : Prop :=
  ∀ m a b c s, s.ctx.dslIter = none → s.ctx.st ≠ .waitDeselect →
    exec (.init m a b c) s =
      .next { s with cfg := { mode := m, maxI := a, maxR := b, maxS := c }, ctx := clearedCtx,
                     out := { s.out with result := .done, rxLen := 0, value := 0 }, tr := { s.tr with pend := none } }

/-- R242, R243, R402: `SET_SESSION` stores the session parameters, or reports `ParameterError` and changes nothing else. -/
def Obligations.SetSessionStoresOrReports : Prop :=
  ∀ w f n s, s.ctx.st = .idle → s.ctx.dslIter = none →
    (2 < f ∧ f ≤ fsxMax s.prm s.cfg.mode ∧ (n = none ∨ s.cfg.mode = .iso) →
      exec (.setSession w f n) s = .next { result .done s with ses := { valid := true, dFwt := w, ourFsx := f, nad := n } }) ∧
    (¬(2 < f ∧ f ≤ fsxMax s.prm s.cfg.mode ∧ (n = none ∨ s.cfg.mode = .iso)) →
      exec (.setSession w f n) s = .next (result .parameterError s))

/-- R246, R247, R91, R402, R82: `START_TX` copies the payload in and moves to `TX`, or reports `ParameterError` and changes nothing
else; a copy-in that leaves the caller's buffer, which the decoder refuses before (R122), is a fault. -/
def Obligations.StartTxArmsOrReports : Prop :=
  ∀ b l c r w f d s, s.ctx.st = .idle → s.ctx.dslIter = none → s.ses.valid = true →
    (didAccepted d s ∧ f ≤ fsxMax s.prm s.cfg.mode ∧ argHdrLen d s + 2 ≤ f ∧ l ≤ f - argHdrLen d s - 2 → b.length < l →
      exec (.startTx b l c r w f d) s = .fault .bufferBounds) ∧
    (didAccepted d s ∧ f ≤ fsxMax s.prm s.cfg.mode ∧ argHdrLen d s + 2 ≤ f ∧ l ≤ f - argHdrLen d s - 2 → l ≤ b.length →
      exec (.startTx b l c r w f d) s =
        .next { s with ctx := { s.ctx with st := .tx, txInf := b.take l, txChaining := c, rxCap := r, fwt := w, fsx := f,
                                           did := d.map (fun v => v.truncate 4), cntI := 0, cntR := 0, cntS := 0 },
                       out := { s.out with result := .done, rxLen := 0 } }) ∧
    (¬(didAccepted d s ∧ f ≤ fsxMax s.prm s.cfg.mode ∧ argHdrLen d s + 2 ≤ f ∧ l ≤ f - argHdrLen d s - 2) →
      exec (.startTx b l c r w f d) s = .next (result .parameterError s))

/-- R249, R226: `POLL` in `TX` submits the pending I-block at the ordinary frame-waiting time and moves to `RX`, in both roles. -/
def Obligations.PollInTxSendsThePendingBlock : Prop :=
  ∀ s, s.ctx.st = .tx → s.ctx.dslIter = none →
    exec .poll s =
      .next (result .busy
        { s with ctx := { s.ctx with st := .rx, lastKind := some .i, lastI := buildFrame .i s.ctx.txInf s,
                                     lastFrame := buildFrame .i s.ctx.txInf s },
                 tr := { s.tr with pend := pending (buildFrame .i s.ctx.txInf s) (ordinaryFwt s) s } })

/-- R260, R402: `LISTEN_START` sets the listener up and arms reception, or reports `ParameterError` and changes nothing else. Its
check (R261) is read as the three checks of R246 that do not read `txLength` (the model's reading, log entry 11). -/
def Obligations.ListenStartArmsOrReports : Prop :=
  ∀ r w f d s, s.ctx.st = .idle → s.ctx.dslIter = none → s.ses.valid = true → s.prm.listenerRules = .iso →
    (didAccepted d s ∧ f ≤ fsxMax s.prm s.cfg.mode ∧ argHdrLen d s + 2 ≤ f →
      exec (.listenStart r w f d) s =
        .next { s with ctx := { s.ctx with st := .activated, role := .listener, bn := true,
                                           did := d.map (fun v => v.truncate 4), fwt := w, fsx := f, rxCap := r,
                                           cntI := 0, cntR := 0, cntS := 0, txChaining := false, rxChaining := false,
                                           lastKind := none, lastI := [], lastFrame := [], txInf := [] },
                       out := { s.out with result := .done, rxLen := 0 },
                       tr := { s.tr with pend := pending [] (min s.prm.maxFwt (w + s.ses.dFwt)) s } }) ∧
    (¬(didAccepted d s ∧ f ≤ fsxMax s.prm s.cfg.mode ∧ argHdrLen d s + 2 ≤ f) →
      exec (.listenStart r w f d) s = .next (result .parameterError s))

/-- R252: `GET_MAX_PAYLOAD` answers `ctx.fsx − h − CRC_LEN`, saturating at 0, and writes nothing else. -/
def Obligations.GetMaxPayloadAnswers : Prop :=
  ∀ s, s.ctx.dslIter = none →
    (s.ctx.st = .activated ∨ s.ses.valid = true ∧ (s.ctx.st = .idle ∨ s.ctx.st = .tx ∨ s.ctx.st = .rx)) →
    exec .getMaxPayload s =
      .next (answered
        (s.ctx.fsx - (1 + (if s.ctx.did = none then 0 else 1) + (if s.ses.readable.nad = none then 0 else 1)) - 2) s)

/-- R252's corner case: the answer is the largest `txLength` that `START_TX` admits for the same `fsx` and `did` (R246). -/
def Obligations.GetMaxPayloadIsTheLargestAdmitted : Prop :=
  ∀ (s t : State) (b : List Byte) (l : Nat) (c : Bool) (d : Option Byte),
    s.ctx.st = .idle → s.ctx.dslIter = none → s.ses.valid = true → l ≤ b.length →
    d.map (fun v => v.truncate 4) = s.ctx.did → didAccepted d s → s.ctx.fsx ≤ fsxMax s.prm s.cfg.mode →
    argHdrLen d s + 2 ≤ s.ctx.fsx → exec .getMaxPayload s = .next t →
    ((∃ u, exec (.startTx b l c s.ctx.rxCap s.ctx.fwt s.ctx.fsx d) s = .next u ∧ u.ctx.st = .tx) ↔ l ≤ t.out.value)

/-- R167, R150 to R154: `ENCODE_HDR` answers the header byte of its kind; the operands a kind does not use are ignored. -/
def Obligations.EncodeHdrAnswersTheByte : Prop :=
  ∀ bn c d n s, s.ctx.dslIter = none → (s.ctx.st = .idle ∨ s.ctx.st = .tx ∨ s.ctx.st = .rx ∨ s.ctx.st = .activated) →
    exec (.encodeHdr .i bn c d n) s =
      .next (answered (0x02 ||| (c.toNat <<< 4) ||| (d.toNat <<< 3) ||| (n.toNat <<< 2) ||| bn.toNat) s) ∧
    exec (.encodeHdr .rAck bn c d n) s = .next (answered (0xA2 ||| (d.toNat <<< 3) ||| bn.toNat) s) ∧
    exec (.encodeHdr .rNak bn c d n) s = .next (answered (0xB2 ||| (d.toNat <<< 3) ||| bn.toNat) s) ∧
    exec (.encodeHdr .sDsl bn c d n) s = .next (answered (0xC2 ||| (d.toNat <<< 3)) s) ∧
    exec (.encodeHdr .sWtx bn c d n) s = .next (answered (0xF2 ||| (d.toNat <<< 3)) s)

/-- R168, R123: `DECODE_HDR` answers the packed fields of the header, and 0 with result `Done` for an `Invalid` one. -/
def Obligations.DecodeHdrAnswersThePackedHeader : Prop :=
  ∀ pcb s, s.ctx.dslIter = none → (s.ctx.st = .idle ∨ s.ctx.st = .tx ∨ s.ctx.st = .rx ∨ s.ctx.st = .activated) →
    ∃ v, exec (.decodeHdr pcb) s = .next (answered v s) ∧ v < 128 ∧
      (decode (.pcb pcb) = .error .invalidHeader → v = 0) ∧
      (∀ d n b, decode (.pcb pcb) = .ok (.iFinal d n b) →
        v % 8 = 1 ∧ v.testBit 3 = false ∧ v.testBit 4 = d ∧ v.testBit 5 = n ∧ v.testBit 6 = b) ∧
      (∀ d n b, decode (.pcb pcb) = .ok (.iChain d n b) →
        v % 8 = 1 ∧ v.testBit 3 = true ∧ v.testBit 4 = d ∧ v.testBit 5 = n ∧ v.testBit 6 = b) ∧
      (∀ d b, decode (.pcb pcb) = .ok (.rAck d b) →
        v % 8 = 2 ∧ v.testBit 3 = false ∧ v.testBit 4 = d ∧ v.testBit 5 = false ∧ v.testBit 6 = b) ∧
      (∀ d b, decode (.pcb pcb) = .ok (.rNak d b) →
        v % 8 = 3 ∧ v.testBit 3 = false ∧ v.testBit 4 = d ∧ v.testBit 5 = false ∧ v.testBit 6 = b) ∧
      (∀ d, decode (.pcb pcb) = .ok (.sDsl d) →
        v % 8 = 4 ∧ v.testBit 3 = false ∧ v.testBit 4 = d ∧ v.testBit 5 = false ∧ v.testBit 6 = false) ∧
      (∀ d, decode (.pcb pcb) = .ok (.sWtx d) →
        v % 8 = 5 ∧ v.testBit 3 = false ∧ v.testBit 4 = d ∧ v.testBit 5 = false ∧ v.testBit 6 = false)

/-- R180, R181: `FWI2FWT`. -/
def Obligations.Fwi2FwtAnswers : Prop :=
  ∀ (fwi : BitVec 4) s, s.ctx.dslIter = none →
    (s.ctx.st = .idle ∨ s.ctx.st = .tx ∨ s.ctx.st = .rx ∨ s.ctx.st = .activated) →
    (fwi.toNat ≤ 14 → exec (.fwi2fwt fwi) s = .next (answered (min s.prm.maxFwt (2 ^ (fwi.toNat + 12))) s)) ∧
    (fwi.toNat = 15 → exec (.fwi2fwt fwi) s = .next (answered (min s.prm.maxFwt (2 ^ (s.prm.fwiDefault.val + 12))) s))

/-- R185, R186: `SFGI2SFGT`; no cap is applied. -/
def Obligations.Sfgi2SfgtAnswers : Prop :=
  ∀ (sfgi : BitVec 4) s, s.ctx.dslIter = none →
    (s.ctx.st = .idle ∨ s.ctx.st = .tx ∨ s.ctx.st = .rx ∨ s.ctx.st = .activated) →
    (sfgi = 0#4 → exec (.sfgi2sfgt sfgi) s = .next (answered s.prm.sfgtMin s)) ∧
    (sfgi ≠ 0#4 → exec (.sfgi2sfgt sfgi) s = .next (answered (4480 * 2 ^ sfgi.toNat) s))

/-- R381, R224, R197: `DESELECT` clears counters and chaining flags and submits S(DESELECT) at `FWT_DSL`; it writes no result. In a
session whose ordinary frame-waiting time exceeds `FWT_DSL` the configuration is refused (93_implementation_defined.md I18; that
it is refused here and not at an earlier command is the model's choice, log entry 9). -/
def Obligations.DeselectStartsTheProcedure : Prop :=
  ∀ s, s.ctx.role = .poller → (s.ctx.st = .idle ∨ s.ctx.st = .tx ∨ s.ctx.st = .rx) → s.ctx.dslIter = none →
    (windowIsLarger s →
      exec .deselect s =
        .next { s with ctx := { s.ctx with st := .waitDeselect, txChaining := false, rxChaining := false, cntI := 0, cntR := 0,
                                           cntS := 0, lastKind := some .sDsl, dslIter := some 0,
                                           lastFrame := controlFrame (encSDsl s.ctx.did.isSome) [] s },
                       tr := { s.tr with pend := pending (controlFrame (encSDsl s.ctx.did.isSome) [] s) s.prm.fwtDsl s } }) ∧
    (¬windowIsLarger s → exec .deselect s = .refused .deselectWindow)

/-- R248, R401: wherever a `POLL` is dispatched it completes, whatever the transport answers, with one of the results the source
lists for `getTransceiveStatus()`, or `Deselected`. No step at all ends in a fault: a buffer access out of bounds "does not occur in
any rule" (R82). -/
def Obligations.PollAlwaysCompletes : Prop :=
  (∀ s f, step s ≠ .fault f) ∧
  ∀ s, s.ctx.dslIter = none → (s.ctx.st = .tx ∨ pollerAwaits s ∨ listenerAwaits s) →
    ∃ t, exec .poll s = .next t ∧ t.out.result ≠ .parameterError ∧
      (t.out.result = .deselected → s.ctx.role = .listener) ∧
      (t.out.result = .busy ∨ t.out.result = .partialData ↔ t.ctx.st ≠ .idle)

/-! ### Shared operations -/

/-- R155, R65: the frame of each kind: the header byte, the DID byte while a DID is in use, the NAD byte in I-blocks while a NAD
is in use, then the payload. -/
def Obligations.BuildFramePrependsTheHeader : Prop :=
  ∀ inf s,
    buildFrame .i inf s =
      encI s.ctx.bn s.ctx.txChaining s.ctx.did.isSome s.ses.readable.nad.isSome ::
        ((s.ctx.did.toList.map (fun d => d.zeroExtend 8)) ++ s.ses.readable.nad.toList ++ inf) ∧
    buildFrame .rAck inf s = controlFrame (encRAck s.ctx.bn s.ctx.did.isSome) inf s ∧
    buildFrame .rNak inf s = controlFrame (encRNak s.ctx.bn s.ctx.did.isSome) inf s ∧
    buildFrame .sDsl inf s = controlFrame (encSDsl s.ctx.did.isSome) inf s ∧
    buildFrame .sWtx inf s = controlFrame (encSWtx s.ctx.did.isSome) inf s

/-- R166: the checks on a received frame with a decoded header: not below the header length, not above the local frame size, the
DID present and equal (bits 7:4 of its byte ignored) when one is in use, and absent when none is. They always decide: the DID
byte is read only inside the frame (R82). -/
def Obligations.HeaderCheckDecides : Prop :=
  ∀ d n s, (∃ b, headerCheck d n s = .ok b) ∧ (headerCheck d n s = .ok true ↔
    (1 + (if d then 1 else 0) + (if n then 1 else 0) ≤ (rxFrame s).length ∧ (rxFrame s).length + 2 ≤ s.ses.readable.ourFsx ∧
     (s.ctx.did = none → d = false) ∧
     (∀ v, s.ctx.did = some v → d = true ∧ ∃ pcb b rest, rxFrame s = pcb :: b :: rest ∧ b.extractLsb' 0 4 = v)))

/-- R60, R61: the two resets write the fields they list and keep every other. -/
def Obligations.ResetsWriteWhatTheyList : Prop :=
  ∀ s, toIdle s = { s with ctx := { s.ctx with st := .idle, cntI := 0, cntR := 0, cntS := 0, rxChaining := false,
                                               txChaining := false, dslIter := none } } ∧
    fullReset s = { s with ctx := clearedCtx }

/-- R190, R191, R193: a retry that would exceed its ceiling ends the exchange with its counter's code; any other counts one on its
own counter alone, and its action is then run. -/
def Obligations.RetryStepCountsOrExhausts : Prop :=
  ∀ (s : State) (act : State → Rx),
    retryStep .i s = (if s.cfg.maxI < s.ctx.cntI + 1 then none else some { s with ctx := { s.ctx with cntI := s.ctx.cntI + 1 } }) ∧
    retryStep .r s = (if s.cfg.maxR < s.ctx.cntR + 1 then none else some { s with ctx := { s.ctx with cntR := s.ctx.cntR + 1 } }) ∧
    retryStep .s s = (if s.cfg.maxS < s.ctx.cntS + 1 then none else some { s with ctx := { s.ctx with cntS := s.ctx.cntS + 1 } }) ∧
    (∀ k, retryStep k s = none → retryThen k act s = .ok (toIdle s, if k = .r then .timeout else .protocolError)) ∧
    (∀ k t, retryStep k s = some t → retryThen k act s = act t)

/-- R62, R422, R423: a pending operation answers in the order the transport decides; `Busy` leaves it pending, anything else ends
it. The list of answers is the model's form of the transport (log entry 14); after a `TCancel` nothing is pending. -/
def Obligations.TransportAnswersOnce : Prop :=
  (∀ s rest, s.tr.pend ≠ none → s.tr.answers = .busy :: rest →
    tStatus s = (.busy, { s with tr := { s.tr with answers := rest } })) ∧
  (∀ s rest f, s.tr.pend ≠ none → s.tr.answers = .done f :: rest →
    tStatus s = (.done f, { s with tr := { s.tr with answers := rest, pend := none, rxBuf := f } })) ∧
  (∀ s rest e, s.tr.pend ≠ none → s.tr.answers = .error e :: rest →
    tStatus s = (.error e, { s with tr := { s.tr with answers := rest, pend := none } })) ∧
  (∀ s rest, s.tr.pend ≠ none → s.tr.answers = .linkLoss :: rest →
    tStatus s = (.linkLoss, { s with tr := { s.tr with answers := rest, pend := none } })) ∧
  (∀ s, tCancel s = { s with tr := { s.tr with pend := none } })

/-! ### The poller's reception -/

/-- R281, R342, R282, R407, R382, R384: while the transport is busy a `POLL` writes only the result, and an iteration of a running
`DESELECT` only counts itself; link loss ends the exchange at once, with no retry, in both roles, and ends a running `DESELECT`
with the context reset. -/
def Obligations.BusyWaitsAndLinkLossEnds : Prop :=
  ∀ s rest, s.tr.pend ≠ none →
    (pollerAwaits s ∨ listenerAwaits s →
      (s.tr.answers = .busy :: rest →
        exec .poll s = .next (result .busy { s with tr := { s.tr with answers := rest } })) ∧
      (s.tr.answers = .linkLoss :: rest →
        exec .poll s = .next (failed .linkLoss { s with tr := { s.tr with answers := rest, pend := none } }))) ∧
    (∀ n, deselectAwaits n s → s.cmd = none → n ≠ s.prm.dslCap →
      (s.tr.answers = .busy :: rest →
        step s = .next { s with ctx := { s.ctx with dslIter := some (n + 1) }, tr := { s.tr with answers := rest } }) ∧
      (s.tr.answers = .linkLoss :: rest →
        step s = .next { result .linkLoss s with ctx := clearedCtx, tr := { s.tr with answers := rest, pend := none } }))

/-- R283, R284, R286: the poller's answer to a transmission error in `RX`: a bail-out, or a retry bounded by the R ceiling that
sends ACK while the remote is mid-chaining and NAK otherwise, the block number unchanged. -/
def Obligations.PollerRecoversFromErrors : Prop :=
  ∀ s e rest, pollerAwaits s → s.tr.pend ≠ none → s.tr.answers = .error e :: rest →
    let u : State := { s with tr := { s.tr with answers := rest, pend := none } }
    let c : State := { u with ctx := { u.ctx with cntR := u.ctx.cntR + 1 } }
    ((s.cfg.mode, e) ∈ s.prm.bailOn →
      exec .poll s = .next (failed (if e = .timeout then .timeout else .protocolError) u)) ∧
    ((s.cfg.mode, e) ∉ s.prm.bailOn → s.cfg.maxR < s.ctx.cntR + 1 → exec .poll s = .next (failed .timeout u)) ∧
    ((s.cfg.mode, e) ∉ s.prm.bailOn → s.ctx.cntR + 1 ≤ s.cfg.maxR → s.ctx.rxChaining = true →
      exec .poll s = .next (result .busy (sent .rAck (controlFrame (encRAck s.ctx.bn s.ctx.did.isSome) [] s) (ordinaryFwt s) c))) ∧
    ((s.cfg.mode, e) ∉ s.prm.bailOn → s.ctx.cntR + 1 ≤ s.cfg.maxR → s.ctx.rxChaining = false →
      exec .poll s = .next (result .busy (sent .rNak (controlFrame (encRNak s.ctx.bn s.ctx.did.isSome) [] s) (ordinaryFwt s) c)))

/-- R287, R345, R384: a frame that fails the header check ends the exchange with `ProtocolError`, whatever its block and the role;
while a deselect is outstanding it ends the `DESELECT` with `ProtocolError`, the context reset. -/
def Obligations.HeaderCheckFailureEndsTheExchange : Prop :=
  ∀ i s, isBlock i = true → headerCheck (hasDid i) (hasNad i) s = .ok false →
    (pollerAwaits s ∨ listenerAwaits s → exec i s = .next (failed .protocolError s)) ∧
    (∀ n, deselectAwaits n s → exec i s = .next { result .protocolError s with ctx := clearedCtx })

/-- R287, R301, R345, R355, R384: an empty frame and an `Invalid` header end the exchange with `ProtocolError`; met by an iteration
of `DESELECT` below its cap they end the `DESELECT` with `ProtocolError`, the context reset. -/
def Obligations.MalformedFrameEndsTheExchange : Prop :=
  ∀ s f rest, s.tr.pend ≠ none → s.tr.answers = .done f :: rest →
    (f = [] ∨ ∃ pcb g, f = pcb :: g ∧ decode (.pcb pcb) = .error .invalidHeader) →
    let u : State := { s with tr := { s.tr with answers := rest, pend := none, rxBuf := f } }
    (pollerAwaits s ∨ listenerAwaits s → exec .poll s = .next (failed .protocolError u)) ∧
    (∀ n, deselectAwaits n s → s.cmd = none → n ≠ s.prm.dslCap →
      step s = .next { result .protocolError u with ctx := clearedCtx })

/-- R288, R223, R196: S(WTX) in the poller's `RX`: a `ProtocolError` without exactly one INF byte or with a multiplier `m` outside
`1..59`; else answered, within the S ceiling, by S(WTX) with `m` at `min(MAX_FWT, ctx.fwt·m + ses.dFwt)`, the block number and the
other counters unchanged. -/
def Obligations.PollerAnswersWtx : Prop :=
  ∀ d s, pollerAwaits s → passes d false s →
    (infLen d false s ≠ 1 → exec (.sWtx d) s = .next (failed .protocolError s)) ∧
    (∀ b : Byte, (rxFrame s).drop (hdrLen d false) = [b] →
      let m := b.toNat % 64
      (m = 0 ∨ 59 < m → exec (.sWtx d) s = .next (failed .protocolError s)) ∧
      (1 ≤ m → m ≤ 59 → s.cfg.maxS < s.ctx.cntS + 1 → exec (.sWtx d) s = .next (failed .protocolError s)) ∧
      (1 ≤ m → m ≤ 59 → s.ctx.cntS + 1 ≤ s.cfg.maxS →
        exec (.sWtx d) s =
          .next (result .busy (sent .sWtx (controlFrame (encSWtx s.ctx.did.isSome) [BitVec.ofNat 8 m] s)
            (min s.prm.maxFwt (s.ctx.fwt * m + s.ses.readable.dFwt)) { s with ctx := { s.ctx with cntS := s.ctx.cntS + 1 } }))))

/-- R290, R291: R(ACK) during the poller's transmit chaining: with the matching block number it ends the block with `Done`,
`IDLE`, the number toggled and the chaining flag left set; with the other number the last I-block is retransmitted unchanged
within the I ceiling; with an INF it is a `ProtocolError`. -/
def Obligations.PollerAckDuringChaining : Prop :=
  ∀ d b s, pollerAwaits s → passes d false s → s.ctx.txChaining = true →
    (infLen d false s ≠ 0 → exec (.rAck d b) s = .next (failed .protocolError s)) ∧
    (infLen d false s = 0 → b = s.ctx.bn →
      exec (.rAck d b) s =
        .next (result .done { s with ctx := { s.ctx with st := .idle, bn := !s.ctx.bn, cntI := 0, cntR := 0, cntS := 0 } })) ∧
    (infLen d false s = 0 → b ≠ s.ctx.bn → s.cfg.maxI < s.ctx.cntI + 1 →
      exec (.rAck d b) s = .next (failed .protocolError s)) ∧
    (infLen d false s = 0 → b ≠ s.ctx.bn → s.ctx.cntI + 1 ≤ s.cfg.maxI →
      exec (.rAck d b) s =
        .next (result .busy { s with ctx := { s.ctx with cntI := s.ctx.cntI + 1, lastKind := some .i },
                                     tr := { s.tr with pend := pending s.ctx.lastI (ordinaryFwt s) s } }))

/-- R292: R(ACK) while the poller is not transmit-chaining, whatever its block number, and any R(NAK). -/
def Obligations.PollerRejectsOtherRBlocks : Prop :=
  ∀ d b s, pollerAwaits s → passes d false s →
    (s.ctx.txChaining = false → exec (.rAck d b) s = .next (failed .protocolError s)) ∧
    exec (.rNak d b) s = .next (failed .protocolError s)

/-- R293, R300, R90: a chained I-block with the expected block number is delivered and acknowledged with the toggled number, or
is too large for the caller's buffer. -/
def Obligations.PollerAcceptsChainedBlock : Prop :=
  ∀ d n b s, pollerAwaits s → passes d n s → s.ctx.txChaining = false → b = s.ctx.bn →
    (s.ctx.rxCap < infLen d n s → exec (.iChain d n b) s = .next (failed .bufferTooSmall s)) ∧
    (infLen d n s ≤ s.ctx.rxCap →
      exec (.iChain d n b) s =
        .next { sent .rAck (controlFrame (encRAck (!s.ctx.bn) s.ctx.did.isSome) [] s) (ordinaryFwt s)
                  { s with ctx := { s.ctx with bn := !s.ctx.bn, rxChaining := true, cntI := 0, cntR := 0, cntS := 0 } } with
                out := { s.out with result := .partialData, rxData := (rxFrame s).drop (hdrLen d n), rxLen := infLen d n s } })

/-- R294: a chained I-block with the other block number: ACK again with the unchanged number, the data discarded, no counter
used. -/
def Obligations.PollerReacksMismatchedChainedBlock : Prop :=
  ∀ d n b s, pollerAwaits s → passes d n s → s.ctx.txChaining = false → b ≠ s.ctx.bn →
    exec (.iChain d n b) s =
      .next (result .busy (sent .rAck (controlFrame (encRAck s.ctx.bn s.ctx.did.isSome) [] s) (ordinaryFwt s) s))

/-- R295, R300, R90: a final I-block with the expected block number ends the exchange with `Done` and its data, or is too large
for the caller's buffer. -/
def Obligations.PollerAcceptsFinalBlock : Prop :=
  ∀ d n b s, pollerAwaits s → passes d n s → s.ctx.txChaining = false → b = s.ctx.bn →
    (s.ctx.rxCap < infLen d n s → exec (.iFinal d n b) s = .next (failed .bufferTooSmall s)) ∧
    (infLen d n s ≤ s.ctx.rxCap →
      exec (.iFinal d n b) s =
        .next { failed .done s with
                ctx := { (failed .done s).ctx with bn := !s.ctx.bn },
                out := { s.out with result := .done, rxData := (rxFrame s).drop (hdrLen d n), rxLen := infLen d n s } })

/-- R296: a final I-block with the other block number: `ProtocolError` in the strict modes, NAK within the R ceiling in `ISO`. -/
def Obligations.PollerMismatchedFinalBlock : Prop :=
  ∀ d n b s, pollerAwaits s → passes d n s → s.ctx.txChaining = false → b ≠ s.ctx.bn →
    (s.cfg.mode = .nfcForum ∨ s.cfg.mode = .emv → exec (.iFinal d n b) s = .next (failed .protocolError s)) ∧
    (s.cfg.mode = .iso → s.cfg.maxR < s.ctx.cntR + 1 → exec (.iFinal d n b) s = .next (failed .timeout s)) ∧
    (s.cfg.mode = .iso → s.ctx.cntR + 1 ≤ s.cfg.maxR →
      exec (.iFinal d n b) s =
        .next (result .busy (sent .rNak (controlFrame (encRNak s.ctx.bn s.ctx.did.isSome) [] s) (ordinaryFwt s)
          { s with ctx := { s.ctx with cntR := s.ctx.cntR + 1 } })))

/-- R297, R347: an I-block received while the block itself is transmit-chaining is a `ProtocolError`, in both roles. -/
def Obligations.IBlockWhileChainingIsRejected : Prop :=
  ∀ d n b s, pollerAwaits s ∨ listenerAwaits s → passes d n s → s.ctx.txChaining = true →
    exec (.iFinal d n b) s = .next (failed .protocolError s) ∧ exec (.iChain d n b) s = .next (failed .protocolError s)

/-- R289, R299, R384: S(DESELECT) is a `ProtocolError` in the poller's `RX`; in `WAIT_DESELECT` it ends the deselect with `Done`
and the context reset, or with `ProtocolError` and the context reset when it carries an INF. -/
def Obligations.PollerReceivesDeselect : Prop :=
  ∀ d s, passes d false s →
    (pollerAwaits s → exec (.sDsl d) s = .next (failed .protocolError s)) ∧
    (∀ n, deselectAwaits n s → infLen d false s = 0 → exec (.sDsl d) s = .next { result .done s with ctx := clearedCtx }) ∧
    (∀ n, deselectAwaits n s → infLen d false s ≠ 0 →
      exec (.sDsl d) s = .next { result .protocolError s with ctx := clearedCtx })

/-- R298, R384: any other block while a deselect is outstanding ends it with `ProtocolError`, the context reset. -/
def Obligations.OtherBlockEndsTheDeselect : Prop :=
  ∀ i n s, isBlock i = true → (∀ d, i ≠ .sDsl d) → deselectAwaits n s → passes (hasDid i) (hasNad i) s →
    exec i s = .next { result .protocolError s with ctx := clearedCtx }

/-! ### The listener's reception -/

/-- R343, R283: a listener's transmission error: a bail-out, or reception armed again, no counter used. -/
def Obligations.ListenerRearmsOnErrors : Prop :=
  ∀ s e rest, listenerAwaits s → s.tr.pend ≠ none → s.tr.answers = .error e :: rest →
    ((s.cfg.mode, e) ∈ s.prm.bailOn →
      exec .poll s = .next (failed (if e = .timeout then .timeout else .protocolError)
        { s with tr := { s.tr with answers := rest, pend := none } })) ∧
    ((s.cfg.mode, e) ∉ s.prm.bailOn →
      exec .poll s =
        .next (result .busy { s with tr := { s.tr with answers := rest, pend := pending [] (ordinaryFwt s) s } }))

/-- R344, R346, R300: a listener that is not transmit-chaining accepts every I-block whatever its block number, toggles its own
number, and acknowledges a chained one; an I-block too large for the caller's buffer is `BufferTooSmall`. -/
def Obligations.ListenerAcceptsIBlocks : Prop :=
  ∀ d n b s, listenerAwaits s → passes d n s → s.ctx.txChaining = false →
    (s.ctx.rxCap < infLen d n s →
      exec (.iChain d n b) s = .next (failed .bufferTooSmall s) ∧ exec (.iFinal d n b) s = .next (failed .bufferTooSmall s)) ∧
    (infLen d n s ≤ s.ctx.rxCap →
      exec (.iChain d n b) s =
        .next { sent .rAck (controlFrame (encRAck (!s.ctx.bn) s.ctx.did.isSome) [] s) (ordinaryFwt s)
                  { s with ctx := { s.ctx with st := .rx, bn := !s.ctx.bn, rxChaining := true, cntI := 0, cntR := 0, cntS := 0 } }
                with out := { s.out with result := .partialData, rxData := (rxFrame s).drop (hdrLen d n),
                                         rxLen := infLen d n s } } ∧
      exec (.iFinal d n b) s =
        .next { failed .done s with
                ctx := { (failed .done s).ctx with bn := !s.ctx.bn },
                out := { s.out with result := .done, rxData := (rxFrame s).drop (hdrLen d n), rxLen := infLen d n s } })

/-- R348, R228: R(ACK) or R(NAK) with the listener's own block number: its last frame again, byte for byte, within the I ceiling;
`ProtocolError` when it has sent nothing or the ceiling is reached. A kept frame has a valid header in every reachable state
(`LastFrameValid`, part of `StepKeepsTheInvariant`). -/
def Obligations.ListenerRetransmits : Prop :=
  ∀ d b s i, (i = .rAck d b ∨ i = .rNak d b) → listenerAwaits s → passes d false s → infLen d false s = 0 → b = s.ctx.bn →
    (s.ctx.lastFrame = [] ∨ s.cfg.maxI < s.ctx.cntI + 1 → exec i s = .next (failed .protocolError s)) ∧
    (∀ pcb f, s.ctx.lastFrame = pcb :: f → decodePcb pcb ≠ .invalid → s.ctx.cntI + 1 ≤ s.cfg.maxI →
      exec i s =
        .next (result .busy { s with ctx := { s.ctx with st := .rx, cntI := s.ctx.cntI + 1,
                                                         lastKind := headerKind (decodePcb pcb) },
                                     tr := { s.tr with pend := pending (pcb :: f) (ordinaryFwt s) s } }))

/-- R349: R(NAK) with the other block number is answered, within the R ceiling, by R(ACK) with the unchanged number. -/
def Obligations.ListenerAnswersNak : Prop :=
  ∀ d b s, listenerAwaits s → passes d false s → infLen d false s = 0 → b ≠ s.ctx.bn →
    (s.cfg.maxR < s.ctx.cntR + 1 → exec (.rNak d b) s = .next (failed .timeout s)) ∧
    (s.ctx.cntR + 1 ≤ s.cfg.maxR →
      exec (.rNak d b) s =
        .next (result .busy (sent .rAck (controlFrame (encRAck s.ctx.bn s.ctx.did.isSome) [] s) (ordinaryFwt s)
          { s with ctx := { s.ctx with st := .rx, cntR := s.ctx.cntR + 1 } })))

/-- R350, R352, R341: R(ACK) with the other block number acknowledges the listener's chained block, and is a `ProtocolError`
outside chaining; an R-block with an INF is a `ProtocolError`. -/
def Obligations.ListenerChainIsAcknowledged : Prop :=
  ∀ d b s, listenerAwaits s → passes d false s →
    (infLen d false s = 0 → b ≠ s.ctx.bn → s.ctx.txChaining = true →
      exec (.rAck d b) s =
        .next (result .done { s with ctx := { s.ctx with st := .idle, bn := !s.ctx.bn, cntI := 0, cntR := 0, cntS := 0 } })) ∧
    (infLen d false s = 0 → b ≠ s.ctx.bn → s.ctx.txChaining = false →
      exec (.rAck d b) s = .next (failed .protocolError s)) ∧
    (infLen d false s ≠ 0 →
      exec (.rAck d b) s = .next (failed .protocolError s) ∧ exec (.rNak d b) s = .next (failed .protocolError s))

/-- R353: S(WTX) received by a listener is a `ProtocolError`. -/
def Obligations.ListenerRejectsWtx : Prop :=
  ∀ d s, listenerAwaits s → passes d false s → exec (.sWtx d) s = .next (failed .protocolError s)

/-- R354: S(DESELECT) is answered at the ordinary frame-waiting time, and the session ends with `Deselected`; with an INF it is a
`ProtocolError`. -/
def Obligations.ListenerAnswersDeselect : Prop :=
  ∀ d s, listenerAwaits s → passes d false s →
    (infLen d false s = 0 →
      exec (.sDsl d) s =
        .next { result .deselected s with
                ctx := clearedCtx
                tr := { s.tr with pend := pending (controlFrame (encSDsl s.ctx.did.isSome) [] s) (ordinaryFwt s) s } }) ∧
    (infLen d false s ≠ 0 → exec (.sDsl d) s = .next (failed .protocolError s))

/-! ### The deselect procedure -/

/-- R382, R383, R384, R385: a step of a running `DESELECT` either counts one iteration and leaves it running with no result
written (log entry 16), or ends it with the context reset, `cfg` and `ses` kept, and one of four results; at the cap it ends with `Timeout`, the
transport cancelled and not read. -/
def Obligations.DeselectIterationCountsOrEnds : Prop :=
  ∀ n s, deselectAwaits n s → s.cmd = none →
    (n = s.prm.dslCap → step s = .next { result .timeout s with ctx := clearedCtx, tr := { s.tr with pend := none } }) ∧
    (n ≠ s.prm.dslCap →
      ∃ t, step s = .next t ∧ t.cfg = s.cfg ∧ t.ses = s.ses ∧
        ((deselectAwaits (n + 1) t ∧ t.out = s.out) ∨
         (t.ctx = clearedCtx ∧ t.out = { s.out with result := t.out.result } ∧
          (t.out.result = .done ∨ t.out.result = .timeout ∨ t.out.result = .protocolError ∨ t.out.result = .linkLoss))))

/-- R285, R283, R384: a transmission error met by an iteration of `DESELECT` below its cap: a bail-out ends the procedure; else
S(DESELECT) is submitted again at `FWT_DSL`, within the R ceiling, and the procedure goes on; at the ceiling it ends with
`Timeout`. Wherever it ends, the context is reset. -/
def Obligations.DeselectResendsOnErrors : Prop :=
  ∀ n s e rest, deselectAwaits n s → s.ctx.rxChaining = false → s.cmd = none → n ≠ s.prm.dslCap → s.tr.pend ≠ none →
    s.tr.answers = .error e :: rest →
    let u : State := { s with tr := { s.tr with answers := rest, pend := none } }
    ((s.cfg.mode, e) ∈ s.prm.bailOn →
      step s = .next { result (if e = .timeout then .timeout else .protocolError) u with ctx := clearedCtx }) ∧
    ((s.cfg.mode, e) ∉ s.prm.bailOn → s.cfg.maxR < s.ctx.cntR + 1 →
      step s = .next { result .timeout u with ctx := clearedCtx }) ∧
    ((s.cfg.mode, e) ∉ s.prm.bailOn → s.ctx.cntR + 1 ≤ s.cfg.maxR →
      step s = .next (sent .sDsl (controlFrame (encSDsl s.ctx.did.isSome) [] s) s.prm.fwtDsl
        { u with ctx := { u.ctx with cntR := u.ctx.cntR + 1, dslIter := some (n + 1) } }))

/-- R386: `DESELECT` against a transport that answers every submission with a transmission error that is no bail-out, with a cap
of at least `maxR + 1`, in a configuration that R197 does not refuse: S(DESELECT) is submitted at the start and after each of the first `maxR` errors, then the procedure ends
with `Timeout`, the context reset, and nothing more submitted. -/
def Obligations.DeselectAgainstAFailingRemote : Prop :=
  ∀ (s : State) (a : Args) (es : List TxError) (rest : List TStatus),
    s.cmd = some { op := 0x05#8, args := a } → windowIsLarger s → s.ctx.role = .poller → (s.ctx.st = .idle ∨ s.ctx.st = .tx ∨ s.ctx.st = .rx) →
    s.ctx.dslIter = none → es.length = s.cfg.maxR + 1 → (∀ e ∈ es, (s.cfg.mode, e) ∉ s.prm.bailOn) →
    s.cfg.maxR + 1 ≤ s.prm.dslCap → s.tr.answers = es.map TStatus.error ++ rest →
    (∀ k, k ≤ s.cfg.maxR →
      ∃ t, run (k + 1) s = .next t ∧ deselectAwaits k t ∧ t.ctx.cntR = k ∧
        t.tr.pend = pending (controlFrame (encSDsl s.ctx.did.isSome) [] s) s.prm.fwtDsl s) ∧
    (∃ t, run (s.cfg.maxR + 2) s = .next t ∧ t.out.result = .timeout ∧ t.ctx = clearedCtx ∧ t.cfg = s.cfg ∧ t.ses = s.ses ∧
      t.tr.pend = none ∧ t.tr.answers = rest)

/-- R455, R456: a running `DESELECT` always ends, whatever the transport answers, within as many iterations as its cap leaves. -/
def Obligations.DeselectTerminatesByItsCap : Prop :=
  ∀ n s, deselectAwaits n s → s.cmd = none → n ≤ s.prm.dslCap →
    ∃ k t, k ≤ s.prm.dslCap - n + 1 ∧ run k s = .next t ∧ t.ctx = clearedCtx ∧ t.cfg = s.cfg ∧ t.ses = s.ses

/-! ### The whole machine -/

/-- R45, R48, R58, R62, R66, R67, R81, R197: the invariant of reachable states holds after reset. -/
def Obligations.ResetMeetsTheInvariant : Prop := Invariant State.reset

/-- R45, R48, R58, R62, R66, R67, R81, R197: every step keeps the invariant of reachable states. -/
def Obligations.StepKeepsTheInvariant : Prop := ∀ s t, Invariant s → step s = .next t → Invariant t

/-- R67: every step keeps the counters within their ceilings, by itself. -/
def Obligations.StepKeepsCountersBounded : Prop :=
  ∀ s t, s.ctx.cntI ≤ s.cfg.maxI ∧ s.ctx.cntR ≤ s.cfg.maxR ∧ s.ctx.cntS ≤ s.cfg.maxS → step s = .next t →
    t.ctx.cntI ≤ t.cfg.maxI ∧ t.ctx.cntR ≤ t.cfg.maxR ∧ t.ctx.cntS ≤ t.cfg.maxS

/-- R47, R68: a step changes the block number only by a reset of the context, by `LISTEN_START` (from `IDLE`), or when a block is
accepted, in a state that awaits one: a final or acknowledged block (`Done`, `IDLE`) or a chained one (`PartialData`, `RX`). -/
def Obligations.BlockNumberChangesOnlyOnAcceptance : Prop :=
  ∀ s t, step s = .next t → t.ctx.bn ≠ s.ctx.bn →
    t.ctx = clearedCtx ∨
    (s.ctx.st = .idle ∧ t.ctx.st = .activated ∧ t.ctx.role = .listener ∧ t.ctx.bn = true ∧ t.ctx.lastFrame = []) ∨
    ((s.ctx.st = .rx ∨ s.ctx.st = .activated) ∧
      ((t.ctx.st = .idle ∧ t.out.result = .done) ∨
       (t.ctx.st = .rx ∧ t.out.result = .partialData ∧ t.ctx.rxChaining = true)))

/-- R33, R34, R41, R59, R8: `cfg` is written by `INIT` alone, `ses` by `SET_SESSION` alone, `out.value` by `INIT` and the queries
alone, `out.rxData` only where an I-block is accepted, and the parameters never. -/
def Obligations.RegistersHaveOnlyTheirWriters : Prop :=
  ∀ i s t, exec i s = .next t →
    t.prm = s.prm ∧
    (t.cfg ≠ s.cfg → ∃ m a b c, i = .init m a b c) ∧
    (t.ses ≠ s.ses → ∃ w f n, i = .setSession w f n) ∧
    (t.out.value ≠ s.out.value →
      (∃ m a b c, i = .init m a b c) ∨ i = .getMaxPayload ∨ (∃ k b c d n, i = .encodeHdr k b c d n) ∨ (∃ p, i = .decodeHdr p) ∨
      (∃ v, i = .fwi2fwt v) ∨ (∃ v, i = .sfgi2sfgt v)) ∧
    (t.out.rxData ≠ s.out.rxData →
      (i = .poll ∨ ∃ d n b, i = .iFinal d n b ∨ i = .iChain d n b) ∧ (t.out.result = .done ∨ t.out.result = .partialData))

/-- R66, R81: from a state that meets the invariant, every step keeps it so that the operation pending suits the remote: an
I-block, and any frame above 3 bytes, fits the remote's frame size with its CRC; every other frame is a control frame. -/
def Obligations.SubmittedFramesFit : Prop :=
  ∀ s t, Invariant s → pendingFits s → step s = .next t → pendingFits t
end

