-- ==== Sys2Proof/Laws/Decode.lean ====
section
/-! SUPPORT. The decoder's field readers: each reads back what the encoder writes, and accepts exactly its range (R122). -/

namespace Sys2Proof

theorem argUpTo_eq_ok {a : ArgName} {max v x : Nat} : argUpTo a max v = .ok x ↔ v ≤ max ∧ v = x := by
  unfold argUpTo; split <;> simp_all

theorem argUpTo_of_le {a : ArgName} {max v : Nat} (h : v ≤ max) : argUpTo a max v = .ok v := by
  simp [argUpTo, h]

@[simp] theorem argByte_toNat (a : ArgName) (b : Byte) : argByte a b.toNat = .ok b := by
  simp [argByte, BitVec.isLt b]

@[simp] theorem argNibble_toNat (a : ArgName) (b : BitVec 4) : argNibble a b.toNat = .ok b := by
  simp [argNibble, BitVec.isLt b]

@[simp] theorem argOptByte_toNat (a : ArgName) (b : Option Byte) : argOptByte a (b.map BitVec.toNat) = .ok b := by
  cases b <;> simp [argOptByte, Except.map]

@[simp] theorem argBit_bitNat (a : ArgName) (b : Bool) : argBit a (bitNat b) = .ok b := by
  cases b <;> rfl

@[simp] theorem argMode_modeCode (m : Mode) : argMode (modeCode m) = .ok m := by
  cases m <;> rfl

@[simp] theorem argKind_kindCode (k : BlockKind) : argKind (kindCode k) = .ok k := by
  cases k <;> rfl

theorem argBuffer_of_le {l : Nat} {b : List Byte} (h : l ≤ b.length) : argBuffer l b = .ok b := by
  simp [argBuffer, h]

theorem argByte_isOk {a : ArgName} {v : Nat} : (∃ b, argByte a v = .ok b) ↔ v ≤ 255 := by
  unfold argByte
  by_cases h : v < 256
  · simp [h]; omega
  · simp [h]; omega

theorem argNibble_isOk {a : ArgName} {v : Nat} : (∃ b, argNibble a v = .ok b) ↔ v ≤ 15 := by
  unfold argNibble
  by_cases h : v < 16
  · simp [h]; omega
  · simp [h]; omega

theorem argBit_isOk {a : ArgName} {v : Nat} : (∃ b, argBit a v = .ok b) ↔ v ≤ 1 := by
  rcases v with _ | _ | v <;> simp [argBit]

theorem argMode_isOk {v : Nat} : (∃ m, argMode v = .ok m) ↔ v ≤ 2 := by
  rcases v with _ | _ | _ | v <;> simp [argMode]

theorem argKind_isOk {v : Nat} : (∃ k, argKind v = .ok k) ↔ 1 ≤ v ∧ v ≤ 5 := by
  rcases v with _ | _ | _ | _ | _ | _ | v <;> simp [argKind]

theorem argOptByte_isOk {a : ArgName} {v : Option Nat} : (∃ b, argOptByte a v = .ok b) ↔ ∀ n, v = some n → n ≤ 255 := by
  cases v with
  | none => simp [argOptByte]
  | some n =>
    unfold argOptByte argByte
    by_cases h : n < 256
    · simp [h, Except.map]; omega
    · simp [h, Except.map]; omega

/-- A chain of field readers succeeds exactly when the first does and then the rest does. -/
theorem bind_isOk {α β : Type} {x : Except DecodeError α} {f : α → Except DecodeError β} {b : β} :
    x >>= f = .ok b ↔ ∃ a, x = .ok a ∧ f a = .ok b := by
  cases x <;> simp [bind, Except.bind]

/-- The decoder on a header byte goes by the decoded header alone (R164). -/
theorem decode_pcb_eq_ok {b : Byte} {i : Instr} : decode (.pcb b) = .ok i ↔ headerInstr (decodePcb b) = some i := by
  show (match headerInstr (decodePcb b) with | some i => Except.ok i | none => Except.error DecodeError.invalidHeader) = .ok i ↔ _
  cases headerInstr (decodePcb b) <;> simp

/-- A header byte is no instruction exactly when it decodes to `Invalid` (R112). -/
theorem decode_pcb_eq_error {b : Byte} : decode (.pcb b) = .error .invalidHeader ↔ decodePcb b = .invalid := by
  show (match headerInstr (decodePcb b) with | some i => Except.ok i | none => Except.error DecodeError.invalidHeader) = _ ↔ _
  cases decodePcb b with
  | iBlock c d n b => cases c <;> simp [headerInstr]
  | _ => simp [headerInstr]

end Sys2Proof
end

