-- ==== Sys2Proof/Laws/State.lean ====
section
/-! SUPPORT. Beside State: for each named update of the state, what it leaves in each component (`prm`, `cfg`, `ses`, `ctx`, `out`,
`cmd`, `host`, `tr`), so that no later proof unfolds a record update. -/

namespace Sys2Proof.Machine

/-- The pending operation that `Submit(f, w)` leaves (R421). -/
abbrev pendingOf (f : List Byte) (w : Nat) (s : State) : Pending :=
  { frame := f, bitLen := 8 * f.length, rxCap := s.ses.readable.ourFsx - crcLen, flags := s.prm.txFlags, fwt := w }

/-- In a session every rule reads the session registers themselves (R41). -/
@[simp] theorem Ses.readable_of_valid {r : Ses} (h : r.valid = true) : r.readable = r := by simp [Ses.readable, h]

/-- R63: before any `SET_SESSION`, what the rules read does not depend on the registers. -/
theorem Ses.readable_of_not_valid {r r' : Ses} (h : r.valid = false) (h' : r'.valid = false) : r.readable = r'.readable := by
  simp [Ses.readable, h, h']

variable (s : State)

@[simp] theorem toggleBn_prm : (toggleBn s).prm = s.prm := rfl
@[simp] theorem toggleBn_cfg : (toggleBn s).cfg = s.cfg := rfl
@[simp] theorem toggleBn_ses : (toggleBn s).ses = s.ses := rfl
@[simp] theorem toggleBn_ctx : (toggleBn s).ctx = { s.ctx with bn := !s.ctx.bn } := rfl
@[simp] theorem toggleBn_out : (toggleBn s).out = s.out := rfl
@[simp] theorem toggleBn_cmd : (toggleBn s).cmd = s.cmd := rfl
@[simp] theorem toggleBn_host : (toggleBn s).host = s.host := rfl
@[simp] theorem toggleBn_tr : (toggleBn s).tr = s.tr := rfl

@[simp] theorem clearCounters_prm : (clearCounters s).prm = s.prm := rfl
@[simp] theorem clearCounters_cfg : (clearCounters s).cfg = s.cfg := rfl
@[simp] theorem clearCounters_ses : (clearCounters s).ses = s.ses := rfl
@[simp] theorem clearCounters_ctx : (clearCounters s).ctx = { s.ctx with cntI := 0, cntR := 0, cntS := 0 } := rfl
@[simp] theorem clearCounters_out : (clearCounters s).out = s.out := rfl
@[simp] theorem clearCounters_cmd : (clearCounters s).cmd = s.cmd := rfl
@[simp] theorem clearCounters_host : (clearCounters s).host = s.host := rfl
@[simp] theorem clearCounters_tr : (clearCounters s).tr = s.tr := rfl

@[simp] theorem setRxChaining_prm : (setRxChaining s).prm = s.prm := rfl
@[simp] theorem setRxChaining_cfg : (setRxChaining s).cfg = s.cfg := rfl
@[simp] theorem setRxChaining_ses : (setRxChaining s).ses = s.ses := rfl
@[simp] theorem setRxChaining_ctx : (setRxChaining s).ctx = { s.ctx with rxChaining := true } := rfl
@[simp] theorem setRxChaining_out : (setRxChaining s).out = s.out := rfl
@[simp] theorem setRxChaining_cmd : (setRxChaining s).cmd = s.cmd := rfl
@[simp] theorem setRxChaining_host : (setRxChaining s).host = s.host := rfl
@[simp] theorem setRxChaining_tr : (setRxChaining s).tr = s.tr := rfl

@[simp] theorem clearChaining_prm : (clearChaining s).prm = s.prm := rfl
@[simp] theorem clearChaining_cfg : (clearChaining s).cfg = s.cfg := rfl
@[simp] theorem clearChaining_ses : (clearChaining s).ses = s.ses := rfl
@[simp] theorem clearChaining_ctx : (clearChaining s).ctx = { s.ctx with txChaining := false, rxChaining := false } := rfl
@[simp] theorem clearChaining_out : (clearChaining s).out = s.out := rfl
@[simp] theorem clearChaining_cmd : (clearChaining s).cmd = s.cmd := rfl
@[simp] theorem clearChaining_host : (clearChaining s).host = s.host := rfl
@[simp] theorem clearChaining_tr : (clearChaining s).tr = s.tr := rfl

@[simp] theorem setSt_prm (st : St) : (setSt st s).prm = s.prm := rfl
@[simp] theorem setSt_cfg (st : St) : (setSt st s).cfg = s.cfg := rfl
@[simp] theorem setSt_ses (st : St) : (setSt st s).ses = s.ses := rfl
@[simp] theorem setSt_ctx (st : St) : (setSt st s).ctx = { s.ctx with st := st } := rfl
@[simp] theorem setSt_out (st : St) : (setSt st s).out = s.out := rfl
@[simp] theorem setSt_cmd (st : St) : (setSt st s).cmd = s.cmd := rfl
@[simp] theorem setSt_host (st : St) : (setSt st s).host = s.host := rfl
@[simp] theorem setSt_tr (st : St) : (setSt st s).tr = s.tr := rfl

@[simp] theorem toIdle_prm : (toIdle s).prm = s.prm := rfl
@[simp] theorem toIdle_cfg : (toIdle s).cfg = s.cfg := rfl
@[simp] theorem toIdle_ses : (toIdle s).ses = s.ses := rfl
@[simp] theorem toIdle_ctx : (toIdle s).ctx = { s.ctx with st := .idle, cntI := 0, cntR := 0, cntS := 0, rxChaining := false, txChaining := false, dslIter := none } := rfl
@[simp] theorem toIdle_out : (toIdle s).out = s.out := rfl
@[simp] theorem toIdle_cmd : (toIdle s).cmd = s.cmd := rfl
@[simp] theorem toIdle_host : (toIdle s).host = s.host := rfl
@[simp] theorem toIdle_tr : (toIdle s).tr = s.tr := rfl

@[simp] theorem fullReset_prm : (fullReset s).prm = s.prm := rfl
@[simp] theorem fullReset_cfg : (fullReset s).cfg = s.cfg := rfl
@[simp] theorem fullReset_ses : (fullReset s).ses = s.ses := rfl
@[simp] theorem fullReset_ctx : (fullReset s).ctx = Ctx.cleared := rfl
@[simp] theorem fullReset_out : (fullReset s).out = s.out := rfl
@[simp] theorem fullReset_cmd : (fullReset s).cmd = s.cmd := rfl
@[simp] theorem fullReset_host : (fullReset s).host = s.host := rfl
@[simp] theorem fullReset_tr : (fullReset s).tr = s.tr := rfl

@[simp] theorem finish_prm (c : Result) : (finish c s).prm = s.prm := rfl
@[simp] theorem finish_cfg (c : Result) : (finish c s).cfg = s.cfg := rfl
@[simp] theorem finish_ses (c : Result) : (finish c s).ses = s.ses := rfl
@[simp] theorem finish_ctx (c : Result) : (finish c s).ctx = s.ctx := rfl
@[simp] theorem finish_out (c : Result) : (finish c s).out = { s.out with result := c } := rfl
@[simp] theorem finish_cmd (c : Result) : (finish c s).cmd = s.cmd := rfl
@[simp] theorem finish_host (c : Result) : (finish c s).host = s.host := rfl
@[simp] theorem finish_tr (c : Result) : (finish c s).tr = s.tr := rfl

@[simp] theorem answer_prm (v : Nat) : (answer v s).prm = s.prm := rfl
@[simp] theorem answer_cfg (v : Nat) : (answer v s).cfg = s.cfg := rfl
@[simp] theorem answer_ses (v : Nat) : (answer v s).ses = s.ses := rfl
@[simp] theorem answer_ctx (v : Nat) : (answer v s).ctx = s.ctx := rfl
@[simp] theorem answer_out (v : Nat) : (answer v s).out = { s.out with result := .done, value := v } := rfl
@[simp] theorem answer_cmd (v : Nat) : (answer v s).cmd = s.cmd := rfl
@[simp] theorem answer_host (v : Nat) : (answer v s).host = s.host := rfl
@[simp] theorem answer_tr (v : Nat) : (answer v s).tr = s.tr := rfl

@[simp] theorem clearRxLen_prm : (clearRxLen s).prm = s.prm := rfl
@[simp] theorem clearRxLen_cfg : (clearRxLen s).cfg = s.cfg := rfl
@[simp] theorem clearRxLen_ses : (clearRxLen s).ses = s.ses := rfl
@[simp] theorem clearRxLen_ctx : (clearRxLen s).ctx = s.ctx := rfl
@[simp] theorem clearRxLen_out : (clearRxLen s).out = { s.out with rxLen := 0 } := rfl
@[simp] theorem clearRxLen_cmd : (clearRxLen s).cmd = s.cmd := rfl
@[simp] theorem clearRxLen_host : (clearRxLen s).host = s.host := rfl
@[simp] theorem clearRxLen_tr : (clearRxLen s).tr = s.tr := rfl

@[simp] theorem tCancel_prm : (tCancel s).prm = s.prm := rfl
@[simp] theorem tCancel_cfg : (tCancel s).cfg = s.cfg := rfl
@[simp] theorem tCancel_ses : (tCancel s).ses = s.ses := rfl
@[simp] theorem tCancel_ctx : (tCancel s).ctx = s.ctx := rfl
@[simp] theorem tCancel_out : (tCancel s).out = s.out := rfl
@[simp] theorem tCancel_cmd : (tCancel s).cmd = s.cmd := rfl
@[simp] theorem tCancel_host : (tCancel s).host = s.host := rfl
@[simp] theorem tCancel_tr : (tCancel s).tr = { s.tr with pend := none } := rfl

@[simp] theorem submit_prm (f : List Byte) (w : Nat) : (submit f w s).prm = s.prm := rfl
@[simp] theorem submit_cfg (f : List Byte) (w : Nat) : (submit f w s).cfg = s.cfg := rfl
@[simp] theorem submit_ses (f : List Byte) (w : Nat) : (submit f w s).ses = s.ses := rfl
@[simp] theorem submit_ctx (f : List Byte) (w : Nat) : (submit f w s).ctx = s.ctx := rfl
@[simp] theorem submit_out (f : List Byte) (w : Nat) : (submit f w s).out = s.out := rfl
@[simp] theorem submit_cmd (f : List Byte) (w : Nat) : (submit f w s).cmd = s.cmd := rfl
@[simp] theorem submit_host (f : List Byte) (w : Nat) : (submit f w s).host = s.host := rfl
@[simp] theorem submit_tr (f : List Byte) (w : Nat) : (submit f w s).tr = { s.tr with pend := some (pendingOf f w s) } := rfl

@[simp] theorem armReception_prm : (armReception s).prm = s.prm := rfl
@[simp] theorem armReception_cfg : (armReception s).cfg = s.cfg := rfl
@[simp] theorem armReception_ses : (armReception s).ses = s.ses := rfl
@[simp] theorem armReception_ctx : (armReception s).ctx = s.ctx := rfl
@[simp] theorem armReception_out : (armReception s).out = s.out := rfl
@[simp] theorem armReception_cmd : (armReception s).cmd = s.cmd := rfl
@[simp] theorem armReception_host : (armReception s).host = s.host := rfl
@[simp] theorem armReception_tr : (armReception s).tr = { s.tr with pend := some (pendingOf [] (fwtNormal s) s) } := rfl

@[simp] theorem sendFrame_prm (k : BlockKind) (inf : List Byte) (w : Nat) : (sendFrame k inf w s).prm = s.prm := rfl
@[simp] theorem sendFrame_cfg (k : BlockKind) (inf : List Byte) (w : Nat) : (sendFrame k inf w s).cfg = s.cfg := rfl
@[simp] theorem sendFrame_ses (k : BlockKind) (inf : List Byte) (w : Nat) : (sendFrame k inf w s).ses = s.ses := rfl
@[simp] theorem sendFrame_ctx (k : BlockKind) (inf : List Byte) (w : Nat) : (sendFrame k inf w s).ctx = { s.ctx with lastKind := some k, lastI := if k = .i then buildFrame k inf s else s.ctx.lastI, lastFrame := buildFrame k inf s } := rfl
@[simp] theorem sendFrame_out (k : BlockKind) (inf : List Byte) (w : Nat) : (sendFrame k inf w s).out = s.out := rfl
@[simp] theorem sendFrame_cmd (k : BlockKind) (inf : List Byte) (w : Nat) : (sendFrame k inf w s).cmd = s.cmd := rfl
@[simp] theorem sendFrame_host (k : BlockKind) (inf : List Byte) (w : Nat) : (sendFrame k inf w s).host = s.host := rfl
@[simp] theorem sendFrame_tr (k : BlockKind) (inf : List Byte) (w : Nat) : (sendFrame k inf w s).tr = { s.tr with pend := some (pendingOf (buildFrame k inf s) w s) } := rfl

@[simp] theorem resendI_prm : (resendI s).prm = s.prm := rfl
@[simp] theorem resendI_cfg : (resendI s).cfg = s.cfg := rfl
@[simp] theorem resendI_ses : (resendI s).ses = s.ses := rfl
@[simp] theorem resendI_ctx : (resendI s).ctx = { s.ctx with lastKind := some .i } := rfl
@[simp] theorem resendI_out : (resendI s).out = s.out := rfl
@[simp] theorem resendI_cmd : (resendI s).cmd = s.cmd := rfl
@[simp] theorem resendI_host : (resendI s).host = s.host := rfl
@[simp] theorem resendI_tr : (resendI s).tr = { s.tr with pend := some (pendingOf s.ctx.lastI (fwtNormal s) s) } := rfl

@[simp] theorem countUp_prm (k : Counter) : (countUp k s).prm = s.prm := by cases k <;> rfl
@[simp] theorem resendKept_prm (pcb : Byte) : (resendKept pcb s).prm = s.prm := rfl
@[simp] theorem countUp_cfg (k : Counter) : (countUp k s).cfg = s.cfg := by cases k <;> rfl
@[simp] theorem resendKept_cfg (pcb : Byte) : (resendKept pcb s).cfg = s.cfg := rfl
@[simp] theorem countUp_ses (k : Counter) : (countUp k s).ses = s.ses := by cases k <;> rfl
@[simp] theorem resendKept_ses (pcb : Byte) : (resendKept pcb s).ses = s.ses := rfl
@[simp] theorem countUp_out (k : Counter) : (countUp k s).out = s.out := by cases k <;> rfl
@[simp] theorem resendKept_out (pcb : Byte) : (resendKept pcb s).out = s.out := rfl
@[simp] theorem countUp_cmd (k : Counter) : (countUp k s).cmd = s.cmd := by cases k <;> rfl
@[simp] theorem resendKept_cmd (pcb : Byte) : (resendKept pcb s).cmd = s.cmd := rfl
@[simp] theorem countUp_host (k : Counter) : (countUp k s).host = s.host := by cases k <;> rfl
@[simp] theorem resendKept_host (pcb : Byte) : (resendKept pcb s).host = s.host := rfl
@[simp] theorem countUp_tr (k : Counter) : (countUp k s).tr = s.tr := by cases k <;> rfl
@[simp] theorem resendKept_tr (pcb : Byte) : (resendKept pcb s).tr = { s.tr with pend := some (pendingOf s.ctx.lastFrame (fwtNormal s) s) } := rfl

@[simp] theorem resendKept_ctx (pcb : Byte) :
    (resendKept pcb s).ctx = { s.ctx with lastKind := headerKind (decodePcb pcb) } := rfl

/-- R193: counting one kind of retry leaves the rest of the Link Context alone. -/
theorem countUp_ctx (k : Counter) :
    (countUp k s).ctx = { s.ctx with cntI := (countUp k s).ctx.cntI, cntR := (countUp k s).ctx.cntR,
                                     cntS := (countUp k s).ctx.cntS } := by
  cases k <;> rfl

end Sys2Proof.Machine
end

