-- ==== Sys2Proof/Laws/Ops.lean ====
section
/-! SUPPORT. For each shared operation, one lemma that says everything it can do; later proofs cite these instead of unfolding. -/

namespace Sys2Proof.Machine

variable {s t : State}

/-- Everything a read can do (R82): the bytes, or outside the buffer a fault. -/
theorem memRead_cases (buf : List Byte) (i n : Nat) :
    (i + n ≤ buf.length ∧ memRead buf i n = .ok ((buf.drop i).take n)) ∨
    (buf.length < i + n ∧ memRead buf i n = .error .bufferBounds) := by
  unfold memRead; split <;> simp_all

theorem memRead_eq_ok {buf v : List Byte} {i n : Nat} :
    memRead buf i n = .ok v ↔ i + n ≤ buf.length ∧ (buf.drop i).take n = v := by
  unfold memRead; split <;> simp_all

/-- Everything a read of one byte can do (R82). -/
theorem memByte_cases (buf : List Byte) (i : Nat) :
    (∃ b, buf[i]? = some b ∧ memByte buf i = .ok b) ∨ (buf.length ≤ i ∧ memByte buf i = .error .bufferBounds) := by
  unfold memByte
  cases h : buf.drop i with
  | nil => exact .inr ⟨by simpa using h, rfl⟩
  | cons b rest => exact .inl ⟨b, by have := congrArg List.head? h; simpa using this, rfl⟩

/-- Everything a write can do (R82). -/
theorem memWrite_cases (buf : List Byte) (cap i : Nat) (v : List Byte) :
    (i + v.length ≤ cap ∧ i ≤ buf.length ∧ memWrite buf cap i v = .ok (buf.take i ++ v ++ buf.drop (i + v.length))) ∨
    ((cap < i + v.length ∨ buf.length < i) ∧ memWrite buf cap i v = .error .bufferBounds) := by
  unfold memWrite
  by_cases h : i + v.length ≤ cap ∧ i ≤ buf.length
  · exact .inl ⟨h.1, h.2, if_pos h⟩
  · exact .inr ⟨by omega, if_neg h⟩

/-- The INF behind a header that lies inside the frame (R90). -/
theorem rxInf_of_le {h : Nat} (hh : h ≤ (rxFrame s).length) : rxInf h s = .ok ((rxFrame s).drop h) := by
  unfold rxInf memRead
  rw [if_pos (by omega), List.take_of_length_le (by simp)]

/-- What an accepted I-block delivers: behind a header inside the frame, and within the caller's capacity, no access is out of
bounds (R82, R90). -/
theorem deliver_of_fits {h : Nat} (hh : h ≤ (rxFrame s).length) (hc : (rxFrame s).length - h ≤ s.ctx.rxCap) :
    deliver h s = .ok { s with out := { s.out with rxData := (rxFrame s).drop h, rxLen := (rxFrame s).length - h } } := by
  simp [deliver, rxInf_of_le hh, memWrite, hc]

/-- Everything a delivery that meets no fault can do (R82, R90). -/
theorem deliver_eq_ok {h : Nat} : deliver h s = .ok t ↔ h ≤ (rxFrame s).length ∧ (rxFrame s).length - h ≤ s.ctx.rxCap ∧
    t = { s with out := { s.out with rxData := (rxFrame s).drop h, rxLen := (rxFrame s).length - h } } := by
  by_cases hh : h ≤ (rxFrame s).length
  · by_cases hc : (rxFrame s).length - h ≤ s.ctx.rxCap
    · rw [deliver_of_fits hh hc]
      simp [hh, hc, eq_comm]
    · simp [deliver, rxInf_of_le hh, memWrite, hc]
  · simp [deliver, rxInf, memRead, show ¬h + ((rxFrame s).length - h) ≤ (rxFrame s).length by omega, hh]

theorem deliverThen_of_fits {h : Nat} {act : State → State} {c : Result} (hh : h ≤ (rxFrame s).length)
    (hc : (rxFrame s).length - h ≤ s.ctx.rxCap) :
    deliverThen h act c s =
      .ok (act { s with out := { s.out with rxData := (rxFrame s).drop h, rxLen := (rxFrame s).length - h } }, c) := by
  simp [deliverThen, deliver_of_fits hh hc, Except.map]

/-- R228: what a listener that has sent something retransmits. -/
theorem resendLast_cons {pcb : Byte} {f : List Byte} (h : s.ctx.lastFrame = pcb :: f) : resendLast s = .ok (resendKept pcb s) := by
  simp [resendLast, memByte, h, Except.map]

/-- Everything the checks of R166 can do: they pass or they fail; none reads outside the frame (R82). -/
theorem headerCheck_cases (d n : Bool) (s : State) :
    (headerCheck d n s = .ok true ∧ hdrLen d n ≤ (rxFrame s).length ∧
      (rxFrame s).length + crcLen ≤ s.ses.readable.ourFsx) ∨ headerCheck d n s = .ok false := by
  unfold headerCheck
  split
  · exact .inr rfl
  split
  · exact .inr rfl
  rename_i h1 h2
  have key : ∃ b, didMatches d s = .ok b := by
    unfold didMatches
    split
    · exact ⟨_, rfl⟩
    split
    · rename_i hd
      rcases memByte_cases (rxFrame s) 1 with ⟨b, _, e⟩ | ⟨hl, _⟩
      · exact ⟨_, by rw [e]; rfl⟩
      · subst hd; exfalso; simp [hdrLen] at h1; omega
    · exact ⟨_, rfl⟩
  obtain ⟨b, e⟩ := key
  rw [e]
  cases b
  · exact .inr rfl
  · exact .inl ⟨rfl, by omega, by omega⟩

/-- Everything `ifAdmitted` can do (R262, R408). -/
theorem ifAdmitted_cases (r : Row) (o : Outcome) :
    (admits r s = true ∧ ifAdmitted r s o = o) ∨ (admits r s = false ∧ ifAdmitted r s o = .refused .notAdmitted) := by
  unfold ifAdmitted; cases admits r s <;> simp

/-- A command reaches a next state only where it is admitted (R262). -/
theorem ifAdmitted_next {r : Row} {o : Outcome} (h : ifAdmitted r s o = .next t) : admits r s = true ∧ o = .next t := by
  rcases ifAdmitted_cases (s := s) r o with ⟨ha, hb⟩ | ⟨_, hb⟩
  · exact ⟨ha, hb ▸ h⟩
  · rw [hb] at h; cases h

/-- No admitted command meets a running `DESELECT` (R262). -/
theorem admits_dslIter {r : Row} (h : admits r s = true) : s.ctx.dslIter = none := by
  unfold admits at h; simp_all

/-- Everything the end of a reception step can do to the state (R382, R384, R400). -/
theorem complete_cases (iter : Option Nat) (c : Result) :
    (iter = none ∧ complete iter c s = finish c s) ∨
    (iter ≠ none ∧ c = .busy ∧ complete iter c s = s) ∨
    (iter ≠ none ∧ c ≠ .busy ∧ complete iter c s = finish c (fullReset s)) := by
  cases iter with
  | none => exact .inl ⟨rfl, rfl⟩
  | some n => by_cases h : c = .busy <;> simp [complete, h]

/-- A reception step reaches a next state exactly where its rule does (R82). -/
theorem conclude_eq_next {iter : Option Nat} {r : Rx} :
    conclude iter r = .next t ↔ ∃ u c, r = .ok (u, c) ∧ complete iter c u = t := by
  cases r with
  | error f => simp [conclude]
  | ok p => cases p; simp [conclude]

/-- The end of a reception step refuses nothing (R408). -/
@[simp] theorem conclude_ne_refused {iter : Option Nat} {r : Rx} {x : Refusal} : conclude iter r ≠ .refused x := by
  cases r <;> simp [conclude]

/-- Everything a bounded retry can do (R190, R191). -/
theorem retryThen_cases (k : Counter) (act : State → Rx) :
    (ceiling k s < count k s + 1 ∧ retryThen k act s = fail (exhaustCode k) s) ∨
    (count k s + 1 ≤ ceiling k s ∧ retryThen k act s = act (countUp k s)) := by
  unfold retryThen retryStep
  by_cases h : count k s + 1 > ceiling k s
  · exact .inl ⟨h, by simp [h]⟩
  · exact .inr ⟨by omega, by simp [h]⟩

/-- R197: `windowOk` is the condition it names. -/
theorem windowOk_iff : windowOk s = true ↔ (s.ses.valid = true → fwtNormal s ≤ fwtDsl s) := by
  unfold windowOk; cases s.ses.valid <;> simp

/-- Everything `DESELECT` can do (R197, R262, R381). -/
theorem execDeselect_cases (s : State) :
    (admits .deselect s = false ∧ execDeselect s = .refused .notAdmitted) ∨
    (admits .deselect s = true ∧ windowOk s = false ∧ execDeselect s = .refused .deselectWindow) ∨
    (admits .deselect s = true ∧ windowOk s = true ∧ execDeselect s = .next (deselectStart s)) := by
  unfold execDeselect ifAdmitted
  cases admits .deselect s <;> cases windowOk s <;> simp

/-- R413: with an argument out of range, admission still decides the refusal. -/
theorem refusalOf_argument {op : Byte} {r : Row} {a : ArgName} (h : rowOf op = some r) :
    refusalOf op (.argument a) s = if admits r s then .argumentRange a else .notAdmitted := by
  simp [refusalOf, h]

/-- Everything the buffer check can do (R300). -/
theorem ifFits_cases (h : Nat) (r : Rx) :
    (s.ctx.rxCap < (rxFrame s).length - h ∧ ifFits h s r = fail .bufferTooSmall s) ∨
    ((rxFrame s).length - h ≤ s.ctx.rxCap ∧ ifFits h s r = r) := by
  unfold ifFits
  by_cases hc : (rxFrame s).length - h > s.ctx.rxCap
  · exact .inl ⟨hc, by simp [hc]⟩
  · exact .inr ⟨by omega, by simp [hc]⟩

/-- What a read of the transport can change: the transport, and nothing else (R88). -/
theorem tStatus_frame (s : State) : ∃ tr, (tStatus s).2 = { s with tr := tr } := by
  rcases s with ⟨prm, cfg, ses, ctx, out, cmd, host, ⟨pend, rxBuf, answers, fresh⟩⟩
  unfold tStatus nextStatus
  cases pend <;> cases answers <;> simp only [afterStatus] <;> split <;> exact ⟨_, rfl⟩

/-- R62, R422: while the transport answers `Busy` the operation stays pending; any other answer ends it. -/
theorem tStatus_pend (s : State) :
    ((tStatus s).1 = .busy → (tStatus s).2.tr.pend = s.tr.pend) ∧ ((tStatus s).1 ≠ .busy → (tStatus s).2.tr.pend = none) := by
  rcases s with ⟨prm, cfg, ses, ctx, out, cmd, host, ⟨pend, rxBuf, answers, fresh⟩⟩
  unfold tStatus nextStatus
  cases pend <;> cases answers <;> simp only [afterStatus] <;> split <;> simp_all

/-- R421, R422: the frame a status read reports is in the receive buffer. -/
theorem tStatus_rxBuf {s : State} {f : List Byte} (h : (tStatus s).1 = .done f) : (tStatus s).2.tr.rxBuf = f := by
  rcases s with ⟨prm, cfg, ses, ctx, out, cmd, host, ⟨pend, rxBuf, answers, fresh⟩⟩
  unfold tStatus nextStatus at *
  cases pend <;> cases answers <;> simp_all [afterStatus]

/-- R422: with an operation pending, a status read returns the transport's next answer. -/
theorem tStatus_answer {s : State} {a : TStatus} {rest : List TStatus} (hp : s.tr.pend ≠ none) (ha : s.tr.answers = a :: rest) :
    tStatus s = (a, afterStatus a { s with tr := { s.tr with answers := rest } }) := by
  unfold tStatus nextStatus
  cases hq : s.tr.pend with
  | none => exact absurd hq hp
  | some p => simp [ha]

/-- Everything a received block can do (R166, R280, R341): refuse where no reception is due, else conclude a `ProtocolError` or
the rule of the reception it arrives in. -/
theorem runBlock_cases (d n : Bool) (poller waiting listener : State → Rx) :
    (phase s = none ∧ runBlock d n poller waiting listener s = .refused .noReception) ∨
    (phase s ≠ none ∧ headerCheck d n s = .ok false ∧
      runBlock d n poller waiting listener s = conclude s.ctx.dslIter (fail .protocolError s)) ∨
    (headerCheck d n s = .ok true ∧
      ((phase s = some .pollerRx ∧ runBlock d n poller waiting listener s = conclude s.ctx.dslIter (poller s)) ∨
       (phase s = some .pollerWait ∧ runBlock d n poller waiting listener s = conclude s.ctx.dslIter (waiting s)) ∨
       (phase s = some .listenerRx ∧ runBlock d n poller waiting listener s = conclude s.ctx.dslIter (listener s)))) := by
  unfold runBlock
  cases hp : phase s with
  | none => exact .inl ⟨rfl, rfl⟩
  | some p => rcases headerCheck_cases d n s with ⟨hh, _, _⟩ | hh <;> cases p <;> simp [hh]

/-- The states a reception is due in (R280, R341). -/
theorem phase_eq_some {p : Phase} : phase s = some p ↔
    (p = .pollerRx ∧ s.ctx.role = .poller ∧ s.ctx.st = .rx) ∨
    (p = .pollerWait ∧ s.ctx.role = .poller ∧ s.ctx.st = .waitDeselect) ∨
    (p = .listenerRx ∧ s.ctx.role = .listener ∧ (s.ctx.st = .rx ∨ s.ctx.st = .activated)) := by
  unfold phase
  cases s.ctx.role <;> cases s.ctx.st <;> cases p <;> simp

/-- R65, R155: a built frame is as long as its header and its payload. -/
theorem buildFrame_length (k : BlockKind) (inf : List Byte) (s : State) :
    (buildFrame k inf s).length = hdrLen s.ctx.did.isSome (decide (k = .i) && s.ses.readable.nad.isSome) + inf.length := by
  unfold buildFrame didBytes nadBytes hdrLen
  cases s.ctx.did <;> cases s.ses.readable.nad <;> cases k <;> simp <;> omega

/-- R150 to R155: the header byte of a built frame is one the codec recognises, of the kind that was built. -/
theorem headerKind_encHeader (k : BlockKind) (bn chain didP nadP : Bool) :
    headerKind (decodePcb (encHeader k bn chain didP nadP)) = some k := by
  cases k <;> cases bn <;> cases chain <;> cases didP <;> cases nadP <;> decide

/-- R81: a control frame is short. -/
theorem buildFrame_shortControl {k : BlockKind} {inf : List Byte} (hk : k ≠ .i) (hl : inf.length ≤ 1) :
    ShortControl (buildFrame k inf s) := by
  constructor
  · rw [buildFrame_length]
    cases s.ctx.did <;> simp [hk, hdrLen] <;> omega
  · intro pcb h
    simp only [buildFrame, List.head?_cons, Option.some.injEq] at h
    rw [← h, headerKind_encHeader]
    simpa using hk

/-- A retry above its ceiling ends the exchange with its counter's code (R190, R191). -/
theorem retryThen_of_lt {k : Counter} {act : State → Rx} (h : ceiling k s < count k s + 1) :
    retryThen k act s = .ok (toIdle s, exhaustCode k) := by
  unfold retryThen retryStep; rw [if_pos h]; rfl

/-- A retry within its ceiling is counted and its action run (R190). -/
theorem retryThen_of_le {k : Counter} {act : State → Rx} (h : count k s + 1 ≤ ceiling k s) :
    retryThen k act s = act (countUp k s) := by
  unfold retryThen retryStep; rw [if_neg (by omega)]

/-- A status read does not change which reception a state is in (R88). -/
theorem phase_tStatus (s : State) : phase (tStatus s).2 = phase s := by
  obtain ⟨tr, h⟩ := tStatus_frame s
  rw [h]; rfl

/-- A header that passes the checks of R166 lies inside its frame. -/
theorem hdrLen_le {d n : Bool} (h : headerCheck d n s = .ok true) : hdrLen d n ≤ (rxFrame s).length := by
  rcases headerCheck_cases d n s with ⟨_, hl, _⟩ | h'
  · exact hl
  · rw [h'] at h; cases h

/-- Behind a header that passes the checks of R166, "no INF" is an INF of length 0. -/
theorem noInf_iff {d n : Bool} (h : headerCheck d n s = .ok true) :
    noInf (hdrLen d n) s = true ↔ (rxFrame s).length - hdrLen d n = 0 := by
  have := hdrLen_le h
  simp only [noInf, beq_iff_eq]
  omega

/-- A received header that is an instruction runs that instruction (R164, R280, R341). -/
theorem runHeader_eq_exec {k : Header} {i : Instr} (h : headerInstr k = some i) : runHeader k s = exec i s := by
  cases k with
  | iBlock c d n b => cases c <;> simp [headerInstr] at h <;> subst h <;> rfl
  | invalid => simp [headerInstr] at h
  | _ => simp [headerInstr] at h; subst h; rfl

/-- Where a reception is due and the transport has an answer laid down, the reception step reacts to that answer (R280, R341). -/
theorem receive_answer {p : Phase} {a : TStatus} {rest : List TStatus} (hp : phase s = some p) (ht : s.tr.pend ≠ none)
    (ha : s.tr.answers = a :: rest) : receive s = react p a (afterStatus a { s with tr := { s.tr with answers := rest } }) := by
  simp [receive, hp, tStatus_answer ht ha]

end Sys2Proof.Machine
end

