-- ==== Sys2Proof/Laws/PerInstr.lean ====
section
/-! SUPPORT. Per instruction: its code lies in its own row of spec/opcode_table.json. -/

namespace Sys2Proof.Laws.InTable

/-- The format, mask and match of an instruction's row of the opcode table (R114, R121). -/
def row : Instr → Bool × Byte × Byte
  | .iFinal _ _ _ => (true, 0xF2#8, 0x02#8)
  | .iChain _ _ _ => (true, 0xF2#8, 0x12#8)
  | .rAck _ _ => (true, 0xF6#8, 0xA2#8)
  | .rNak _ _ => (true, 0xF6#8, 0xB2#8)
  | .sDsl _ => (true, 0xF7#8, 0xC2#8)
  | .sWtx _ => (true, 0xF7#8, 0xF2#8)
  | .init _ _ _ _ => (false, 0xFF#8, 0x01#8)
  | .setSession _ _ _ => (false, 0xFF#8, 0x02#8)
  | .startTx _ _ _ _ _ _ _ => (false, 0xFF#8, 0x03#8)
  | .poll => (false, 0xFF#8, 0x04#8)
  | .deselect => (false, 0xFF#8, 0x05#8)
  | .listenStart _ _ _ _ => (false, 0xFF#8, 0x06#8)
  | .getMaxPayload => (false, 0xFF#8, 0x07#8)
  | .encodeHdr _ _ _ _ _ => (false, 0xFF#8, 0x08#8)
  | .decodeHdr _ => (false, 0xFF#8, 0x09#8)
  | .fwi2fwt _ => (false, 0xFF#8, 0x0A#8)
  | .sfgi2sfgt _ => (false, 0xFF#8, 0x0B#8)

/-- Whether a code is a header byte, and its byte: the header itself, or the command's code. -/
def word : Code → Bool × Byte
  | .pcb b => (true, b)
  | .cmd c => (false, c.op)

/-- The instruction's code is of its row's format, and its byte under the row's mask is the row's match. -/
def Statement (i : Instr) : Prop :=
  (word (encode i)).1 = (row i).1 ∧ (word (encode i)).2 &&& (row i).2.1 = (row i).2.2

theorem iFinal (d n b : Bool) : Statement (.iFinal d n b) := ⟨rfl, by cases d <;> cases n <;> cases b <;> rfl⟩
theorem iChain (d n b : Bool) : Statement (.iChain d n b) := ⟨rfl, by cases d <;> cases n <;> cases b <;> rfl⟩
theorem rAck (d b : Bool) : Statement (.rAck d b) := ⟨rfl, by cases d <;> cases b <;> rfl⟩
theorem rNak (d b : Bool) : Statement (.rNak d b) := ⟨rfl, by cases d <;> cases b <;> rfl⟩
theorem sDsl (d : Bool) : Statement (.sDsl d) := ⟨rfl, by cases d <;> rfl⟩
theorem sWtx (d : Bool) : Statement (.sWtx d) := ⟨rfl, by cases d <;> rfl⟩
theorem init (mode : Mode) (maxI maxR maxS : Nat) : Statement (.init mode maxI maxR maxS) := ⟨rfl, by simp [encode, word, row]⟩
theorem setSession (dFwt ourFsx : Nat) (nad : Option Byte) : Statement (.setSession dFwt ourFsx nad) := ⟨rfl, by simp [encode, word, row]⟩
theorem startTx (txBuffer : List Byte) (txLength : Nat) (chainingFlag : Bool) (rxCap fwt fsx : Nat) (did : Option Byte) :
    Statement (.startTx txBuffer txLength chainingFlag rxCap fwt fsx did) := ⟨rfl, by simp [encode, word, row]⟩
theorem poll : Statement .poll := ⟨rfl, by simp [encode, word, row]⟩
theorem deselect : Statement .deselect := ⟨rfl, by simp [encode, word, row]⟩
theorem listenStart (rxCap fwt fsx : Nat) (did : Option Byte) : Statement (.listenStart rxCap fwt fsx did) := ⟨rfl, by simp [encode, word, row]⟩
theorem getMaxPayload : Statement .getMaxPayload := ⟨rfl, by simp [encode, word, row]⟩
theorem encodeHdr (kind : BlockKind) (bn chain didPresent nadPresent : Bool) :
    Statement (.encodeHdr kind bn chain didPresent nadPresent) := ⟨rfl, by simp [encode, word, row]⟩
theorem decodeHdr (pcb : Byte) : Statement (.decodeHdr pcb) := ⟨rfl, by simp [encode, word, row]⟩
theorem fwi2fwt (fwi : BitVec 4) : Statement (.fwi2fwt fwi) := ⟨rfl, by simp [encode, word, row]⟩
theorem sfgi2sfgt (sfgi : BitVec 4) : Statement (.sfgi2sfgt sfgi) := ⟨rfl, by simp [encode, word, row]⟩

end Sys2Proof.Laws.InTable
end

