-- ==== Sys2Proof/Tests/Slice0.lean ====
section
/-! SUPPORT. The tests: the checks of WellFormed, codes written out from spec/30_encoding.md, vectors of spec/95_test_vectors.md
(each named by its id there), and for every obligation with hypotheses a state that meets them. -/

namespace Sys2Proof.Tests

open Sys2Proof.Machine Sys2Proof.Spec

/-! ### Ill-formed terms are refused -/

theorem test_wf_init_maxI : (Instr.init .iso 256 0 0).wf = false := by decide
theorem test_wf_init_maxR : (Instr.init .iso 0 256 0).wf = false := by decide
theorem test_wf_init_maxS : (Instr.init .iso 0 0 256).wf = false := by decide
theorem test_wf_init_largest : (Instr.init .emv 255 255 255).wf = true := by decide
theorem test_wf_setSession_ourFsx : (Instr.setSession 0 65536 none).wf = false := by decide
theorem test_wf_startTx_txLength : (Instr.startTx [] 65536 false 0 0 0 none).wf = false := by decide
theorem test_wf_startTx_buffer : (Instr.startTx [0#8] 2 false 0 0 0 none).wf = false := by decide
theorem test_wf_startTx_rxCap : (Instr.startTx [] 0 false 65536 0 0 none).wf = false := by decide
theorem test_wf_startTx_fsx : (Instr.startTx [] 0 false 0 0 65536 none).wf = false := by decide
theorem test_wf_listenStart_rxCap : (Instr.listenStart 65536 0 0 none).wf = false := by decide
theorem test_wf_listenStart_fsx : (Instr.listenStart 0 0 65536 none).wf = false := by decide

/-! ### Codes written out from R102 to R104 and R121 -/

theorem test_decode_iFinal : decode (.pcb 0b00001011#8) = .ok (.iFinal true false true) := by rfl
theorem test_decode_iChain : decode (.pcb 0b00010110#8) = .ok (.iChain false true false) := by rfl
theorem test_decode_rAck : decode (.pcb 0b10101010#8) = .ok (.rAck true false) := by rfl
theorem test_decode_rNak : decode (.pcb 0b10110011#8) = .ok (.rNak false true) := by rfl
theorem test_decode_sDsl : decode (.pcb 0b11001010#8) = .ok (.sDsl true) := by rfl
theorem test_decode_sWtx : decode (.pcb 0b11110010#8) = .ok (.sWtx false) := by rfl
theorem test_decode_init :
    decode (.cmd { op := 0x01#8, args := { mode := 2, maxI := 2, maxR := 3, maxS := 4 } }) = .ok (.init .iso 2 3 4) := by rfl
theorem test_decode_setSession :
    decode (.cmd { op := 0x02#8, args := { dFwt := 49152, ourFsx := 256, nad := some 0x21 } }) =
      .ok (.setSession 49152 256 (some 0x21#8)) := by rfl
theorem test_decode_startTx :
    decode (.cmd { op := 0x03#8, args := { txBuffer := [0x00#8, 0xA4#8], txLength := 2, chainingFlag := 1, rxCap := 32,
                                           fwt := 65536, fsx := 64, did := some 3 } }) =
      .ok (.startTx [0x00#8, 0xA4#8] 2 true 32 65536 64 (some 0x03#8)) := by rfl
theorem test_decode_poll : decode (.cmd { op := 0x04#8 }) = .ok .poll := by rfl
theorem test_decode_deselect : decode (.cmd { op := 0x05#8 }) = .ok .deselect := by rfl
theorem test_decode_listenStart :
    decode (.cmd { op := 0x06#8, args := { rxCap := 64, fwt := 65536, fsx := 63 } }) = .ok (.listenStart 64 65536 63 none) := by rfl
theorem test_decode_getMaxPayload : decode (.cmd { op := 0x07#8 }) = .ok .getMaxPayload := by rfl
theorem test_decode_encodeHdr :
    decode (.cmd { op := 0x08#8, args := { kind := 3, bn := 1, didPresent := 1 } }) =
      .ok (.encodeHdr .rNak true false true false) := by rfl
theorem test_decode_decodeHdr : decode (.cmd { op := 0x09#8, args := { pcb := 0x1B } }) = .ok (.decodeHdr 0x1B#8) := by rfl
theorem test_decode_fwi2fwt : decode (.cmd { op := 0x0A#8, args := { fwi := 15 } }) = .ok (.fwi2fwt 15#4) := by rfl
theorem test_decode_sfgi2sfgt : decode (.cmd { op := 0x0B#8, args := { sfgi := 14 } }) = .ok (.sfgi2sfgt 14#4) := by rfl
/-- R160's corner cases are `Invalid`. -/
theorem test_decode_reserved_headers :
    [0x00#8, 0x22#8, 0x40#8, 0x7F#8, 0x82#8, 0xA6#8, 0xC3#8, 0xD2#8, 0xE2#8, 0xF0#8, 0xFF#8].all (fun b => decodePcb b == .invalid) =
      true := by decide
theorem test_decode_reserved_code : decode (.cmd { op := 0x0C#8 }) = .error .unknownCode := by rfl
theorem test_decode_mode_range : decode (.cmd { op := 0x01#8, args := { mode := 3 } }) = .error (.argument .mode) := by rfl
/-- The table's words: a command code is a command, another byte a header, another width nothing. -/
theorem test_decodeTableWord :
    decodeTableWord 8 0x04 = some .poll ∧ decodeTableWord 8 0xB3 = some (.rNak false true) ∧ decodeTableWord 8 0x40 = none ∧
    decodeTableWord 16 0x04 = none := by decide

/-! ### States for the vectors (the vector parameters of spec/95_test_vectors.md) -/

def vectorParams : Params where
  maxFwt := 67108864
  fwiDefault := 4
  sfgtMin := 9000
  fwtDsl := 16777216
  dslCap := 8
  bailOn := []
  fsxMaxNfcForum := 256
  fsxMaxEmv := 256
  fsxMaxIso := 256
  listenerRules := .iso
  txFlags := 0

/-- `IDLE` in a valid session. -/
def idle : State :=
  { State.reset with
    prm := vectorParams
    cfg := { mode := .iso, maxI := 2, maxR := 2, maxS := 2 }
    ses := { valid := true, dFwt := 49152, ourFsx := 256, nad := none }
    ctx := Ctx.cleared }

def withCtx (g : Ctx → Ctx) (s : State) : State := { s with ctx := g s.ctx }
def withOurFsx (f : Nat) (s : State) : State := { s with ses := { s.ses with ourFsx := f } }
def withFwtDsl (w : Nat) (s : State) : State := { s with prm := { s.prm with fwtDsl := w } }
/-- The state before any `SET_SESSION`. -/
def noSession (s : State) : State := { s with ses := { s.ses with valid := false } }
def withMode (m : Mode) (s : State) : State := { s with cfg := { s.cfg with mode := m } }
def withCmd (i : Instr) (s : State) : State :=
  match encode i with
  | .cmd c => { s with cmd := some c }
  | .pcb _ => s
/-- An operation is pending and the transport will answer `l`. -/
def answering (l : List TStatus) (s : State) : State :=
  { s with tr := { s.tr with pend := some { frame := [], bitLen := 0, rxCap := 254, flags := 0, fwt := 0 }, answers := l } }
/-- The frame `f` is in the receive buffer. -/
def received (f : List Byte) (s : State) : State := { s with tr := { s.tr with rxBuf := f } }

/-- A poller in `RX`. -/
def poller (bn : Bool) : State :=
  withCtx (fun c => { c with st := .rx, bn := bn, fwt := 65536, fsx := 64, rxCap := 32, lastI := [0x02#8] }) idle
/-- A listener in `RX`, and one that has sent nothing yet. -/
def listener (bn : Bool) (last : List Byte) : State :=
  withCtx (fun c => { c with st := .rx, role := .listener, bn := bn, fwt := 65536, fsx := 64, rxCap := 64, lastFrame := last }) idle
def activated : State := withCtx (fun c => { c with st := .activated }) (listener true [])
/-- Iteration `n` of a `DESELECT`. -/
def deselecting (n : Nat) : State := withCtx (fun c => { c with st := .waitDeselect, dslIter := some n }) idle
def chaining (s : State) : State := withCtx (fun c => { c with txChaining := true, lastI := [0x12#8, 0x01#8, 0x02#8] }) s

/-- What a test looks at after a step: result, state, block number, submitted frame and its frame-waiting time. -/
structure Seen where
  result : Result
  st : St
  bn : Bool
  frame : Option (List Byte)
  fwt : Option Nat
  deriving DecidableEq, Repr

def seen (o : Outcome) : Option Seen :=
  match o with
  | .next t => some ⟨t.out.result, t.ctx.st, t.ctx.bn, t.tr.pend.map (·.frame), t.tr.pend.map (·.fwt)⟩
  | _ => none
def valueOf (o : Outcome) : Option (Result × Nat) :=
  match o with
  | .next t => some (t.out.result, t.out.value)
  | _ => none
def dataOf (o : Outcome) : Option (Result × List Byte) :=
  match o with
  | .next t => some (t.out.result, t.out.rxData)
  | _ => none
def countsOf (o : Outcome) : Option (Nat × Nat × Nat) :=
  match o with
  | .next t => some (t.ctx.cntI, t.ctx.cntR, t.ctx.cntS)
  | _ => none
def isRefused (o : Outcome) : Bool :=
  match o with
  | .refused _ => true
  | _ => false

/-! ### Vectors: queries and link commands -/

/-- V-E3, and the example of R167. -/
theorem test_encodeHdr : valueOf (exec (.encodeHdr .sWtx true true false true) idle) = some (.done, 0xF2) ∧
    valueOf (exec (.encodeHdr .rNak true false false false) idle) = some (.done, 0xB3) := by decide
/-- V-D1. -/
theorem test_decodeHdr : valueOf (exec (.decodeHdr 0x1B#8) idle) = some (.done, 0x59) ∧
    valueOf (exec (.decodeHdr 0xAB#8) idle) = some (.done, 0x52) ∧ valueOf (exec (.decodeHdr 0xD2#8) idle) = some (.done, 0) := by
  decide
/-- V-T1. -/
theorem test_fwi2fwt : valueOf (exec (.fwi2fwt 7#4) idle) = some (.done, 524288) ∧
    valueOf (exec (.fwi2fwt 15#4) idle) = some (.done, 65536) := by decide
/-- V-T2. -/
theorem test_sfgi2sfgt : valueOf (exec (.sfgi2sfgt 15#4) idle) = some (.done, 146800640) ∧
    valueOf (exec (.sfgi2sfgt 0#4) idle) = some (.done, 9000) := by decide
/-- V-C2, and that power-on refuses every other command (V-C1). -/
theorem test_init : seen (exec (.init .iso 2 2 2) State.reset) = some ⟨.done, .idle, false, none, none⟩ ∧
    isRefused (exec .poll State.reset) = true := by decide
/-- V-C18: `INIT` in the middle of an exchange cancels the transport. -/
theorem test_init_cancels : seen (exec (.init .iso 1 1 1) (answering [] (poller true))) = some ⟨.done, .idle, false, none, none⟩ := by
  decide
/-- V-C4, V-C5. -/
theorem test_setSession : dataOf (exec (.setSession 0 2 none) idle) = some (.parameterError, []) ∧
    dataOf (exec (.setSession 0 256 (some 5#8)) (withMode .nfcForum idle)) = some (.parameterError, []) := by decide
/-- V-C6, V-C7. -/
theorem test_startTx_length :
    seen (exec (.startTx (List.replicate 14 0#8) 13 false 32 65536 16 none) idle) = some ⟨.done, .tx, false, none, none⟩ ∧
    seen (exec (.startTx (List.replicate 14 0#8) 14 false 32 65536 16 none) idle) =
      some ⟨.parameterError, .idle, false, none, none⟩ := by decide
/-- V-C11, V-C12. -/
theorem test_startTx_did :
    seen (exec (.startTx [0#8] 1 false 32 65536 64 (some 15#8)) idle) = some ⟨.parameterError, .idle, false, none, none⟩ ∧
    seen (exec (.startTx [0#8] 1 false 32 65536 64 (some 0#8)) (withMode .emv idle)) =
      some ⟨.parameterError, .idle, false, none, none⟩ := by decide
/-- V-C14. -/
theorem test_poll_tx :
    seen (exec .poll (withCtx (fun c => { c with st := .tx, txInf := [0x00#8, 0xA4#8], fwt := 65536 }) idle)) =
      some ⟨.busy, .rx, false, some [0x02#8, 0x00#8, 0xA4#8], some 114688⟩ := by decide
/-- V-C15, V-C16. -/
theorem test_getMaxPayload :
    valueOf (exec .getMaxPayload (withCtx (fun c => { c with fsx := 256, did := some 1#4 }) idle)) = some (.done, 252) ∧
    valueOf (exec .getMaxPayload idle) = some (.done, 0) := by decide
/-- V-C17. -/
theorem test_listenStart :
    seen (exec (.listenStart 64 65536 64 none) idle) = some ⟨.done, .activated, true, some [], some 114688⟩ := by decide

/-! ### Vectors: received blocks -/

/-- V-P6, V-P8. -/
theorem test_iFinal : seen (exec .poll (answering [.done [0x02#8, 0x90#8, 0x00#8]] (poller false))) =
      some ⟨.done, .idle, true, none, none⟩ ∧
    seen (exec .poll (answering [.done [0x03#8, 0x90#8, 0x00#8]] (withMode .emv (poller false)))) =
      some ⟨.protocolError, .idle, false, none, none⟩ := by decide
/-- V-P30: a DID in use, bits 7:4 of its byte ignored, the header stripped. -/
theorem test_iFinal_did :
    dataOf (exec .poll (answering [.done [0x0A#8, 0xC1#8, 0x90#8, 0x00#8]] (withCtx (fun c => { c with did := some 1#4 }) (poller false)))) =
      some (.done, [0x90#8, 0x00#8]) := by decide
/-- V-P9, V-L2. -/
theorem test_iChain : seen (exec .poll (answering [.done [0x12#8, 0x01#8, 0x02#8]] (poller false))) =
      some ⟨.partialData, .rx, true, some [0xA3#8], some 114688⟩ ∧
    seen (exec .poll (answering [.done [0x12#8, 0x00#8, 0xA4#8]] activated)) =
      some ⟨.partialData, .rx, false, some [0xA2#8], some 114688⟩ := by decide
/-- V-P10: a mismatched chained block is acknowledged again and uses no counter. -/
theorem test_iChain_mismatch : seen (exec .poll (answering [.done [0x13#8, 0x01#8, 0x02#8]] (poller false))) =
      some ⟨.busy, .rx, false, some [0xA2#8], some 114688⟩ ∧
    countsOf (exec .poll (answering [.done [0x13#8, 0x01#8, 0x02#8]] (poller false))) = some (0, 0, 0) := by decide
/-- V-P12, V-L8. -/
theorem test_rAck : seen (exec .poll (answering [.done [0xA3#8]] (chaining (poller false)))) =
      some ⟨.busy, .rx, false, some [0x12#8, 0x01#8, 0x02#8], some 114688⟩ ∧
    seen (exec .poll (answering [.done [0xA3#8]] (chaining (listener false [])))) = some ⟨.done, .idle, true, none, none⟩ := by decide
/-- V-P14: property 7. -/
theorem test_rAck_unexpected : seen (exec .poll (answering [.done [0xA3#8]] (poller false))) =
    some ⟨.protocolError, .idle, false, none, none⟩ := by decide
/-- V-L3, V-L5. -/
theorem test_rNak : seen (exec .poll (answering [.done [0xB2#8]] activated)) = some ⟨.busy, .rx, true, some [0xA3#8], some 114688⟩ ∧
    seen (exec .poll (answering [.done [0xB2#8]] (listener false [0x02#8, 0x90#8, 0x00#8]))) =
      some ⟨.busy, .rx, false, some [0x02#8, 0x90#8, 0x00#8], some 114688⟩ := by decide
/-- V-P15, V-L4. -/
theorem test_rNak_rejected : seen (exec .poll (answering [.done [0xB2#8]] (poller false))) =
      some ⟨.protocolError, .idle, false, none, none⟩ ∧
    seen (exec .poll (answering [.done [0xB3#8]] activated)) = some ⟨.protocolError, .idle, true, none, none⟩ := by decide
/-- V-P21, V-L10. -/
theorem test_sDsl : seen (exec .poll (answering [.done [0xC2#8]] (poller false))) = some ⟨.protocolError, .idle, false, none, none⟩ ∧
    seen (exec .poll (answering [.done [0xC2#8]] (listener true [0x03#8]))) =
      some ⟨.deselected, .idle, false, some [0xC2#8], some 114688⟩ := by decide
/-- V-P17, V-P18. -/
theorem test_sWtx : seen (exec .poll (answering [.done [0xF2#8, 0xFB#8]] (poller false))) =
      some ⟨.busy, .rx, false, some [0xF2#8, 0x3B#8], some 3915776⟩ ∧
    seen (exec .poll (answering [.done [0xF2#8, 0x3C#8]] (poller false))) = some ⟨.protocolError, .idle, false, none, none⟩ := by
  decide
/-- V-P20, V-L12. -/
theorem test_sWtx_rejected :
    seen (exec .poll (answering [.done [0xF2#8, 0x01#8]] (withCtx (fun c => { c with cntS := 2 }) (poller false)))) =
      some ⟨.protocolError, .idle, false, none, none⟩ ∧
    seen (exec .poll (answering [.done [0xF2#8, 0x01#8]] (listener false []))) = some ⟨.protocolError, .idle, false, none, none⟩ := by
  decide

/-! ### Vectors: transmission errors, deselect -/

/-- V-P3, V-P4, V-P5. -/
theorem test_errors : seen (exec .poll (answering [.error .timeout] (poller false))) =
      some ⟨.busy, .rx, false, some [0xB2#8], some 114688⟩ ∧
    seen (exec .poll (answering [.error .timeout] (withCtx (fun c => { c with cntR := 2 }) (poller false)))) =
      some ⟨.timeout, .idle, false, none, none⟩ ∧
    seen (exec .poll (answering [.error .crc] (withCtx (fun c => { c with rxChaining := true }) (poller true)))) =
      some ⟨.busy, .rx, true, some [0xA3#8], some 114688⟩ := by decide
/-- V-L9. -/
theorem test_listener_error :
    seen (exec .poll (answering [.error .timeout] (listener false []))) = some ⟨.busy, .rx, false, some [], some 114688⟩ := by decide
/-- V-S1: the start, and the iteration that receives S(DESELECT). -/
theorem test_deselect : seen (step (withCmd .deselect idle)) =
      some ⟨.done, .waitDeselect, false, some [0xC2#8], some 16777216⟩ ∧
    seen (step (answering [.done [0xC2#8]] (deselecting 0))) = some ⟨.done, .idle, false, none, none⟩ := by decide
/-- V-S4, V-S5: the cap cancels the transport; another block ends the procedure. -/
theorem test_deselect_ends : seen (step (answering [.busy] (deselecting 8))) = some ⟨.timeout, .idle, false, none, none⟩ ∧
    seen (step (answering [.done [0x02#8, 0x90#8, 0x00#8]] (deselecting 0))) =
      some ⟨.protocolError, .idle, false, none, none⟩ := by decide
/-- V-S6, V-S9: link loss, and an answer without the DID in use, end the procedure. -/
theorem test_deselect_fails : seen (step (answering [.linkLoss] (deselecting 0))) = some ⟨.linkLoss, .idle, false, none, none⟩ ∧
    seen (step (answering [.done [0xC2#8]] (withCtx (fun c => { c with did := some 3#4 }) (deselecting 0)))) =
      some ⟨.protocolError, .idle, false, none, none⟩ := by decide
/-- R197: `FWT_DSL` equal to `fwtNormal()` runs; one less is refused; before any session there is nothing to compare. -/
theorem test_deselect_window : seen (exec .deselect (withFwtDsl 49152 idle)) = some ⟨.done, .waitDeselect, false, some [0xC2#8], some 49152⟩ ∧
    exec .deselect (withFwtDsl 49151 idle) = .refused .deselectWindow ∧
    seen (exec .deselect (noSession (withFwtDsl 0 idle))) = some ⟨.done, .waitDeselect, false, some [0xC2#8], some 0⟩ :=
  ⟨by decide, rfl, by decide⟩
/-- R413: a command that is not admitted is refused for that, whatever its arguments; an admitted one for its argument; a reserved code
as one in every state (log entry 7). -/
theorem test_refusal_order :
    step { State.reset with cmd := some { op := 0x0A#8, args := { fwi := 16 } } } = .refused .notAdmitted ∧
    step { idle with cmd := some { op := 0x0A#8, args := { fwi := 16 } } } = .refused (.argumentRange .fwi) ∧
    step { State.reset with cmd := some { op := 0x0C#8 } } = .refused .unknownCode := by refine ⟨rfl, rfl, rfl⟩
/-- R82, R81: a read ends with its buffer's last byte, a write with the capacity; beyond them each faults. -/
theorem test_buffer_bounds : memRead [1#8, 2#8, 3#8] 1 2 = .ok [2#8, 3#8] ∧ memRead [1#8, 2#8, 3#8] 2 2 = .error .bufferBounds ∧
    memByte [1#8, 2#8] 1 = .ok 2#8 ∧ memByte [1#8, 2#8] 2 = .error .bufferBounds ∧
    memWrite [1#8, 2#8] 3 1 [7#8, 8#8] = .ok [1#8, 7#8, 8#8] ∧ memWrite [1#8, 2#8] 2 1 [7#8, 8#8] = .error .bufferBounds := by
  refine ⟨rfl, rfl, rfl, rfl, rfl, rfl⟩
/-- R82: accesses whose checks are left out fault: `START_TX`'s, the stripping of a header (R90), `lastFrame[0]`. -/
theorem test_buffer_faults : exec (.startTx [0#8] 2 false 0 0 256 none) idle = .fault .bufferBounds ∧
    deliver 1 (received (List.replicate 34 0#8) (poller false)) = .error .bufferBounds ∧
    (deliver 1 (received (List.replicate 33 0#8) (poller false))).toBool = true ∧
    (deliver 2 (received [0#8] (poller false))).toBool = false ∧
    resendLast (listener true []) = .error .bufferBounds := by refine ⟨rfl, rfl, rfl, rfl, rfl⟩
/-- A placed table word is what the next step runs, also right after reset, there at the power-on values of log entry 2. -/
theorem test_withFetchWord : seen (step (State.reset.withFetchWord 8 0x01)) = some ⟨.done, .idle, false, none, none⟩ ∧
    seen (step ((poller false).withFetchWord 8 0xF2)) = some ⟨.protocolError, .idle, false, none, none⟩ ∧
    seen (step (idle.withFetchWord 8 0x12)) = some ⟨.partialData, .rx, true, some [0xA3#8], some 49152⟩ ∧
    seen (step (State.reset.withFetchWord 8 0x40)) = some ⟨.protocolError, .idle, false, none, none⟩ ∧
    seen (step (State.reset.withFetchWord 8 0xB2)) = some ⟨.protocolError, .idle, false, none, none⟩ := by decide

/-! ### Witnesses: for each obligation with hypotheses, a state (and operands) that meets them, clause by clause, at the ends of
its ranges -/

/-- A frame of `k` INF bytes behind `pcb` in the poller's, the listener's or the deselecting poller's receive buffer. -/
def got (pcb : Byte) (k : Nat) (s : State) : State := received (pcb :: List.replicate k 0#8) s

theorem witness_ResetLeavesPowerOnState :
    State.reset.ctx.st = .uninit ∧ (noSession idle).ses.valid = false ∧ Ses.reset.valid = false ∧
    (∃ t, step (withCmd (.setSession 0 3 none) (noSession idle)) = .next t ∧ t.ses.valid = true) ∧
    (∃ t, step (withCmd .deselect (noSession idle)) = .next t ∧ t.ses.valid = false) ∧
    (∃ r, step (withCmd .poll (noSession idle)) = .refused r) := by
  refine ⟨rfl, rfl, rfl, ⟨_, rfl, rfl⟩, ⟨_, rfl, rfl⟩, ⟨_, rfl⟩⟩
theorem witness_DecodeOfEncodeIsTheInstruction :
    (Instr.init .iso 255 255 255).WellFormed ∧ (Instr.startTx [0#8] 1 true 65535 0 65535 (some 255#8)).WellFormed := by decide
theorem witness_EncodeOfDecodedHeaderIsTheByte : decode (.pcb 0x1F#8) = .ok (.iChain true true true) := by rfl
theorem witness_CommandsDecodeExactlyInRange : decode (.cmd { op := 0x08#8, args := { kind := 5 } }) =
    .ok (.encodeHdr .sWtx false false false false) := by rfl
theorem witness_StepRunsTheDecodedCommand :
    begins { op := 0x04#8 } (withCmd .poll idle) idle ∧ decode (.cmd { op := 0x04#8 }) = .ok .poll ∧
    begins { op := 0x05#8 } ({ idle with host := [{ op := 0x05#8 }] } : State) idle ∧
    decode (.cmd { op := 0x05#8 }) = .ok .deselect ∧ decode (.cmd { op := 0x00#8 }) = .error .unknownCode ∧
    decode (.cmd { op := 0x0A#8, args := { fwi := 16 } }) = .error (.argument .fwi) ∧
    decode (.cmd { op := 0x0A#8, args := { fwi := 15 } }) = .ok (.fwi2fwt 15#4) ∧
    exec (.fwi2fwt 15#4) State.reset = .refused .notAdmitted ∧ exec (.fwi2fwt 15#4) idle ≠ .refused .notAdmitted :=
  ⟨.inl ⟨rfl, rfl⟩, rfl, .inr ⟨rfl, rfl, [], rfl, rfl⟩, rfl, rfl, rfl, rfl, rfl, fun h => by cases h⟩
theorem witness_ReceptionRunsTheDecodedBlock :
    decode (.pcb 0xC2#8) = .ok (.sDsl false) ∧ pollerAwaits (answering [.done [0xC2#8]] (poller false)) ∧
    listenerAwaits (answering [.done [0xC2#8]] activated) ∧ deselectAwaits 7 (answering [.done [0xC2#8]] (deselecting 7)) ∧
    (answering [.done [0xC2#8]] (deselecting 7)).tr.pend ≠ none ∧ (deselecting 7).cmd = none ∧ 7 ≠ (deselecting 7).prm.dslCap := by
  decide
theorem witness_UninitRefusesAllButInit : isBlock .poll = false ∧ State.reset.ctx.st = .uninit ∧ ∀ m a b c, Instr.poll ≠ .init m a b c :=
  ⟨rfl, rfl, fun _ _ _ _ h => by cases h⟩
theorem witness_AdmissionTableDecides : ∃ k b c d n, Instr.encodeHdr .i true false true false = .encodeHdr k b c d n :=
  ⟨_, _, _, _, _, rfl⟩
theorem witness_BlocksRunOnlyInAReception : isBlock (.rAck true false) = true := rfl
theorem witness_InitResetsTheLinkContext : (poller true).ctx.dslIter = none ∧ (poller true).ctx.st ≠ .waitDeselect := by decide
theorem witness_SetSessionStoresOrReports :
    idle.ctx.st = .idle ∧ idle.ctx.dslIter = none ∧
    (2 < 3 ∧ 3 ≤ fsxMax idle.prm idle.cfg.mode ∧ (some 5#8 = (none : Option Byte) ∨ idle.cfg.mode = .iso)) ∧
    (2 < 256 ∧ 256 ≤ fsxMax idle.prm idle.cfg.mode) ∧ ¬(2 < 2) ∧ ¬(257 ≤ fsxMax idle.prm idle.cfg.mode) := by decide
theorem didAccepted_fourteen : didAccepted (some 14#8) idle := fun v h => by cases h; decide
theorem not_didAccepted_fifteen : ¬didAccepted (some 15#8) idle := fun h => absurd (h 15#8 rfl).1 (by decide)
theorem witness_StartTxArmsOrReports :
    idle.ctx.st = .idle ∧ idle.ctx.dslIter = none ∧ idle.ses.valid = true ∧ 12 ≤ (List.replicate 12 0#8).length ∧
    (List.replicate 11 0#8).length < 12 ∧
    (didAccepted (some 14#8) idle ∧ 16 ≤ fsxMax idle.prm idle.cfg.mode ∧ argHdrLen (some 14#8) idle + 2 ≤ 16 ∧
      12 ≤ 16 - argHdrLen (some 14#8) idle - 2) ∧
    ¬(didAccepted (some 15#8) idle) ∧ ¬(13 ≤ 16 - argHdrLen (some 14#8) idle - 2) ∧ ¬(argHdrLen none idle + 2 ≤ 2) ∧
    ¬(257 ≤ fsxMax idle.prm idle.cfg.mode) :=
  ⟨rfl, rfl, rfl, by decide, by decide, ⟨didAccepted_fourteen, by decide, by decide, by decide⟩, not_didAccepted_fifteen,
    by decide, by decide, by decide⟩
theorem witness_PollInTxSendsThePendingBlock :
    (withCtx (fun c => { c with st := .tx, role := .listener }) idle).ctx.st = .tx ∧ idle.ctx.dslIter = none := by decide
theorem witness_ListenStartArmsOrReports :
    idle.ctx.st = .idle ∧ idle.ctx.dslIter = none ∧ idle.ses.valid = true ∧ idle.prm.listenerRules = .iso ∧
    (didAccepted (some 14#8) idle ∧ 4 ≤ fsxMax idle.prm idle.cfg.mode ∧ argHdrLen (some 14#8) idle + 2 ≤ 4) ∧
    ¬(didAccepted (some 15#8) idle) ∧ ¬(argHdrLen (some 14#8) idle + 2 ≤ 3) :=
  ⟨rfl, rfl, rfl, rfl, ⟨didAccepted_fourteen, by decide, by decide⟩, not_didAccepted_fifteen, by decide⟩
theorem witness_GetMaxPayloadAnswers : idle.ctx.dslIter = none ∧
    (activated.ctx.st = .activated ∨ activated.ses.valid = true ∧ activated.ctx.st = .idle) ∧
    (idle.ses.valid = true ∧ idle.ctx.st = .idle) ∧ (poller true).ses.valid = true ∧ (poller true).ctx.st = .rx := by decide
theorem witness_GetMaxPayloadIsTheLargestAdmitted :
    let s := withCtx (fun c => { c with fsx := 16, did := some 14#4 }) idle
    s.ctx.st = .idle ∧ s.ctx.dslIter = none ∧ s.ses.valid = true ∧ 12 ≤ (List.replicate 12 0#8).length ∧
    (some 14#8).map (fun v => v.truncate 4) = s.ctx.did ∧ didAccepted (some 14#8) s ∧ s.ctx.fsx ≤ fsxMax s.prm s.cfg.mode ∧
    argHdrLen (some 14#8) s + 2 ≤ s.ctx.fsx ∧ ∃ t, exec .getMaxPayload s = .next t :=
  ⟨rfl, rfl, rfl, by decide, rfl, fun v h => by cases h; decide, by decide, by decide, _, rfl⟩
/-- For the four queries: `EncodeHdrAnswersTheByte`, `DecodeHdrAnswersThePackedHeader`, `Fwi2FwtAnswers`, `Sfgi2SfgtAnswers`. -/
theorem witness_QueriesAnswer : idle.ctx.dslIter = none ∧ idle.ctx.st = .idle ∧ (poller true).ctx.st = .rx ∧
    activated.ctx.st = .activated ∧ decode (.pcb 0xD2#8) = .error .invalidHeader ∧
    decode (.pcb 0x1F#8) = .ok (.iChain true true true) ∧ decode (.pcb 0x02#8) = .ok (.iFinal false false false) ∧
    decode (.pcb 0xAB#8) = .ok (.rAck true true) ∧ decode (.pcb 0xB2#8) = .ok (.rNak false false) ∧
    decode (.pcb 0xCA#8) = .ok (.sDsl true) ∧ decode (.pcb 0xF2#8) = .ok (.sWtx false) ∧
    (14#4).toNat ≤ 14 ∧ (0#4).toNat ≤ 14 ∧ (15#4).toNat = 15 ∧ 15#4 ≠ 0#4 :=
  ⟨rfl, rfl, rfl, rfl, rfl, rfl, rfl, rfl, rfl, rfl, rfl, by decide, by decide, rfl, by decide⟩
theorem witness_DeselectStartsTheProcedure :
    (poller true).ctx.role = .poller ∧ (poller true).ctx.st = .rx ∧ idle.ctx.role = .poller ∧ idle.ctx.st = .idle ∧
    (poller true).ctx.dslIter = none ∧ windowIsLarger (withFwtDsl 114688 (poller true)) ∧
    ¬windowIsLarger (withFwtDsl 114687 (poller true)) ∧ windowIsLarger (noSession (withFwtDsl 0 (poller true))) := by decide
theorem witness_PollAlwaysCompletes : (poller true).ctx.dslIter = none ∧ pollerAwaits (poller true) ∧ listenerAwaits activated ∧
    (withCtx (fun c => { c with st := .tx }) idle).ctx.st = .tx := by decide
theorem witness_RetryStepCountsOrExhausts :
    retryStep .r (withCtx (fun c => { c with cntR := 2 }) (poller false)) = none ∧
    retryStep .r (withCtx (fun c => { c with cntR := 1 }) (poller false)) =
      some (withCtx (fun c => { c with cntR := 2 }) (poller false)) := by decide
theorem witness_TransportAnswersOnce :
    let s (a : TStatus) := answering [a] (poller false)
    (s .busy).tr.pend ≠ none ∧ (s .busy).tr.answers = [.busy] ∧ (s (.done [])).tr.answers = [.done []] ∧
    (s (.error .crc)).tr.answers = [.error .crc] ∧ (s .linkLoss).tr.answers = [.linkLoss] := by decide
theorem witness_BusyWaitsAndLinkLossEnds :
    pollerAwaits (answering [.busy] (poller false)) ∧ listenerAwaits (answering [.linkLoss] activated) ∧
    (answering [.busy] (poller false)).tr.pend ≠ none ∧ (answering [.linkLoss] activated).tr.pend ≠ none ∧
    deselectAwaits 7 (answering [.busy] (deselecting 7)) ∧ (answering [.busy] (deselecting 7)).tr.pend ≠ none ∧
    deselectAwaits 0 (answering [.linkLoss] (deselecting 0)) ∧ (deselecting 7).cmd = none ∧ 7 ≠ (deselecting 7).prm.dslCap := by decide
theorem witness_PollerRecoversFromErrors :
    let s := answering [.error .timeout] (poller false)
    pollerAwaits s ∧ s.tr.pend ≠ none ∧ s.tr.answers = [.error .timeout] ∧
    (s.cfg.mode, TxError.timeout) ∉ s.prm.bailOn ∧ s.ctx.cntR + 1 ≤ s.cfg.maxR ∧ s.ctx.rxChaining = false ∧
    (withCtx (fun c => { c with rxChaining := true, cntR := 1 }) s).ctx.cntR + 1 ≤ s.cfg.maxR ∧
    s.cfg.maxR < (withCtx (fun c => { c with cntR := 2 }) s).ctx.cntR + 1 ∧
    (s.cfg.mode, TxError.timeout) ∈ { vectorParams with bailOn := [(.iso, .timeout)] }.bailOn := by decide
theorem witness_HeaderCheckFailureEndsTheExchange :
    isBlock (.iFinal true false false) = true ∧ pollerAwaits (got 0x0A#8 1 (poller false)) ∧
    headerCheck (hasDid (.iFinal true false false)) (hasNad (.iFinal true false false)) (got 0x0A#8 1 (poller false)) = .ok false ∧
    listenerAwaits (got 0x02#8 14 (withOurFsx 16 activated)) ∧
    headerCheck false false (got 0x02#8 14 (withOurFsx 16 activated)) = .ok false ∧
    headerCheck false false (got 0x02#8 13 (withOurFsx 16 activated)) = .ok true ∧
    isBlock (.sDsl true) = true ∧ deselectAwaits 7 (got 0xCA#8 1 (deselecting 7)) ∧
    headerCheck (hasDid (.sDsl true)) (hasNad (.sDsl true)) (got 0xCA#8 1 (deselecting 7)) = .ok false := by decide
theorem witness_MalformedFrameEndsTheExchange :
    let s := answering [.done [0x40#8]] (poller false)
    pollerAwaits s ∧ s.tr.pend ≠ none ∧ s.tr.answers = [.done [0x40#8]] ∧
    (∃ pcb g, [0x40#8] = pcb :: g ∧ decode (.pcb pcb) = .error .invalidHeader) ∧ listenerAwaits (answering [.done []] activated) ∧
    deselectAwaits 7 (answering [.done []] (deselecting 7)) ∧ (deselecting 7).cmd = none ∧ 7 ≠ (deselecting 7).prm.dslCap ∧
    (answering [.done []] (deselecting 7)).tr.pend ≠ none :=
  ⟨by decide, by decide, rfl, ⟨_, _, rfl, rfl⟩, by decide, by decide, by decide, by decide, by decide⟩
theorem witness_PollerAnswersWtx :
    pollerAwaits (received [0xF2#8, 0x3B#8] (poller false)) ∧ passes false false (received [0xF2#8, 0x3B#8] (poller false)) ∧
    (rxFrame (received [0xF2#8, 0x3B#8] (poller false))).drop (hdrLen false false) = [0x3B#8] ∧ (0x3B#8).toNat % 64 = 59 ∧
    (0xC1#8).toNat % 64 = 1 ∧ (0x3C#8).toNat % 64 = 60 ∧ (0x40#8).toNat % 64 = 0 ∧ (poller false).ctx.cntS + 1 ≤ (poller false).cfg.maxS ∧
    (poller false).cfg.maxS < (withCtx (fun c => { c with cntS := 2 }) (poller false)).ctx.cntS + 1 ∧
    passes false false (got 0xF2#8 0 (poller false)) ∧ infLen false false (got 0xF2#8 0 (poller false)) ≠ 1 ∧
    infLen false false (got 0xF2#8 2 (poller false)) ≠ 1 := by decide
theorem witness_PollerAckDuringChaining :
    let s := got 0xA2#8 0 (chaining (poller false))
    pollerAwaits s ∧ passes false false s ∧ s.ctx.txChaining = true ∧ infLen false false s = 0 ∧ false = s.ctx.bn ∧ true ≠ s.ctx.bn ∧
    s.ctx.cntI + 1 ≤ s.cfg.maxI ∧ s.cfg.maxI < (withCtx (fun c => { c with cntI := 2 }) s).ctx.cntI + 1 ∧
    passes false false (got 0xA2#8 1 (chaining (poller false))) ∧ infLen false false (got 0xA2#8 1 (chaining (poller false))) ≠ 0 := by
  decide
theorem witness_PollerRejectsOtherRBlocks :
    pollerAwaits (got 0xB2#8 0 (poller false)) ∧ passes false false (got 0xB2#8 0 (poller false)) ∧
    (poller false).ctx.txChaining = false := by decide
/-- For `PollerAcceptsChainedBlock`, `PollerReacksMismatchedChainedBlock`, `PollerAcceptsFinalBlock`, `PollerMismatchedFinalBlock`. -/
theorem witness_PollerIBlocks :
    let s (k : Nat) := got 0x12#8 k (poller false)
    pollerAwaits (s 32) ∧ passes false false (s 32) ∧ (s 32).ctx.txChaining = false ∧ false = (s 32).ctx.bn ∧ true ≠ (s 32).ctx.bn ∧
    infLen false false (s 32) ≤ (s 32).ctx.rxCap ∧ passes false false (s 33) ∧ (s 33).ctx.rxCap < infLen false false (s 33) ∧
    (withMode .emv (s 0)).cfg.mode = .emv ∧ passes false false (withMode .emv (s 0)) ∧ (s 0).cfg.mode = .iso ∧
    (s 0).ctx.cntR + 1 ≤ (s 0).cfg.maxR ∧ (s 0).cfg.maxR < (withCtx (fun c => { c with cntR := 2 }) (s 0)).ctx.cntR + 1 := by decide
theorem witness_IBlockWhileChainingIsRejected :
    pollerAwaits (got 0x02#8 0 (chaining (poller false))) ∧ passes false false (got 0x02#8 0 (chaining (poller false))) ∧
    listenerAwaits (got 0x02#8 0 (chaining (listener false []))) ∧ (chaining (listener false [])).ctx.txChaining = true ∧
    passes false false (got 0x02#8 0 (chaining (listener false []))) := by decide
theorem witness_PollerReceivesDeselect :
    passes false false (got 0xC2#8 0 (poller false)) ∧ pollerAwaits (got 0xC2#8 0 (poller false)) ∧
    deselectAwaits 0 (got 0xC2#8 0 (deselecting 0)) ∧ passes false false (got 0xC2#8 0 (deselecting 0)) ∧
    infLen false false (got 0xC2#8 0 (deselecting 0)) = 0 ∧ passes false false (got 0xC2#8 1 (deselecting 0)) ∧
    infLen false false (got 0xC2#8 1 (deselecting 0)) ≠ 0 := by decide
theorem witness_OtherBlockEndsTheDeselect :
    isBlock (.iFinal false true false) = true ∧ (∀ d, Instr.iFinal false true false ≠ .sDsl d) ∧
    deselectAwaits 1 (got 0x06#8 1 (deselecting 1)) ∧
    passes (hasDid (.iFinal false true false)) (hasNad (.iFinal false true false)) (got 0x06#8 1 (deselecting 1)) :=
  ⟨rfl, fun _ h => (by cases h), by decide, by decide⟩
theorem witness_ListenerRearmsOnErrors :
    let s := answering [.error .crc] activated
    listenerAwaits s ∧ s.tr.pend ≠ none ∧ s.tr.answers = [.error .crc] ∧ (s.cfg.mode, TxError.crc) ∉ s.prm.bailOn ∧
    (s.cfg.mode, TxError.crc) ∈ { vectorParams with bailOn := [(.iso, .crc)] }.bailOn := by decide
theorem witness_ListenerAcceptsIBlocks :
    let s (k : Nat) := got 0x12#8 k activated
    listenerAwaits (s 64) ∧ passes false false (s 64) ∧ (s 64).ctx.txChaining = false ∧
    infLen false false (s 64) ≤ (s 64).ctx.rxCap ∧ passes false false (s 65) ∧ (s 65).ctx.rxCap < infLen false false (s 65) := by
  decide
theorem witness_ListenerRetransmits :
    let s := got 0xB2#8 0 (listener false [0x02#8, 0x90#8])
    listenerAwaits s ∧ passes false false s ∧ infLen false false s = 0 ∧ false = s.ctx.bn ∧ s.ctx.lastFrame = 0x02#8 :: [0x90#8] ∧
    decodePcb 0x02#8 ≠ .invalid ∧ s.ctx.cntI + 1 ≤ s.cfg.maxI ∧ s.cfg.maxI < (withCtx (fun c => { c with cntI := 2 }) s).ctx.cntI + 1 ∧
    (got 0xB3#8 0 activated).ctx.lastFrame = [] ∧ true = activated.ctx.bn := by decide
theorem witness_ListenerAnswersNak :
    let s := got 0xB2#8 0 activated
    listenerAwaits s ∧ passes false false s ∧ infLen false false s = 0 ∧ false ≠ s.ctx.bn ∧ s.ctx.cntR + 1 ≤ s.cfg.maxR ∧
    s.cfg.maxR < (withCtx (fun c => { c with cntR := 2 }) s).ctx.cntR + 1 := by decide
theorem witness_ListenerChainIsAcknowledged :
    let s := got 0xA3#8 0 (chaining (listener false [0x12#8]))
    listenerAwaits s ∧ passes false false s ∧ infLen false false s = 0 ∧ true ≠ s.ctx.bn ∧ s.ctx.txChaining = true ∧
    (listener false []).ctx.txChaining = false ∧ passes false false (got 0xA3#8 1 (listener false [])) ∧
    infLen false false (got 0xA3#8 1 (listener false [])) ≠ 0 := by decide
theorem witness_ListenerRejectsWtx :
    listenerAwaits (got 0xF2#8 1 activated) ∧ passes false false (got 0xF2#8 1 activated) := by decide
theorem witness_ListenerAnswersDeselect :
    let s (k : Nat) := got 0xC2#8 k (listener true [0x03#8])
    listenerAwaits (s 0) ∧ passes false false (s 0) ∧ infLen false false (s 0) = 0 ∧ passes false false (s 1) ∧
    infLen false false (s 1) ≠ 0 := by decide
theorem witness_DeselectIterationCountsOrEnds :
    deselectAwaits 8 (deselecting 8) ∧ (deselecting 8).cmd = none ∧ 8 = (deselecting 8).prm.dslCap ∧
    deselectAwaits 7 (deselecting 7) ∧ 7 ≠ (deselecting 7).prm.dslCap := by decide
theorem witness_DeselectResendsOnErrors :
    let s := answering [.error .parity] (deselecting 7)
    deselectAwaits 7 s ∧ s.ctx.rxChaining = false ∧ s.cmd = none ∧ 7 ≠ s.prm.dslCap ∧ s.tr.pend ≠ none ∧
    s.tr.answers = [.error .parity] ∧ (s.cfg.mode, TxError.parity) ∉ s.prm.bailOn ∧ s.ctx.cntR + 1 ≤ s.cfg.maxR ∧
    s.cfg.maxR < (withCtx (fun c => { c with cntR := 2 }) s).ctx.cntR + 1 ∧
    (s.cfg.mode, TxError.parity) ∈ { vectorParams with bailOn := [(.iso, .parity)] }.bailOn := by decide
theorem witness_DeselectAgainstAFailingRemote :
    let es : List TxError := [.timeout, .framing, .incompleteByte]
    let s := withCmd .deselect (answering (es.map TStatus.error ++ []) (poller true))
    s.cmd = some { op := 0x05#8, args := {} } ∧ windowIsLarger s ∧ s.ctx.role = .poller ∧ s.ctx.st = .rx ∧ s.ctx.dslIter = none ∧ es.length = s.cfg.maxR + 1 ∧
    (∀ e ∈ es, (s.cfg.mode, e) ∉ s.prm.bailOn) ∧ s.cfg.maxR + 1 ≤ s.prm.dslCap ∧
    s.tr.answers = es.map TStatus.error ++ [] := by decide
theorem witness_DeselectTerminatesByItsCap :
    deselectAwaits 8 (deselecting 8) ∧ (deselecting 8).cmd = none ∧ 8 ≤ (deselecting 8).prm.dslCap ∧
    deselectAwaits 0 (deselecting 0) ∧ 0 ≤ (deselecting 0).prm.dslCap := by decide

/-- A listener that has been set up meets the invariant. -/
theorem invariant_activated : Invariant (answering [.done [0x12#8, 0x00#8]] activated) where
  counters := by decide
  legal := by decide
  reads := by decide
  marked := ⟨by decide, fun n h => by cases h⟩
  chaining := by decide
  fit := ⟨fun h => (by cases h), fun h => (by cases h), by decide⟩
  session := by decide
  ranges := by decide
  lastFrame := fun _ _ h => by cases h
  rxLen := .inl rfl
  window := fun h => (by cases h)
/-- For `StepKeepsTheInvariant`, `SubmittedFramesFit`: a step from it accepts a chained block and submits its acknowledgment. -/
theorem witness_InvariantStep :
    Invariant (withCmd .poll (answering [.done [0x12#8, 0x00#8]] activated)) ∧
    pendingFits (withCmd .poll (answering [.done [0x12#8, 0x00#8]] activated)) ∧
    ∃ t p, step (withCmd .poll (answering [.done [0x12#8, 0x00#8]] activated)) = .next t ∧ t.tr.pend = some p ∧ p.frame = [0xA2#8] :=
  ⟨⟨invariant_activated.counters, invariant_activated.legal, invariant_activated.reads, ⟨invariant_activated.marked.1, invariant_activated.marked.2⟩,
    invariant_activated.chaining,
    ⟨invariant_activated.fit.1, invariant_activated.fit.2, invariant_activated.fit.3⟩, invariant_activated.session, invariant_activated.ranges,
    invariant_activated.lastFrame, invariant_activated.rxLen, fun h => (by cases h)⟩,
    fun p h => (by cases h; exact .inr ⟨by decide, fun _ _ h => by cases h⟩), _, _, rfl, rfl, rfl⟩
/-- For `StepKeepsCountersBounded`, `BlockNumberChangesOnlyOnAcceptance`. -/
theorem witness_StepKeepsCountersBounded :
    let s := withCmd .poll (answering [.error .crc] (withCtx (fun c => { c with cntR := 1 }) (poller true)))
    (s.ctx.cntI ≤ s.cfg.maxI ∧ s.ctx.cntR ≤ s.cfg.maxR ∧ s.ctx.cntS ≤ s.cfg.maxS) ∧ ∃ t, step s = .next t ∧ t.ctx.cntR = 2 :=
  ⟨by decide, _, rfl, rfl⟩
theorem witness_BlockNumberChangesOnlyOnAcceptance :
    let s := withCmd .poll (answering [.done [0x02#8]] (poller false))
    ∃ t, step s = .next t ∧ t.ctx.bn ≠ s.ctx.bn ∧ t.ctx.st = .idle ∧ t.out.result = .done := ⟨_, rfl, by decide, rfl, rfl⟩
theorem witness_RegistersHaveOnlyTheirWriters :
    (∃ t, exec (.init .emv 1 1 1) idle = .next t ∧ t.cfg ≠ idle.cfg) ∧ (∃ t, exec (.setSession 0 3 none) idle = .next t ∧ t.ses ≠ idle.ses) ∧
    (∃ t, exec (.decodeHdr 0x02#8) idle = .next t ∧ t.out.value ≠ idle.out.value) ∧
    ∃ t, exec (.iFinal false false false) (got 0x02#8 1 (poller false)) = .next t ∧ t.out.rxData ≠ (poller false).out.rxData :=
  ⟨⟨_, rfl, by decide⟩, ⟨_, rfl, by decide⟩, ⟨_, rfl, by decide⟩, ⟨_, rfl, by decide⟩⟩

end Sys2Proof.Tests
end

