-- ==== Sys2Proof/Proofs/Resets.lean ====
section
/-! The two resets (R60, R61) as frames: each is the record update of the fields its rule lists. -/

namespace Sys2Proof.Machine

/-- The statements' cleared Link Context and the machine's are written out apart; both are R61's list. -/
theorem clearedCtx_eq_cleared : Spec.clearedCtx = Ctx.cleared := rfl

theorem toIdle_eq (s : State) :
    toIdle s = { s with ctx := { s.ctx with st := .idle, cntI := 0, cntR := 0, cntS := 0, rxChaining := false,
                                            txChaining := false, dslIter := none } } := rfl

theorem fullReset_eq (s : State) : fullReset s = { s with ctx := Spec.clearedCtx } := by
  rw [clearedCtx_eq_cleared, fullReset]

/-- Settles O27: the frame of `toIdle` (R60) and that of `fullReset` (R61). -/
theorem resetsWriteWhatTheyList : Obligations.ResetsWriteWhatTheyList :=
  fun s => ⟨toIdle_eq s, fullReset_eq s⟩

end Sys2Proof.Machine
end

