-- ==== Sys2Proof/Proofs/CommandRanges.lean ====
section
/-! The command register's decoder, code by code (R121): the values of the arguments with which a register of that code decodes,
and to what. Where a reader answers a value of another type (`mode`, `kind`, the bits and bytes), its range is the reader's own
lemma in Laws/Decode.lean. -/

namespace Sys2Proof

theorem argBuffer_eq_ok {l : Nat} {b x : List Byte} : argBuffer l b = .ok x ↔ l ≤ b.length ∧ b = x := by
  unfold argBuffer; split <;> simp_all

/-- The last reader of a chain succeeds with the instruction that takes up its value. -/
theorem map_isOk {α β : Type} {x : Except DecodeError α} {f : α → β} {b : β} :
    f <$> x = .ok b ↔ ∃ a, x = .ok a ∧ f a = b := by
  cases x <;> simp [Functor.map, Except.map]

section
variable {c : CmdReg} {i : Instr}

theorem decodeCmd_init (h : c.op.toNat = 0x01) :
    decodeCmd c = .ok i ↔ ∃ m, argMode c.args.mode = .ok m ∧ c.args.maxI ≤ maxCeiling ∧ c.args.maxR ≤ maxCeiling ∧
      c.args.maxS ≤ maxCeiling ∧ .init m c.args.maxI c.args.maxR c.args.maxS = i := by
  simp [decodeCmd, h, bind_isOk, map_isOk, argUpTo_eq_ok, and_assoc]

theorem decodeCmd_setSession (h : c.op.toNat = 0x02) :
    decodeCmd c = .ok i ↔ c.args.ourFsx ≤ maxLen ∧ ∃ n, argOptByte .nad c.args.nad = .ok n ∧
      .setSession c.args.dFwt c.args.ourFsx n = i := by
  simp [decodeCmd, h, bind_isOk, map_isOk, argUpTo_eq_ok, and_assoc]

theorem decodeCmd_startTx (h : c.op.toNat = 0x03) :
    decodeCmd c = .ok i ↔ c.args.txLength ≤ maxLen ∧ c.args.txLength ≤ c.args.txBuffer.length ∧
      ∃ k, argBit .chainingFlag c.args.chainingFlag = .ok k ∧ c.args.rxCap ≤ maxLen ∧ c.args.fsx ≤ maxLen ∧
      ∃ d, argOptByte .did c.args.did = .ok d ∧
      .startTx c.args.txBuffer c.args.txLength k c.args.rxCap c.args.fwt c.args.fsx d = i := by
  simp [decodeCmd, h, bind_isOk, map_isOk, argUpTo_eq_ok, argBuffer_eq_ok, and_assoc, -Bool.exists_bool]

theorem decodeCmd_poll (h : c.op.toNat = 0x04) : decodeCmd c = .ok i ↔ .poll = i := by
  simp [decodeCmd, h]

theorem decodeCmd_deselect (h : c.op.toNat = 0x05) : decodeCmd c = .ok i ↔ .deselect = i := by
  simp [decodeCmd, h]

theorem decodeCmd_listenStart (h : c.op.toNat = 0x06) :
    decodeCmd c = .ok i ↔ c.args.rxCap ≤ maxLen ∧ c.args.fsx ≤ maxLen ∧ ∃ d, argOptByte .did c.args.did = .ok d ∧
      .listenStart c.args.rxCap c.args.fwt c.args.fsx d = i := by
  simp [decodeCmd, h, bind_isOk, map_isOk, argUpTo_eq_ok, and_assoc]

theorem decodeCmd_getMaxPayload (h : c.op.toNat = 0x07) : decodeCmd c = .ok i ↔ .getMaxPayload = i := by
  simp [decodeCmd, h]

theorem decodeCmd_encodeHdr (h : c.op.toNat = 0x08) :
    decodeCmd c = .ok i ↔ ∃ k, argKind c.args.kind = .ok k ∧ ∃ b, argBit .bn c.args.bn = .ok b ∧
      ∃ m, argBit .chain c.args.chain = .ok m ∧ ∃ d, argBit .didPresent c.args.didPresent = .ok d ∧
      ∃ n, argBit .nadPresent c.args.nadPresent = .ok n ∧ .encodeHdr k b m d n = i := by
  simp [decodeCmd, h, bind_isOk, map_isOk, -Bool.exists_bool]

theorem decodeCmd_decodeHdr (h : c.op.toNat = 0x09) :
    decodeCmd c = .ok i ↔ ∃ p, argByte .pcb c.args.pcb = .ok p ∧ .decodeHdr p = i := by
  simp [decodeCmd, h, map_isOk]

theorem decodeCmd_fwi2fwt (h : c.op.toNat = 0x0A) :
    decodeCmd c = .ok i ↔ ∃ f, argNibble .fwi c.args.fwi = .ok f ∧ .fwi2fwt f = i := by
  simp [decodeCmd, h, map_isOk]

theorem decodeCmd_sfgi2sfgt (h : c.op.toNat = 0x0B) :
    decodeCmd c = .ok i ↔ ∃ f, argNibble .sfgi c.args.sfgi = .ok f ∧ .sfgi2sfgt f = i := by
  simp [decodeCmd, h, map_isOk]

/-- R122: a register decodes exactly when its arguments are in the ranges of its code; a code outside R121 never does (R113). -/
theorem decodeCmd_isOk_iff_inRange (c : CmdReg) : (∃ i, decodeCmd c = .ok i) ↔ Spec.inRange c := by
  unfold Spec.inRange
  split
  next h => simp [decodeCmd_init h, ← argMode_isOk, maxCeiling]
  next h => simp [decodeCmd_setSession h, ← argOptByte_isOk (a := .nad)]
  next h => simp [decodeCmd_startTx h, ← argOptByte_isOk (a := .did), ← argBit_isOk (a := .chainingFlag), -Bool.exists_bool]
  next h => simp [decodeCmd_poll h]
  next h => simp [decodeCmd_deselect h]
  next h => simp [decodeCmd_listenStart h, ← argOptByte_isOk (a := .did)]
  next h => simp [decodeCmd_getMaxPayload h]
  next h => simp [decodeCmd_encodeHdr h, argKind_isOk, argBit_isOk, and_assoc, -Bool.exists_bool]
  next h => simp [decodeCmd_decodeHdr h, argByte_isOk]
  next h => simp [decodeCmd_fwi2fwt h, argNibble_isOk]
  next h => simp [decodeCmd_sfgi2sfgt h, argNibble_isOk]
  next => simp [decodeCmd]

/-- What decodes is in the ranges of R122 that its types do not already say. -/
theorem wellFormed_of_decodeCmd (h : decodeCmd c = .ok i) : i.WellFormed := by
  have hr := (decodeCmd_isOk_iff_inRange c).1 ⟨i, h⟩
  unfold Spec.inRange at hr
  split at hr
  next hc => obtain ⟨m, -, hI, hR, hS, rfl⟩ := (decodeCmd_init hc).1 h; simp [Instr.WellFormed, Instr.wf, hI, hR, hS]
  next hc => obtain ⟨hf, n, -, rfl⟩ := (decodeCmd_setSession hc).1 h; simp [Instr.WellFormed, Instr.wf, hf]
  next hc => obtain ⟨hl, hb, k, -, hr, hf, d, -, rfl⟩ := (decodeCmd_startTx hc).1 h; simp [Instr.WellFormed, Instr.wf, hl, hb, hr, hf]
  next hc => obtain rfl := (decodeCmd_poll hc).1 h; rfl
  next hc => obtain rfl := (decodeCmd_deselect hc).1 h; rfl
  next hc => obtain ⟨hr, hf, d, -, rfl⟩ := (decodeCmd_listenStart hc).1 h; simp [Instr.WellFormed, Instr.wf, hr, hf]
  next hc => obtain rfl := (decodeCmd_getMaxPayload hc).1 h; rfl
  next hc => obtain ⟨k, -, b, -, m, -, d, -, n, -, rfl⟩ := (decodeCmd_encodeHdr hc).1 h; rfl
  next hc => obtain ⟨p, -, rfl⟩ := (decodeCmd_decodeHdr hc).1 h; rfl
  next hc => obtain ⟨f, -, rfl⟩ := (decodeCmd_fwi2fwt hc).1 h; rfl
  next hc => obtain ⟨f, -, rfl⟩ := (decodeCmd_sfgi2sfgt hc).1 h; rfl
  next => exact hr.elim

end

/-- Settles O6: code by code, a register decodes exactly on its ranges (R122), and what it decodes to keeps them. -/
theorem commandsDecodeExactlyInRange : Obligations.CommandsDecodeExactlyInRange :=
  fun c => ⟨decodeCmd_isOk_iff_inRange c, fun _ => wellFormed_of_decodeCmd⟩

end Sys2Proof
end

