-- ==== Sys2Proof/Proofs/HeaderMap.lean ====
section
/-! The rows of the header map (R114): each is one class of `Classify` (R160) and the bits that tell the rows of a class apart
(`C` or `K` = `pcb[4]`, and `pcb[5:4]` of an S-block, R105). -/

namespace Sys2Proof

/-- A mask comparison is one comparison for each bit. -/
theorem and_eq_iff_bits (x m v : Byte) : x &&& m = v ↔ ∀ k : Fin 8, (x.getLsbD k && m.getLsbD k) = v.getLsbD k := by
  constructor
  · rintro rfl k
    exact (BitVec.getLsbD_and ..).symm
  · intro h
    exact BitVec.eq_of_getLsbD_eq fun k hk => (BitVec.getLsbD_and ..).trans (h ⟨k, hk⟩)

section
variable {pcb : Byte} {c d n b : Bool}

/-! ### The classes: the tests of R160 exclude each other, so their order does not matter -/

theorem classify_eq_i : classify pcb = .i ↔ pcb &&& 0xE2#8 = 0x02#8 := by
  unfold classify
  split_ifs with hi <;> simp [hi]

theorem classify_eq_r : classify pcb = .r ↔ pcb &&& 0xE6#8 = 0xA2#8 := by
  have hir : pcb &&& 0xE2#8 = 0x02#8 → pcb &&& 0xE6#8 ≠ 0xA2#8 := by
    simp +contextual [and_eq_iff_bits, Fin.forall_fin_succ]
  unfold classify
  split_ifs with hi hr <;> simp [*]

theorem classify_eq_s :
    classify pcb = .s ↔ pcb &&& 0xC7#8 = 0xC2#8 ∧ (pcb &&& 0x30#8 = 0x00#8 ∨ pcb &&& 0x30#8 = 0x30#8) := by
  have hsi : pcb &&& 0xC7#8 = 0xC2#8 → pcb &&& 0xE2#8 ≠ 0x02#8 := by
    simp +contextual [and_eq_iff_bits, Fin.forall_fin_succ]
  have hsr : pcb &&& 0xC7#8 = 0xC2#8 → pcb &&& 0xE6#8 ≠ 0xA2#8 := by
    simp +contextual [and_eq_iff_bits, Fin.forall_fin_succ]
  unfold classify
  split_ifs with hi hr <;> simp_all

/-! ### The rows -/

theorem row_iFinal : pcb &&& 0xF2#8 = 0x02#8 ↔ classify pcb = .i ∧ bitC pcb = false := by
  rw [classify_eq_i, bitC]
  cases h : pcb[4] <;> simp [and_eq_iff_bits, Fin.forall_fin_succ, h]

theorem row_iChain : pcb &&& 0xF2#8 = 0x12#8 ↔ classify pcb = .i ∧ bitC pcb = true := by
  rw [classify_eq_i, bitC]
  cases h : pcb[4] <;> simp [and_eq_iff_bits, Fin.forall_fin_succ, h]

theorem row_rAck : pcb &&& 0xF6#8 = 0xA2#8 ↔ classify pcb = .r ∧ bitC pcb = false := by
  rw [classify_eq_r, bitC]
  cases h : pcb[4] <;> simp [and_eq_iff_bits, Fin.forall_fin_succ, h]

theorem row_rNak : pcb &&& 0xF6#8 = 0xB2#8 ↔ classify pcb = .r ∧ bitC pcb = true := by
  rw [classify_eq_r, bitC]
  cases h : pcb[4] <;> simp [and_eq_iff_bits, Fin.forall_fin_succ, h]

theorem row_sDsl : pcb &&& 0xF7#8 = 0xC2#8 ↔ classify pcb = .s ∧ pcb &&& 0x30#8 = 0x00#8 := by
  rw [classify_eq_s]
  cases h4 : pcb[4] <;> cases h5 : pcb[5] <;> simp [and_eq_iff_bits, Fin.forall_fin_succ, h4, h5]

theorem row_sWtx : pcb &&& 0xF7#8 = 0xF2#8 ↔ classify pcb = .s ∧ pcb &&& 0x30#8 ≠ 0x00#8 := by
  rw [classify_eq_s]
  cases h4 : pcb[4] <;> cases h5 : pcb[5] <;> simp [and_eq_iff_bits, Fin.forall_fin_succ, h4, h5]

/-- R112: a byte of no class is a byte that no row matches. -/
theorem classify_eq_invalid :
    classify pcb = .invalid ↔
      pcb &&& 0xF2#8 ≠ 0x02#8 ∧ pcb &&& 0xF2#8 ≠ 0x12#8 ∧ pcb &&& 0xF6#8 ≠ 0xA2#8 ∧ pcb &&& 0xF6#8 ≠ 0xB2#8 ∧
      pcb &&& 0xF7#8 ≠ 0xC2#8 ∧ pcb &&& 0xF7#8 ≠ 0xF2#8 := by
  simp only [ne_eq, row_iFinal, row_iChain, row_rAck, row_rNak, row_sDsl, row_sWtx]
  cases classify pcb <;> simp

/-! ### What each class decodes to (R161 to R164) -/

theorem decodePcb_eq_iBlock :
    decodePcb pcb = .iBlock c d n b ↔ (classify pcb = .i ∧ bitC pcb = c) ∧ bitD pcb = d ∧ bitN pcb = n ∧ bitB pcb = b := by
  unfold decodePcb
  cases classify pcb <;> grind

theorem decodePcb_eq_rAck :
    decodePcb pcb = .rAck d b ↔ (classify pcb = .r ∧ bitC pcb = false) ∧ bitD pcb = d ∧ bitB pcb = b := by
  unfold decodePcb
  cases classify pcb <;> grind

theorem decodePcb_eq_rNak :
    decodePcb pcb = .rNak d b ↔ (classify pcb = .r ∧ bitC pcb = true) ∧ bitD pcb = d ∧ bitB pcb = b := by
  unfold decodePcb
  cases classify pcb <;> grind

theorem decodePcb_eq_sDsl :
    decodePcb pcb = .sDsl d ↔ (classify pcb = .s ∧ pcb &&& 0x30#8 = 0x00#8) ∧ bitD pcb = d := by
  unfold decodePcb
  cases classify pcb <;> grind

theorem decodePcb_eq_sWtx :
    decodePcb pcb = .sWtx d ↔ (classify pcb = .s ∧ pcb &&& 0x30#8 ≠ 0x00#8) ∧ bitD pcb = d := by
  unfold decodePcb
  cases classify pcb <;> grind

theorem decodePcb_eq_invalid : decodePcb pcb = .invalid ↔ classify pcb = .invalid := by
  unfold decodePcb
  cases classify pcb <;> grind

end

/-- No two headers are the same instruction (R114). -/
theorem headerInstr_inj {k l : Header} {i : Instr} (hk : headerInstr k = some i) (hl : headerInstr l = some i) : k = l := by
  fun_cases headerInstr k <;> cases hk <;> fun_cases headerInstr l <;> cases hl <;> rfl

/-- A byte is the instruction of a header exactly when it decodes to that header. -/
theorem decode_pcb_of_headerInstr {pcb : Byte} {k : Header} {i : Instr} (hk : headerInstr k = some i) :
    decode (.pcb pcb) = .ok i ↔ decodePcb pcb = k := by
  rw [decode_pcb_eq_ok]
  exact ⟨fun h => headerInstr_inj h hk, fun h => h ▸ hk⟩

/-- R150 to R154: every header that the codec builds is a row of the map. -/
theorem encHeader_valid (k : BlockKind) (bn c d n : Bool) : decodePcb (encHeader k bn c d n) ≠ .invalid := by
  intro h
  have hk := Machine.headerKind_encHeader k bn c d n
  rw [h] at hk
  cases hk

/-- Settles O2: a decoded header is the row of its class that the remaining bits of the row's mask pick out. -/
theorem headerBytesDecodeByTheMap : Obligations.HeaderBytesDecodeByTheMap := by
  refine ⟨encHeader_valid, fun pcb => ⟨fun d n b => ?iFinal, fun d n b => ?iChain, fun d b => ?rAck, fun d b => ?rNak,
    fun d => ?sDsl, fun d => ?sWtx, ?invalid⟩⟩
  case iFinal => rw [decode_pcb_of_headerInstr (k := .iBlock false d n b) rfl, decodePcb_eq_iBlock, row_iFinal]; rfl
  case iChain => rw [decode_pcb_of_headerInstr (k := .iBlock true d n b) rfl, decodePcb_eq_iBlock, row_iChain]; rfl
  case rAck => rw [decode_pcb_of_headerInstr (k := .rAck d b) rfl, decodePcb_eq_rAck, row_rAck]; rfl
  case rNak => rw [decode_pcb_of_headerInstr (k := .rNak d b) rfl, decodePcb_eq_rNak, row_rNak]; rfl
  case sDsl => rw [decode_pcb_of_headerInstr (k := .sDsl d) rfl, decodePcb_eq_sDsl, row_sDsl]; rfl
  case sWtx => rw [decode_pcb_of_headerInstr (k := .sWtx d) rfl, decodePcb_eq_sWtx, row_sWtx]; rfl
  case invalid => rw [decode_pcb_eq_error, decodePcb_eq_invalid, classify_eq_invalid]

end Sys2Proof
end

