-- ==== Sys2Proof/Proofs/Queries.lean ====
section
/-! The queries of the admission table's last row (R262): where they are admitted, and what the two header queries answer
(R167, R168). -/

namespace Sys2Proof

/-! ### The header bytes as numbers (R150 to R154) -/

theorem bitAt_toNat (b : Bool) {k : Nat} (hk : k < 8) : (bitAt b k).toNat = b.toNat <<< k := by
  cases b with
  | false => simp [bitAt]
  | true =>
    have hlt : 2 ^ k < 2 ^ 8 := Nat.pow_lt_pow_right (by decide) hk
    simpa [bitAt, Nat.shiftLeft_eq] using hlt

theorem encI_toNat (bn c d n : Bool) :
    (encI bn c d n).toNat = 0x02 ||| (c.toNat <<< 4) ||| (d.toNat <<< 3) ||| (n.toNat <<< 2) ||| bn.toNat := by
  simp [encI, bitAt_toNat]

theorem encRAck_toNat (bn d : Bool) : (encRAck bn d).toNat = 0xA2 ||| (d.toNat <<< 3) ||| bn.toNat := by
  simp [encRAck, bitAt_toNat]

theorem encRNak_toNat (bn d : Bool) : (encRNak bn d).toNat = 0xB2 ||| (d.toNat <<< 3) ||| bn.toNat := by
  simp [encRNak, bitAt_toNat]

theorem encSDsl_toNat (d : Bool) : (encSDsl d).toNat = 0xC2 ||| (d.toNat <<< 3) := by
  simp [encSDsl, bitAt_toNat]

theorem encSWtx_toNat (d : Bool) : (encSWtx d).toNat = 0xF2 ||| (d.toNat <<< 3) := by
  simp [encSWtx, bitAt_toNat]

namespace Machine

open Sys2Proof.Spec

section
variable {kind : Nat} {c d n b : Bool}

/-! ### The packed value (R123) -/

/-- Bit `i` of a value is the flag `b` where the value's `i`-th binary digit is `b`'s number. -/
theorem testBit_of_digit {v i : Nat} (h : v / 2 ^ i % 2 = bitNat b) : v.testBit i = b := by
  rw [Nat.testBit_eq_decide_div_mod_eq, h]
  cases b <;> rfl

theorem bitNat_lt_two (b : Bool) : bitNat b < 2 := by
  cases b <;> decide

/-- The fields do not overlap: each reads back from the packed value. -/
theorem packFields_fields (hk : kind < 8) :
    packFields kind c d n b % 8 = kind ∧ (packFields kind c d n b).testBit 3 = c ∧
      (packFields kind c d n b).testBit 4 = d ∧ (packFields kind c d n b).testBit 5 = n ∧
      (packFields kind c d n b).testBit 6 = b := by
  have hc := bitNat_lt_two c
  have hd := bitNat_lt_two d
  have hn := bitNat_lt_two n
  have hb := bitNat_lt_two b
  unfold packFields
  refine ⟨?_, testBit_of_digit ?_, testBit_of_digit ?_, testBit_of_digit ?_, testBit_of_digit ?_⟩ <;> omega

theorem packFields_lt (hk : kind < 8) : packFields kind c d n b < 128 := by
  have hc := bitNat_lt_two c
  have hd := bitNat_lt_two d
  have hn := bitNat_lt_two n
  have hb := bitNat_lt_two b
  unfold packFields
  omega

theorem packHeader_lt (k : Header) : packHeader k < 128 := by
  cases k with
  | invalid => decide
  | iBlock => exact packFields_lt (by decide)
  | rAck => exact packFields_lt (by decide)
  | rNak => exact packFields_lt (by decide)
  | sDsl => exact packFields_lt (by decide)
  | sWtx => exact packFields_lt (by decide)

end

/-! ### The queries -/

section
variable {s : State}

/-- The last row of R262: a query runs in every block state but `UNINIT` and `WAIT_DESELECT`, while no `DESELECT` does. -/
theorem admits_query (hn : s.ctx.dslIter = none)
    (hst : s.ctx.st = .idle ∨ s.ctx.st = .tx ∨ s.ctx.st = .rx ∨ s.ctx.st = .activated) : admits .query s = true := by
  obtain h | h | h | h := hst <;> simp [admits, tableAdmits, hn, h]

theorem ifAdmitted_of_admits {r : Row} {o : Outcome} (h : admits r s = true) : ifAdmitted r s o = o :=
  if_pos h

theorem exec_encodeHdr (h : admits .query s = true) (k : BlockKind) (bn c d n : Bool) :
    exec (.encodeHdr k bn c d n) s = .next (answered (encHeader k bn c d n).toNat s) :=
  ifAdmitted_of_admits h

theorem exec_decodeHdr (h : admits .query s = true) (pcb : Byte) :
    exec (.decodeHdr pcb) s = .next (answered (packHeader (decodePcb pcb)) s) :=
  ifAdmitted_of_admits h

end

/-- Settles O19: the answer is the header byte of the kind (R150 to R154), read as a number. -/
theorem encodeHdrAnswersTheByte : Obligations.EncodeHdrAnswersTheByte := by
  intro bn c d n s hn hst
  have exec_eq := fun k => exec_encodeHdr (admits_query hn hst) k bn c d n
  refine ⟨?i, ?rAck, ?rNak, ?sDsl, ?sWtx⟩
  case i => rw [exec_eq, encHeader, encI_toNat]
  case rAck => rw [exec_eq, encHeader, encRAck_toNat]
  case rNak => rw [exec_eq, encHeader, encRNak_toNat]
  case sDsl => rw [exec_eq, encHeader, encSDsl_toNat]
  case sWtx => rw [exec_eq, encHeader, encSWtx_toNat]

/-- Settles O20: the byte's instruction determines its header, and the header's packed fields read back (R123). -/
theorem decodeHdrAnswersThePackedHeader : Obligations.DecodeHdrAnswersThePackedHeader := by
  intro pcb s hn hst
  have header_eq : ∀ {k : Header} {i : Instr}, headerInstr k = some i → decode (.pcb pcb) = .ok i → decodePcb pcb = k :=
    fun hk => (decode_pcb_of_headerInstr hk).1
  refine ⟨packHeader (decodePcb pcb), exec_decodeHdr (admits_query hn hst) pcb, packHeader_lt _, fun h => ?invalid,
    fun d n b h => ?iFinal, fun d n b h => ?iChain, fun d b h => ?rAck, fun d b h => ?rNak, fun d h => ?sDsl,
    fun d h => ?sWtx⟩
  case invalid => rw [decode_pcb_eq_error.1 h, packHeader]
  case iFinal => rw [header_eq (k := .iBlock false d n b) rfl h]; exact packFields_fields (by decide)
  case iChain => rw [header_eq (k := .iBlock true d n b) rfl h]; exact packFields_fields (by decide)
  case rAck => rw [header_eq (k := .rAck d b) rfl h]; exact packFields_fields (by decide)
  case rNak => rw [header_eq (k := .rNak d b) rfl h]; exact packFields_fields (by decide)
  case sDsl => rw [header_eq (k := .sDsl d) rfl h]; exact packFields_fields (by decide)
  case sWtx => rw [header_eq (k := .sWtx d) rfl h]; exact packFields_fields (by decide)

end Machine
end Sys2Proof
end

