-- ==== Sys2Proof/Proofs/BuiltFrames.lean ====
section
/-! The frames that `BuildFrame` builds (R155): what stands between the header byte and the payload. -/

namespace Sys2Proof.Machine

open Sys2Proof.Spec

theorem didBytes_eq (s : State) : didBytes s = s.ctx.did.toList.map (fun d => d.zeroExtend 8) := by
  unfold didBytes
  cases s.ctx.did <;> rfl

/-- An I-block carries the DID byte, then the NAD byte, each while one is in use. -/
theorem buildFrame_i (inf : List Byte) (s : State) :
    buildFrame .i inf s =
      encI s.ctx.bn s.ctx.txChaining s.ctx.did.isSome s.ses.readable.nad.isSome ::
        ((s.ctx.did.toList.map (fun d => d.zeroExtend 8)) ++ s.ses.readable.nad.toList ++ inf) := by
  rw [← didBytes_eq]
  rfl

/-- Every other block carries no NAD byte: it is a control frame with its kind's header byte. -/
theorem buildFrame_eq_controlFrame {k : BlockKind} (hk : k ≠ .i) (inf : List Byte) (s : State) :
    buildFrame k inf s = controlFrame (encHeader k s.ctx.bn s.ctx.txChaining s.ctx.did.isSome false) inf s := by
  obtain ⟨hbytes, hflag⟩ : nadBytes k s = [] ∧ nadInUse k s = false := by
    cases k with
    | i => exact absurd rfl hk
    | _ => exact ⟨rfl, rfl⟩
  rw [buildFrame, hbytes, hflag, List.append_nil, didBytes_eq, didInUse]

/-- Settles O25: the NAD byte stands in I-blocks alone; the four other kinds are control frames. -/
theorem buildFramePrependsTheHeader : Obligations.BuildFramePrependsTheHeader :=
  fun inf s => ⟨buildFrame_i inf s, buildFrame_eq_controlFrame (by decide) inf s, buildFrame_eq_controlFrame (by decide) inf s,
    buildFrame_eq_controlFrame (by decide) inf s, buildFrame_eq_controlFrame (by decide) inf s⟩

end Sys2Proof.Machine
end

