-- ==== Sys2Proof/Proofs/TimingQueries.lean ====
section
/-! The two timing queries (R181, R186): each answers its conversion (R180, R185). -/

namespace Sys2Proof.Machine

open Sys2Proof.Spec

section
variable {p : Params} {fwi sfgi : BitVec 4} {s : State}

/-! ### The conversions -/

theorem fwi2Fwt_of_le (h : fwi.toNat ≤ 14) : fwi2Fwt p fwi = min p.maxFwt (2 ^ (fwi.toNat + 12)) := by
  rw [fwi2Fwt, if_pos h]

/-- An FWI out of range is replaced by the default (90_conflicts.md C1). -/
theorem fwi2Fwt_of_lt (h : 14 < fwi.toNat) : fwi2Fwt p fwi = min p.maxFwt (2 ^ (p.fwiDefault.val + 12)) := by
  rw [fwi2Fwt, if_neg (by omega)]

theorem sfgi2Sfgt_zero : sfgi2Sfgt p 0#4 = p.sfgtMin :=
  if_pos rfl

/-- The two terms of R185 are one multiple of the power of two: 4096 + 384 = 4480. -/
theorem sfgi2Sfgt_of_ne_zero (h : sfgi ≠ 0#4) : sfgi2Sfgt p sfgi = 4480 * 2 ^ sfgi.toNat := by
  have hne : sfgi.toNat ≠ 0 := fun h0 => h (BitVec.eq_of_toNat_eq h0)
  rw [sfgi2Sfgt, if_neg hne, ← Nat.add_mul]

/-! ### The queries -/

theorem exec_fwi2fwt (h : admits .query s = true) (fwi : BitVec 4) :
    exec (.fwi2fwt fwi) s = .next (answered (fwi2Fwt s.prm fwi) s) :=
  ifAdmitted_of_admits h

theorem exec_sfgi2sfgt (h : admits .query s = true) (sfgi : BitVec 4) :
    exec (.sfgi2sfgt sfgi) s = .next (answered (sfgi2Sfgt s.prm sfgi) s) :=
  ifAdmitted_of_admits h

end

/-- Settles O21: the admitted query answers `Fwi2Fwt` (R180), in range or by the default. -/
theorem fwi2FwtAnswers : Obligations.Fwi2FwtAnswers := by
  intro fwi s hn hst
  rw [exec_fwi2fwt (admits_query hn hst)]
  constructor
  · intro hle
    rw [fwi2Fwt_of_le hle]
  · intro h15
    rw [fwi2Fwt_of_lt (by omega)]

/-- Settles O22: the admitted query answers `Sfgi2Sfgt` (R185), at 0 and above. -/
theorem sfgi2SfgtAnswers : Obligations.Sfgi2SfgtAnswers := by
  intro sfgi s hn hst
  rw [exec_sfgi2sfgt (admits_query hn hst)]
  constructor
  · rintro rfl
    rw [sfgi2Sfgt_zero]
  · intro hne
    rw [sfgi2Sfgt_of_ne_zero hne]

end Sys2Proof.Machine
end

