-- ==== Sys2Proof/Proofs/RetrySteps.lean ====
section
/-! The retry step (R190): where it is exhausted, and where it counts. -/

namespace Sys2Proof.Machine

section
variable {k : Counter} {s t : State}

/-- A retry is exhausted exactly where one more would exceed its ceiling. -/
theorem retryStep_eq_none : retryStep k s = none ↔ ceiling k s < count k s + 1 := by
  simp [retryStep]

/-- A retry within its ceiling counts one on its own counter. -/
theorem retryStep_eq_some : retryStep k s = some t ↔ count k s + 1 ≤ ceiling k s ∧ countUp k s = t := by
  simp [retryStep]

/-- R191: the R counter alone ends the exchange with `Timeout`. -/
theorem exhaustCode_eq (k : Counter) : exhaustCode k = if k = .r then .timeout else .protocolError := by
  cases k <;> rfl

end

/-- Settles O28: each counter's step is the rule of R190 on its own fields (R193), and the step decides how the retry goes on. -/
theorem retryStepCountsOrExhausts : Obligations.RetryStepCountsOrExhausts := by
  intro s act
  refine ⟨rfl, rfl, rfl, fun k hnone => ?exhausted, fun k t hsome => ?counted⟩
  case exhausted => rw [retryThen_of_lt (retryStep_eq_none.1 hnone), exhaustCode_eq]
  case counted =>
    obtain ⟨hle, rfl⟩ := retryStep_eq_some.1 hsome
    exact retryThen_of_le hle

end Sys2Proof.Machine
end

