-- ==== Sys2Proof/Proofs/Admission.lean ====
section
/-! Admission by state (R241, R262): a command is refused as not admitted exactly where its row of the table shuts it out, since
no rule behind the table refuses for that reason. -/

namespace Sys2Proof.Machine

open Sys2Proof.Spec

section
variable {s : State} {r : Row}

/-! ### The rows of the table -/

theorem admits_eq_true : admits r s = true ↔ s.ctx.dslIter = none ∧ tableAdmits r s = true := by
  simp [admits]

theorem admits_init : admits .init s = true ↔ s.ctx.dslIter = none ∧ s.ctx.st ≠ .waitDeselect := by
  rw [admits_eq_true, tableAdmits.eq_def]
  cases s.ctx.st <;> simp

theorem admits_setSession : admits .setSession s = true ↔ s.ctx.dslIter = none ∧ s.ctx.st = .idle := by
  rw [admits_eq_true, tableAdmits.eq_def]
  cases s.ctx.st <;> simp

theorem admits_startTx : admits .startTx s = true ↔ s.ctx.dslIter = none ∧ s.ctx.st = .idle ∧ s.ses.valid = true := by
  rw [admits_eq_true, tableAdmits.eq_def]
  cases s.ctx.st <;> simp

theorem admits_poll :
    admits .poll s = true ↔ s.ctx.dslIter = none ∧ (s.ctx.st = .tx ∨ s.ctx.st = .rx ∨ s.ctx.st = .activated) := by
  rw [admits_eq_true, tableAdmits.eq_def]
  cases s.ctx.st <;> simp

theorem admits_deselect : admits .deselect s = true ↔
    s.ctx.dslIter = none ∧ s.ctx.role = .poller ∧ (s.ctx.st = .idle ∨ s.ctx.st = .tx ∨ s.ctx.st = .rx) := by
  rw [admits_eq_true, tableAdmits.eq_def]
  cases s.ctx.st <;> simp

theorem admits_listenStart : admits .listenStart s = true ↔
    s.ctx.dslIter = none ∧ s.ctx.st = .idle ∧ s.ses.valid = true ∧ s.prm.listenerRules = .iso := by
  rw [admits_eq_true, tableAdmits.eq_def]
  cases s.ctx.st <;> simp

/-- An activated listener may ask for its payload room whether or not the session registers are valid. -/
theorem admits_getMaxPayload : admits .getMaxPayload s = true ↔
    s.ctx.dslIter = none ∧
      (s.ctx.st = .activated ∨ s.ses.valid = true ∧ (s.ctx.st = .idle ∨ s.ctx.st = .tx ∨ s.ctx.st = .rx)) := by
  rw [admits_eq_true, tableAdmits.eq_def]
  cases s.ctx.st <;> simp

theorem admits_query_iff : admits .query s = true ↔
    s.ctx.dslIter = none ∧ (s.ctx.st = .idle ∨ s.ctx.st = .tx ∨ s.ctx.st = .rx ∨ s.ctx.st = .activated) := by
  rw [admits_eq_true, tableAdmits.eq_def]
  cases s.ctx.st <;> simp

/-- R241 as the table has it: `UNINIT` admits the row of `INIT` alone. -/
theorem not_admits_of_uninit (hst : s.ctx.st = .uninit) (hr : r ≠ .init) : ¬admits r s = true := by
  rw [admits_eq_true, tableAdmits.eq_def, hst]
  cases r with
  | init => exact absurd rfl hr
  | _ => simp

/-! ### No rule behind the table answers `notAdmitted` -/

theorem malformed_ne_notAdmitted (s : State) : malformed s ≠ .refused .notAdmitted :=
  conclude_ne_refused

theorem runBlock_ne_notAdmitted (d n : Bool) (poller waiting listener : State → Rx) (s : State) :
    runBlock d n poller waiting listener s ≠ .refused .notAdmitted := by
  rcases runBlock_cases (s := s) d n poller waiting listener with
    ⟨_, h⟩ | ⟨_, _, h⟩ | ⟨_, ⟨_, h⟩ | ⟨_, h⟩ | ⟨_, h⟩⟩ <;> simp [h]

theorem runHeader_ne_notAdmitted (k : Header) (s : State) : runHeader k s ≠ .refused .notAdmitted := by
  cases k with
  | invalid => exact malformed_ne_notAdmitted s
  | iBlock c d n b => cases c <;> exact runBlock_ne_notAdmitted _ _ _ _ _ _
  | rAck d b => exact runBlock_ne_notAdmitted _ _ _ _ _ _
  | rNak d b => exact runBlock_ne_notAdmitted _ _ _ _ _ _
  | sDsl d => exact runBlock_ne_notAdmitted _ _ _ _ _ _
  | sWtx d => exact runBlock_ne_notAdmitted _ _ _ _ _ _

theorem react_ne_notAdmitted (p : Phase) (a : TStatus) (s : State) : react p a s ≠ .refused .notAdmitted := by
  cases a with
  | busy | linkLoss | error =>
    rw [react]
    exact conclude_ne_refused
  | done f =>
    cases f with
    | nil => exact malformed_ne_notAdmitted s
    | cons pcb f => exact runHeader_ne_notAdmitted (decodePcb pcb) s

/-- Where no reception is due the refusal is `noReception` (R248), not one of the table. -/
theorem receive_ne_notAdmitted (s : State) : receive s ≠ .refused .notAdmitted := by
  unfold receive
  cases phase s with
  | none => simp
  | some p => exact react_ne_notAdmitted p _ _

/-! ### Commands and their rows -/

theorem ifAdmitted_eq_notAdmitted {o : Outcome} (ho : o ≠ .refused .notAdmitted) :
    ifAdmitted r s o = .refused .notAdmitted ↔ ¬admits r s = true := by
  rcases ifAdmitted_cases (s := s) r o with ⟨ha, h⟩ | ⟨ha, h⟩ <;> simp [h, ha, ho]

end

/-- The row of R262 an instruction belongs to: the row of its command code; none for a received block. -/
def commandRow (i : Instr) : Option Row :=
  match encode i with
  | .cmd c => rowOf c.op
  | .pcb _ => none

section
variable {s : State} {i : Instr} {r : Row}

theorem commandRow_of_ne_init (hi : isBlock i = false) (hne : ∀ m a b c, i ≠ .init m a b c) :
    ∃ r, commandRow i = some r ∧ r ≠ .init := by
  cases i with
  | iFinal | iChain | rAck | rNak | sDsl | sWtx => cases hi
  | init m a b c => exact absurd rfl (hne m a b c)
  | _ => exact ⟨_, rfl, by decide⟩

/-- A command is refused as not admitted exactly where its row of R262 does not admit it. -/
theorem exec_eq_notAdmitted (hr : commandRow i = some r) : exec i s = .refused .notAdmitted ↔ ¬admits r s = true := by
  cases i with
  | iFinal | iChain | rAck | rNak | sDsl | sWtx => cases hr
  | setSession =>
    cases hr
    exact ifAdmitted_eq_notAdmitted (by split <;> simp)
  | startTx txBuffer txLength =>
    cases hr
    refine ifAdmitted_eq_notAdmitted ?_
    split
    · cases memRead txBuffer 0 txLength <;> simp
    · simp
  | poll =>
    cases hr
    refine ifAdmitted_eq_notAdmitted ?_
    split
    · simp
    · exact receive_ne_notAdmitted s
  | deselect =>
    cases hr
    exact ifAdmitted_eq_notAdmitted (by split <;> simp)
  | listenStart =>
    cases hr
    exact ifAdmitted_eq_notAdmitted (by split <;> simp)
  | _ =>
    cases hr
    exact ifAdmitted_eq_notAdmitted (by simp)

end

/-- Settles O10: each command is refused where its row of R262 is false, and the rows are the statement's conditions. -/
theorem admissionTableDecides : Obligations.AdmissionTableDecides := by
  intro s
  have refused_iff : ∀ {i : Instr} {r : Row} {P : Prop}, commandRow i = some r → (admits r s = true ↔ P) →
      (exec i s = .refused .notAdmitted ↔ ¬P) :=
    fun hr hrow => (exec_eq_notAdmitted hr).trans (not_congr hrow)
  refine ⟨fun _ _ _ _ => refused_iff rfl admits_init, fun _ _ _ => refused_iff rfl admits_setSession,
    fun _ _ _ _ _ _ _ => refused_iff rfl admits_startTx, refused_iff rfl admits_poll, refused_iff rfl admits_deselect,
    fun _ _ _ _ => refused_iff rfl admits_listenStart, refused_iff rfl admits_getMaxPayload, ?queries⟩
  case queries =>
    rintro i (⟨k, b, c, d, n, rfl⟩ | ⟨p, rfl⟩ | ⟨v, rfl⟩ | ⟨v, rfl⟩) <;> exact refused_iff rfl admits_query_iff

/-- Settles O9: a command other than `INIT` belongs to another row, which `UNINIT` does not admit. -/
theorem uninitRefusesAllButInit : Obligations.UninitRefusesAllButInit := by
  intro i s hi hst hne
  obtain ⟨r, hr, hr_ne⟩ := commandRow_of_ne_init hi hne
  exact ⟨.notAdmitted, (exec_eq_notAdmitted hr).2 (not_admits_of_uninit hst hr_ne)⟩

end Sys2Proof.Machine
end

