-- ==== Sys2Proof/Proofs/LinkCommands.lean ====
section
/-! What the admitted commands of spec/43_link_commands.md do: the conditions their checks decide (R243, R246, R261), and the next
state each leaves. -/

namespace Sys2Proof.Machine

open Sys2Proof.Spec

section
variable {s : State}

/-! ### Header lengths and argument checks -/

/-- R65: one byte for the header, and one for each of DID and NAD that is not `Absent`. -/
theorem hdrLen_isSome {α β : Type} (d : Option α) (n : Option β) [Decidable (d = none)] [Decidable (n = none)] :
    hdrLen d.isSome n.isSome = 1 + (if d = none then 0 else 1) + (if n = none then 0 else 1) := by
  cases d <;> cases n <;> simp [hdrLen]

theorem hdrLen_arg (hv : s.ses.valid = true) (d : Option Byte) :
    hdrLen d.isSome s.ses.readable.nad.isSome = argHdrLen d s := by
  rw [Ses.readable_of_valid hv, hdrLen_isSome]

/-- D20: only `ISO` permits a NAD. -/
theorem nadOk_iff {m : Mode} : nadOk m = true ↔ m = .iso := by
  cases m <;> simp [nadOk]

/-- D20: every mode but `EMV` permits a DID. -/
theorem didOk_iff {m : Mode} : didOk m = true ↔ m = .nfcForum ∨ m = .iso := by
  cases m <;> simp [didOk]

theorem didArgOk_iff {d : Option Byte} : didArgOk d s = true ↔ didAccepted d s := by
  unfold didAccepted
  cases d <;> simp [didArgOk, didOk_iff]

theorem sessionCheck_iff {f : Nat} {n : Option Byte} : sessionCheck f n s = true ↔
    2 < f ∧ f ≤ fsxMax s.prm s.cfg.mode ∧ (n = none ∨ s.cfg.mode = .iso) := by
  rw [sessionCheck, Bool.and_eq_true, Bool.and_eq_true, Bool.or_eq_true, decide_eq_true_iff, decide_eq_true_iff,
    Option.isNone_iff_eq_none, nadOk_iff, and_assoc, crcLen]

theorem listenCheck_iff (hv : s.ses.valid = true) {f : Nat} {d : Option Byte} : listenCheck f d s = true ↔
    didAccepted d s ∧ f ≤ fsxMax s.prm s.cfg.mode ∧ argHdrLen d s + 2 ≤ f := by
  rw [listenCheck, hdrLen_arg hv, Bool.and_eq_true, Bool.and_eq_true, didArgOk_iff, decide_eq_true_iff, decide_eq_true_iff,
    and_assoc, crcLen]

theorem txCheck_iff (hv : s.ses.valid = true) {l f : Nat} {d : Option Byte} : txCheck l f d s = true ↔
    didAccepted d s ∧ f ≤ fsxMax s.prm s.cfg.mode ∧ argHdrLen d s + 2 ≤ f ∧ l ≤ f - argHdrLen d s - 2 := by
  rw [txCheck, hdrLen_arg hv, Bool.and_eq_true, listenCheck_iff hv, decide_eq_true_iff, and_assoc, and_assoc, crcLen]

/-! ### The admitted commands -/

theorem exec_init (h : admits .init s = true) (m : Mode) (a b c : Nat) :
    exec (.init m a b c) s = .next (initEffect m a b c s) :=
  ifAdmitted_of_admits h

/-- R240: the parameters, the session registers and the received data stay; all else that a command may write is set. -/
theorem initEffect_eq (m : Mode) (a b c : Nat) (s : State) :
    initEffect m a b c s =
      { s with cfg := { mode := m, maxI := a, maxR := b, maxS := c }, ctx := clearedCtx,
               out := { s.out with result := .done, rxLen := 0, value := 0 }, tr := { s.tr with pend := none } } := by
  simp only [initEffect, fullReset_eq]
  rfl

theorem exec_setSession_of_check (h : admits .setSession s = true) {f : Nat} {n : Option Byte}
    (hc : sessionCheck f n s = true) (w : Nat) :
    exec (.setSession w f n) s = .next { result .done s with ses := { valid := true, dFwt := w, ourFsx := f, nad := n } } :=
  (ifAdmitted_of_admits h).trans (if_pos hc)

theorem exec_setSession_of_not_check (h : admits .setSession s = true) {f : Nat} {n : Option Byte}
    (hc : ¬sessionCheck f n s = true) (w : Nat) : exec (.setSession w f n) s = .next (result .parameterError s) :=
  (ifAdmitted_of_admits h).trans (if_neg hc)

section
variable {b : List Byte} {l f : Nat} {d : Option Byte}

/-- R91: the payload copied in is the first `l` bytes of the caller's buffer. -/
theorem memRead_zero_of_le (hl : l ≤ b.length) : memRead b 0 l = .ok (b.take l) :=
  memRead_eq_ok.2 ⟨by omega, rfl⟩

/-- R82: a copy-in past the end of the caller's buffer is out of bounds. -/
theorem memRead_zero_of_lt (hl : b.length < l) : memRead b 0 l = .error .bufferBounds :=
  if_neg (by omega)

theorem exec_startTx_of_le (h : admits .startTx s = true) (hc : txCheck l f d s = true) (hl : l ≤ b.length) (c : Bool)
    (r w : Nat) : exec (.startTx b l c r w f d) s = .next (startTxEffect (b.take l) c r w f d s) :=
  (ifAdmitted_of_admits h).trans ((if_pos hc).trans (by rw [memRead_zero_of_le hl]))

theorem exec_startTx_of_lt (h : admits .startTx s = true) (hc : txCheck l f d s = true) (hl : b.length < l) (c : Bool)
    (r w : Nat) : exec (.startTx b l c r w f d) s = .fault .bufferBounds :=
  (ifAdmitted_of_admits h).trans ((if_pos hc).trans (by rw [memRead_zero_of_lt hl]))

theorem exec_startTx_of_not_check (h : admits .startTx s = true) (hc : ¬txCheck l f d s = true) (c : Bool) (r w : Nat) :
    exec (.startTx b l c r w f d) s = .next (result .parameterError s) :=
  (ifAdmitted_of_admits h).trans (if_neg hc)

end

/-- R247: the block number, `ctx.rxChaining` and what is kept for retransmission stay. -/
theorem startTxEffect_eq (inf : List Byte) (c : Bool) (r w f : Nat) (d : Option Byte) (s : State) :
    startTxEffect inf c r w f d s =
      { s with ctx := { s.ctx with st := .tx, txInf := inf, txChaining := c, rxCap := r, fwt := w, fsx := f,
                                   did := d.map (fun v => v.truncate 4), cntI := 0, cntR := 0, cntS := 0 },
               out := { s.out with result := .done, rxLen := 0 } } := rfl

theorem exec_poll_tx (h : admits .poll s = true) (hst : s.ctx.st = .tx) : exec .poll s = .next (pollTx s) :=
  (ifAdmitted_of_admits h).trans (if_pos hst)

/-- R220, R226: the pending I-block is built, submitted, and remembered both as the last I-block and as the last frame. -/
theorem sendI_eq (s : State) :
    sendI s = { s with ctx := { s.ctx with lastKind := some .i, lastI := buildFrame .i s.ctx.txInf s,
                                           lastFrame := buildFrame .i s.ctx.txInf s },
                       tr := { s.tr with pend := pending (buildFrame .i s.ctx.txInf s) (ordinaryFwt s) s } } := rfl

theorem exec_getMaxPayload (h : admits .getMaxPayload s = true) :
    exec .getMaxPayload s = .next (answered (maxPayload s) s) :=
  ifAdmitted_of_admits h

theorem maxPayload_eq (s : State) : maxPayload s =
    s.ctx.fsx - (1 + (if s.ctx.did = none then 0 else 1) + (if s.ses.readable.nad = none then 0 else 1)) - 2 := by
  rw [maxPayload, txHdrLenI, hdrLen_isSome, crcLen]

end

/-- Settles O12: the admitted `INIT` is its effect, field by field (R240). -/
theorem initResetsTheLinkContext : Obligations.InitResetsTheLinkContext := by
  intro m a b c s hn hst
  rw [exec_init (admits_init.2 ⟨hn, hst⟩), initEffect_eq]

/-- Settles O13: `SessionCheck` decides between the two answers. -/
theorem setSessionStoresOrReports : Obligations.SetSessionStoresOrReports := by
  intro w f n s hst hn
  have hadm := admits_setSession.2 ⟨hn, hst⟩
  rw [← sessionCheck_iff]
  exact ⟨fun hc => exec_setSession_of_check hadm hc w, fun hc => exec_setSession_of_not_check hadm hc w⟩

/-- Settles O14: `TxCheck` decides whether the copy-in runs, and the caller's buffer whether that faults. -/
theorem startTxArmsOrReports : Obligations.StartTxArmsOrReports := by
  intro b l c r w f d s hst hn hv
  have hadm := admits_startTx.2 ⟨hn, hst, hv⟩
  rw [← txCheck_iff hv]
  refine ⟨fun hc hl => exec_startTx_of_lt hadm hc hl c r w, fun hc hl => ?arms,
    fun hc => exec_startTx_of_not_check hadm hc c r w⟩
  case arms => rw [exec_startTx_of_le hadm hc hl, startTxEffect_eq]

/-- Settles O15: the step is R226's submission, then the move to `RX` and the result `Busy` (R249). -/
theorem pollInTxSendsThePendingBlock : Obligations.PollInTxSendsThePendingBlock := by
  intro s hst hn
  rw [exec_poll_tx (admits_poll.2 ⟨hn, .inl hst⟩) hst, pollTx, sendI_eq]
  rfl

/-- Settles O17: the admitted query answers the payload room of a frame (R252). -/
theorem getMaxPayloadAnswers : Obligations.GetMaxPayloadAnswers := by
  intro s hn hst
  rw [exec_getMaxPayload (admits_getMaxPayload.2 ⟨hn, hst⟩), maxPayload_eq]

end Sys2Proof.Machine
end

