-- ==== Sys2Proof/Proofs/ControlFrames.lean ====
section
/-! What the Control-Message Builder leaves (R220 to R224, R227), in the words of the statements. -/

namespace Sys2Proof.Machine

open Sys2Proof.Spec

/-- R220: a block that is no I-block is submitted and remembered as the last frame; the last I-block stays. -/
theorem sendFrame_eq_sent {k : BlockKind} (hk : k ≠ .i) (inf : List Byte) (w : Nat) (s : State) :
    sendFrame k inf w s =
      sent k (controlFrame (encHeader k s.ctx.bn s.ctx.txChaining s.ctx.did.isSome false) inf s) w s := by
  rw [← buildFrame_eq_controlFrame hk, sendFrame, if_neg hk]
  rfl

theorem sendAck_eq (s : State) :
    sendAck s = sent .rAck (controlFrame (encRAck s.ctx.bn s.ctx.did.isSome) [] s) (ordinaryFwt s) s :=
  sendFrame_eq_sent (by decide) ..

theorem sendNak_eq (s : State) :
    sendNak s = sent .rNak (controlFrame (encRNak s.ctx.bn s.ctx.did.isSome) [] s) (ordinaryFwt s) s :=
  sendFrame_eq_sent (by decide) ..

theorem sendWtxReply_eq (m : Nat) (s : State) :
    sendWtxReply m s = sent .sWtx (controlFrame (encSWtx s.ctx.did.isSome) [BitVec.ofNat 8 m] s)
      (min s.prm.maxFwt (s.ctx.fwt * m + s.ses.readable.dFwt)) s :=
  sendFrame_eq_sent (by decide) ..

theorem sendDsl_eq (s : State) :
    sendDsl s = sent .sDsl (controlFrame (encSDsl s.ctx.did.isSome) [] s) s.prm.fwtDsl s :=
  sendFrame_eq_sent (by decide) ..

/-- R227: the kept I-block is pending again; what is kept for retransmission stays. -/
theorem resendI_eq (s : State) :
    resendI s = { s with ctx := { s.ctx with lastKind := some .i },
                         tr := { s.tr with pend := pending s.ctx.lastI (ordinaryFwt s) s } } := rfl

end Sys2Proof.Machine
end

