-- ==== Sys2Proof/Proofs/Reception.lean ====
section
/-! A reception step in two halves: which rule it runs (by the state that awaits a block, and the transport's answer), and what
is left when that rule has concluded (R384, R400, R404). -/

namespace Sys2Proof.Machine

open Sys2Proof.Spec

section
variable {s : State} {n : Nat}

/-! ### The states that await a block -/

theorem phase_of_pollerAwaits : pollerAwaits s → phase s = some .pollerRx
  | ⟨hrole, hst, _⟩ => phase_eq_some.2 (.inl ⟨rfl, hrole, hst⟩)

theorem phase_of_deselectAwaits : deselectAwaits n s → phase s = some .pollerWait
  | ⟨hrole, hst, _⟩ => phase_eq_some.2 (.inr (.inl ⟨rfl, hrole, hst⟩))

theorem phase_of_listenerAwaits : listenerAwaits s → phase s = some .listenerRx
  | ⟨hrole, hst, _⟩ => phase_eq_some.2 (.inr (.inr ⟨rfl, hrole, hst⟩))

theorem admits_poll_of_pollerAwaits : pollerAwaits s → admits .poll s = true
  | ⟨_, hst, hiter⟩ => admits_poll.2 ⟨hiter, .inr (.inl hst)⟩

theorem admits_poll_of_listenerAwaits : listenerAwaits s → admits .poll s = true
  | ⟨_, hst, hiter⟩ => admits_poll.2 ⟨hiter, .inr hst⟩

/-! ### A block that passes the header check runs its rule -/

section
variable {d m : Bool} {poller waiting listener : State → Rx}

theorem runBlock_of_pollerAwaits (hs : pollerAwaits s) (hp : passes d m s) :
    runBlock d m poller waiting listener s = conclude none (poller s) := by
  have hphase := phase_of_pollerAwaits hs
  obtain ⟨-, -, hiter⟩ := hs
  simp only [runBlock, hphase, hiter, hp]

theorem runBlock_of_deselectAwaits (hs : deselectAwaits n s) (hp : passes d m s) :
    runBlock d m poller waiting listener s = conclude (some n) (waiting s) := by
  have hphase := phase_of_deselectAwaits hs
  obtain ⟨-, -, hiter⟩ := hs
  simp only [runBlock, hphase, hiter, hp]

theorem runBlock_of_listenerAwaits (hs : listenerAwaits s) (hp : passes d m s) :
    runBlock d m poller waiting listener s = conclude none (listener s) := by
  have hphase := phase_of_listenerAwaits hs
  obtain ⟨-, -, hiter⟩ := hs
  simp only [runBlock, hphase, hiter, hp]

end

/-! ### A transport with an answer laid down -/

section
variable {p : Phase} {a : TStatus} {rest : List TStatus}

/-- R248: where a `POLL` reads the transport, it reacts to the transport's answer. -/
theorem exec_poll_answer (ha : admits .poll s = true) (hp : phase s = some p) (ht : s.tr.pend ≠ none)
    (hr : s.tr.answers = a :: rest) :
    exec .poll s = react p a (afterStatus a { s with tr := { s.tr with answers := rest } }) := by
  have hst : s.ctx.st ≠ .tx := by
    intro h
    simp [phase, h] at hp
  calc exec .poll s = receive s := (ifAdmitted_of_admits ha).trans (if_neg hst)
    _ = _ := receive_answer hp ht hr

theorem step_of_running (hn : s.ctx.dslIter = some n) (hc : s.cmd = none) : step s = deselectIteration n s := by
  simp only [step, fetch, hc, hn]

/-- R382: below its cap, an iteration of `DESELECT` counts itself and reacts to the transport's answer. -/
theorem step_deselect_answer (hs : deselectAwaits n s) (hc : s.cmd = none) (hcap : n ≠ s.prm.dslCap)
    (ht : s.tr.pend ≠ none) (hr : s.tr.answers = a :: rest) :
    step s = react .pollerWait a (afterStatus a
      { s with ctx := { s.ctx with dslIter := some (n + 1) }, tr := { s.tr with answers := rest } }) := by
  obtain ⟨hrole, hst, hiter⟩ := hs
  let t : State := { s with ctx := { s.ctx with dslIter := some (n + 1) } }
  have hphase : phase t = some .pollerWait := phase_of_deselectAwaits ⟨hrole, hst, rfl⟩
  calc step s = deselectIteration n s := step_of_running hiter hc
    _ = receive t := if_neg hcap
    _ = _ := receive_answer hphase ht hr

end

/-! ### How a rule concludes -/

section
variable {r : Result} {k : Counter} {act : State → State}

/-- R404: a terminal error of an exchange. -/
theorem conclude_fail (r : Result) (s : State) : conclude none (fail r s) = .next (failed r s) := rfl

/-- R384: a terminal error of a `DESELECT` completes it. -/
theorem conclude_some_fail (hr : r ≠ .busy) :
    conclude (some n) (fail r s) = .next { result r s with ctx := clearedCtx } := by
  simp only [fail, conclude, complete, if_neg hr, fullReset_eq]
  rfl

theorem conclude_busyAfter (act : State → State) (s : State) :
    conclude none (busyAfter act s) = .next (result .busy (act s)) := rfl

/-- R382: while its code is `Busy`, a `DESELECT` goes on with no result written. -/
theorem conclude_some_busyAfter (act : State → State) (s : State) :
    conclude (some n) (busyAfter act s) = .next (act s) := rfl

theorem conclude_retry_of_lt (h : ceiling k s < count k s + 1) :
    conclude none (retryThen k (busyAfter act) s) = .next (failed (exhaustCode k) s) := by
  rw [retryThen_of_lt h]
  rfl

theorem conclude_retry_of_le (h : count k s + 1 ≤ ceiling k s) :
    conclude none (retryThen k (busyAfter act) s) = .next (result .busy (act (countUp k s))) := by
  rw [retryThen_of_le h]
  rfl

end

/-! ### Transmission errors -/

section
variable {p : Phase} {e : TxError}

theorem bailsOn_iff {q : Params} {m : Mode} : bailsOn q m e = true ↔ (m, e) ∈ q.bailOn :=
  List.contains_iff_mem

theorem bailCode_eq (e : TxError) : bailCode e = if e = .timeout then .timeout else .protocolError := by
  cases e <;> rfl

theorem transmissionError_of_mem (h : (s.cfg.mode, e) ∈ s.prm.bailOn) :
    transmissionError p e s = fail (if e = .timeout then .timeout else .protocolError) s := by
  rw [← bailCode_eq]
  exact if_pos (bailsOn_iff.2 h)

theorem transmissionError_of_not_mem (h : (s.cfg.mode, e) ∉ s.prm.bailOn) (hp : p ≠ .listenerRx) :
    transmissionError p e s = pollerRecover s := by
  cases p with
  | listenerRx => exact absurd rfl hp
  | _ => exact if_neg (mt bailsOn_iff.1 h)

/-- R284. -/
theorem pollerRecover_rxChaining (h : s.ctx.rxChaining = true) :
    pollerRecover s = retryThen .r (busyAfter sendAck) s :=
  if_pos h

/-- R285. -/
theorem pollerRecover_waiting (h : s.ctx.rxChaining = false) (hst : s.ctx.st = .waitDeselect) :
    pollerRecover s = retryThen .r (busyAfter sendDsl) s := by
  simp [pollerRecover, h, hst]

/-- R286. -/
theorem pollerRecover_rx (h : s.ctx.rxChaining = false) (hst : s.ctx.st = .rx) :
    pollerRecover s = retryThen .r (busyAfter sendNak) s := by
  simp [pollerRecover, h, hst]

/-- R191: whatever would be sent, the R ceiling ends the recovery with `Timeout`. -/
theorem pollerRecover_of_lt (h : s.cfg.maxR < s.ctx.cntR + 1) : pollerRecover s = fail .timeout s := by
  unfold pollerRecover
  split_ifs <;> exact retryThen_of_lt h

end

/-! ### Accepted I-blocks -/

section
variable {d m : Bool} {act : State → State} {c : Result} {u : State}

/-- R300: the buffer check comes before any effect of the block. -/
theorem conclude_tooLarge {rule : Rx} (hc : s.ctx.rxCap < infLen d m s) :
    conclude none (ifFits (hdrLen d m) s rule) = .next (failed .bufferTooSmall s) := by
  rw [ifFits, if_pos hc, conclude_fail]

/-- R90: what the block leaves in `u`, with the received INF added, then the rule's last change. -/
theorem conclude_delivered (hp : passes d m s) (hc : infLen d m s ≤ s.ctx.rxCap) (hf : rxFrame u = rxFrame s)
    (hu : u.ctx.rxCap = s.ctx.rxCap) :
    conclude none (ifFits (hdrLen d m) s (deliverThen (hdrLen d m) act c u)) =
      .next (result c (act { u with out := { u.out with rxData := (rxFrame s).drop (hdrLen d m),
                                                        rxLen := infLen d m s } })) := by
  have hh : hdrLen d m ≤ (rxFrame u).length := hf ▸ hdrLen_le hp
  have hc' : (rxFrame u).length - hdrLen d m ≤ u.ctx.rxCap := by rwa [hf, hu]
  rw [ifFits, if_neg (Nat.not_lt.2 hc), deliverThen_of_fits hh hc', hf]
  rfl

end

end

/-- Settles O30: neither answer depends on the role, and a `DESELECT` is concluded apart. -/
theorem busyWaitsAndLinkLossEnds : Obligations.BusyWaitsAndLinkLossEnds := by
  intro s rest ht
  refine ⟨fun hs => ?poll, fun n hs hc hcap => ⟨fun hr => ?dslBusy, fun hr => ?dslLinkLoss⟩⟩
  case poll =>
    have hiter : s.ctx.dslIter = none := hs.elim (·.2.2) (·.2.2)
    obtain ⟨p, hp⟩ : ∃ p, phase s = some p :=
      hs.elim (fun h => ⟨_, phase_of_pollerAwaits h⟩) (fun h => ⟨_, phase_of_listenerAwaits h⟩)
    have ha : admits .poll s = true := hs.elim admits_poll_of_pollerAwaits admits_poll_of_listenerAwaits
    refine ⟨fun hr => ?busy, fun hr => ?linkLoss⟩
    all_goals
      rw [exec_poll_answer ha hp ht hr]
      simp only [react, afterStatus, hiter]
    case busy => exact conclude_busyAfter _ _
    case linkLoss => exact conclude_fail _ _
  case dslBusy => exact (step_deselect_answer hs hc hcap ht hr).trans (conclude_some_busyAfter _ _)
  case dslLinkLoss => exact (step_deselect_answer hs hc hcap ht hr).trans (conclude_some_fail (by decide))

end Sys2Proof.Machine
end

