-- ==== Sys2Proof/Proofs/PollerReception.lean ====
section
/-! The poller's exchange (spec/44_poller_rx.md R284 to R297): each received block's rule, case by case. -/

namespace Sys2Proof.Machine

open Sys2Proof.Spec

section
variable {s : State}

/-! ### The rule each block runs in `RX` -/

section
variable {d m b : Bool}

theorem exec_iFinal_pollerRx (hs : pollerAwaits s) (hp : passes d m s) :
    exec (.iFinal d m b) s = conclude none (pollerIFinal (hdrLen d m) b s) :=
  runBlock_of_pollerAwaits hs hp

theorem exec_iChain_pollerRx (hs : pollerAwaits s) (hp : passes d m s) :
    exec (.iChain d m b) s = conclude none (pollerIChain (hdrLen d m) b s) :=
  runBlock_of_pollerAwaits hs hp

theorem exec_rAck_pollerRx (hs : pollerAwaits s) (hp : passes d false s) :
    exec (.rAck d b) s = conclude none (pollerRAck (hdrLen d false) b s) :=
  runBlock_of_pollerAwaits hs hp

theorem exec_sWtx_pollerRx (hs : pollerAwaits s) (hp : passes d false s) :
    exec (.sWtx d) s = conclude none (pollerSWtx (hdrLen d false) s) :=
  runBlock_of_pollerAwaits hs hp

end

/-! ### S(WTX) -/

/-- R109: WTXM is the low 6 bits of its byte. -/
theorem wtxm_eq (b : Byte) : wtxm b = b.toNat % 64 := by
  rw [wtxm, BitVec.toNat_and]
  exact Nat.and_two_pow_sub_one_eq_mod b.toNat 6

section
variable {h : Nat} {b : Byte}

theorem pollerSWtx_of_length_ne {inf : List Byte} (hi : rxInf h s = .ok inf) (hl : inf.length ≠ 1) :
    pollerSWtx h s = fail .protocolError s := by
  rw [pollerSWtx, hi]
  match inf with
  | [] => rfl
  | [_] => exact absurd rfl hl
  | _ :: _ :: _ => rfl

theorem pollerSWtx_of_bad (hi : rxInf h s = .ok [b]) (hm : b.toNat % 64 = 0 ∨ 59 < b.toNat % 64) :
    pollerSWtx h s = fail .protocolError s := by
  simp only [pollerSWtx, hi, wtxm_eq, if_pos hm]

theorem pollerSWtx_of_good (hi : rxInf h s = .ok [b]) (hm : 1 ≤ b.toNat % 64 ∧ b.toNat % 64 ≤ 59) :
    pollerSWtx h s = retryThen .s (busyAfter (sendWtxReply (b.toNat % 64))) s := by
  simp only [pollerSWtx, hi, wtxm_eq]
  exact if_neg (by omega)

end

/-! ### R(ACK) -/

section
variable {h : Nat} {b : Bool}

/-- R292: without transmit chaining nothing is there to acknowledge. -/
theorem pollerRAck_of_not_chaining (ht : s.ctx.txChaining = false) : pollerRAck h b s = fail .protocolError s := by
  simp [pollerRAck, ht]

theorem pollerRAck_of_inf (ht : s.ctx.txChaining = true) (hi : ¬noInf h s = true) :
    pollerRAck h b s = fail .protocolError s := by
  simp [pollerRAck, ht, hi]

/-- R290. -/
theorem pollerRAck_of_match (ht : s.ctx.txChaining = true) (hi : noInf h s = true) (hb : b = s.ctx.bn) :
    pollerRAck h b s = chainAcked s := by
  simp [pollerRAck, ht, hi, hb]

/-- R291. -/
theorem pollerRAck_of_mismatch (ht : s.ctx.txChaining = true) (hi : noInf h s = true) (hb : b ≠ s.ctx.bn) :
    pollerRAck h b s = retryThen .i (busyAfter resendI) s := by
  simp [pollerRAck, ht, hi, hb]

/-! ### I-blocks -/

/-- R297. -/
theorem pollerIChain_of_chaining (ht : s.ctx.txChaining = true) : pollerIChain h b s = fail .protocolError s :=
  if_pos ht

/-- R297. -/
theorem pollerIFinal_of_chaining (ht : s.ctx.txChaining = true) : pollerIFinal h b s = fail .protocolError s :=
  if_pos ht

/-- R293. -/
theorem pollerIChain_of_match (ht : s.ctx.txChaining = false) (hb : b = s.ctx.bn) :
    pollerIChain h b s =
      ifFits h s (deliverThen h id .partialData (sendAck (clearCounters (setRxChaining (toggleBn s))))) := by
  simp [pollerIChain, ht, hb]

/-- R294. -/
theorem pollerIChain_of_mismatch (ht : s.ctx.txChaining = false) (hb : b ≠ s.ctx.bn) :
    pollerIChain h b s = busyAfter sendAck s := by
  simp [pollerIChain, ht, hb]

/-- R295. -/
theorem pollerIFinal_of_match (ht : s.ctx.txChaining = false) (hb : b = s.ctx.bn) :
    pollerIFinal h b s = ifFits h s (deliverThen h toIdle .done (toggleBn s)) := by
  simp [pollerIFinal, ht, hb]

/-- R296: the strict modes. -/
theorem pollerIFinal_of_strict (ht : s.ctx.txChaining = false) (hb : b ≠ s.ctx.bn)
    (hm : s.cfg.mode = .nfcForum ∨ s.cfg.mode = .emv) : pollerIFinal h b s = fail .protocolError s := by
  obtain hm | hm := hm <;> simp [pollerIFinal, ht, hb, hm]

/-- R296: the permissive mode. -/
theorem pollerIFinal_of_iso (ht : s.ctx.txChaining = false) (hb : b ≠ s.ctx.bn) (hm : s.cfg.mode = .iso) :
    pollerIFinal h b s = retryThen .r (busyAfter sendNak) s := by
  simp [pollerIFinal, ht, hb, hm]

end

end

/-- Settles O31: an error either bails out or is a retry of kind R, whose reply `ctx.rxChaining` chooses. -/
theorem pollerRecoversFromErrors : Obligations.PollerRecoversFromErrors := by
  intro s e rest hs ht hr u c
  have hadm := admits_poll_of_pollerAwaits hs
  have hphase := phase_of_pollerAwaits hs
  obtain ⟨-, hst, hiter⟩ := hs
  have hpoll : exec .poll s = conclude none (transmissionError .pollerRx e u) := by
    rw [exec_poll_answer hadm hphase ht hr]
    simp only [react, afterStatus, hiter, u]
  rw [hpoll]
  refine ⟨fun hm => ?bails, fun hm hx => ?exhausted, fun hm hx hch => ?ack, fun hm hx hch => ?nak⟩
  case bails => rw [transmissionError_of_mem (s := u) hm, conclude_fail]
  all_goals rw [transmissionError_of_not_mem (s := u) hm (by decide)]
  case exhausted => rw [pollerRecover_of_lt (s := u) hx, conclude_fail]
  case ack => rw [pollerRecover_rxChaining (s := u) hch, conclude_retry_of_le (k := .r) (s := u) hx, sendAck_eq]; rfl
  case nak => rw [pollerRecover_rx (s := u) hch hst, conclude_retry_of_le (k := .r) (s := u) hx, sendNak_eq]; rfl

/-- Settles O34: the INF's length, the multiplier and the S ceiling decide in turn. -/
theorem pollerAnswersWtx : Obligations.PollerAnswersWtx := by
  intro d s hs hp
  have hinf := rxInf_of_le (hdrLen_le hp)
  rw [exec_sWtx_pollerRx hs hp]
  refine ⟨fun hl => ?length, fun b hb => ?byte⟩
  case length => rw [pollerSWtx_of_length_ne hinf (by rwa [List.length_drop]), conclude_fail]
  case byte =>
    rw [hb] at hinf
    refine ⟨fun hm => ?bad, fun h1 h59 hx => ?exhausted, fun h1 h59 hx => ?reply⟩
    case bad => rw [pollerSWtx_of_bad hinf hm, conclude_fail]
    case exhausted => rw [pollerSWtx_of_good hinf ⟨h1, h59⟩, conclude_retry_of_lt (k := .s) hx]; rfl
    case reply => rw [pollerSWtx_of_good hinf ⟨h1, h59⟩, conclude_retry_of_le (k := .s) hx, sendWtxReply_eq]; rfl

/-- Settles O35: the INF, the block number and the I ceiling decide in turn. -/
theorem pollerAckDuringChaining : Obligations.PollerAckDuringChaining := by
  intro d b s hs hp hch
  rw [exec_rAck_pollerRx hs hp, ← noInf_iff hp]
  refine ⟨fun hi => ?inf, fun hi hb => ?acked, fun hi hb hx => ?exhausted, fun hi hb hx => ?resent⟩
  case inf => rw [pollerRAck_of_inf hch (mt (noInf_iff hp).1 hi), conclude_fail]
  case acked => rw [pollerRAck_of_match hch hi hb]; rfl
  case exhausted => rw [pollerRAck_of_mismatch hch hi hb, conclude_retry_of_lt (k := .i) hx]; rfl
  case resent => rw [pollerRAck_of_mismatch hch hi hb, conclude_retry_of_le (k := .i) hx, resendI_eq]; rfl

/-- Settles O36: neither rule gets as far as the block number. -/
theorem pollerRejectsOtherRBlocks : Obligations.PollerRejectsOtherRBlocks := by
  intro d b s hs hp
  refine ⟨fun hch => ?ack, ?nak⟩
  case ack => rw [exec_rAck_pollerRx hs hp, pollerRAck_of_not_chaining hch, conclude_fail]
  case nak => exact (runBlock_of_pollerAwaits hs hp).trans (conclude_fail _ _)

/-- Settles O37: the acknowledgement is sent from the toggled state, and the delivery adds the received bytes. -/
theorem pollerAcceptsChainedBlock : Obligations.PollerAcceptsChainedBlock := by
  intro d n b s hs hp hch hb
  rw [exec_iChain_pollerRx hs hp, pollerIChain_of_match hch hb]
  refine ⟨fun hc => ?tooLarge, fun hc => ?fits⟩
  case tooLarge => exact conclude_tooLarge hc
  case fits => rw [sendAck_eq, conclude_delivered hp hc] <;> rfl

/-- Settles O38: the same acknowledgement again is all that happens (R294). -/
theorem pollerReacksMismatchedChainedBlock : Obligations.PollerReacksMismatchedChainedBlock := by
  intro d n b s hs hp hch hb
  rw [exec_iChain_pollerRx hs hp, pollerIChain_of_mismatch hch hb, conclude_busyAfter, sendAck_eq]

/-- Settles O39: the toggled number survives `toIdle`, which follows the delivery. -/
theorem pollerAcceptsFinalBlock : Obligations.PollerAcceptsFinalBlock := by
  intro d n b s hs hp hch hb
  rw [exec_iFinal_pollerRx hs hp, pollerIFinal_of_match hch hb]
  refine ⟨fun hc => ?tooLarge, fun hc => ?fits⟩
  case tooLarge => exact conclude_tooLarge hc
  case fits => rw [conclude_delivered hp hc] <;> rfl

/-- Settles O40: the mode decides between the error and a retry of kind R. -/
theorem pollerMismatchedFinalBlock : Obligations.PollerMismatchedFinalBlock := by
  intro d n b s hs hp hch hb
  rw [exec_iFinal_pollerRx hs hp]
  refine ⟨fun hm => ?strict, fun hm hx => ?exhausted, fun hm hx => ?nak⟩
  case strict => rw [pollerIFinal_of_strict hch hb hm, conclude_fail]
  case exhausted => rw [pollerIFinal_of_iso hch hb hm, conclude_retry_of_lt (k := .r) hx]; rfl
  case nak => rw [pollerIFinal_of_iso hch hb hm, conclude_retry_of_le (k := .r) hx, sendNak_eq]; rfl

/-- Settles O41: in both roles `ctx.txChaining` is the first thing the rule of an I-block asks. -/
theorem iBlockWhileChainingIsRejected : Obligations.IBlockWhileChainingIsRejected := by
  intro d n b s hs hp hch
  obtain hs | hs := hs
  · rw [exec_iFinal_pollerRx hs hp, exec_iChain_pollerRx hs hp, pollerIFinal_of_chaining hch,
      pollerIChain_of_chaining hch, conclude_fail]
    exact ⟨rfl, rfl⟩
  · have hfinal : listenerIFinal (hdrLen d n) s = fail .protocolError s := if_pos hch
    have hchain : listenerIChain (hdrLen d n) s = fail .protocolError s := if_pos hch
    exact ⟨(runBlock_of_listenerAwaits hs hp).trans (by rw [hfinal, conclude_fail]),
      (runBlock_of_listenerAwaits hs hp).trans (by rw [hchain, conclude_fail])⟩

end Sys2Proof.Machine
end

