-- ==== Sys2Proof/Proofs/DeselectReception.lean ====
section
/-! What ends a pending deselect, and what keeps it going (R285, R298, R299, R384). -/

namespace Sys2Proof.Machine

open Sys2Proof.Spec

/-- R298: a block without a rule of its own in `WAIT_DESELECT` ends the `DESELECT`. -/
theorem runBlock_waitingOther {d m : Bool} {n : Nat} {s : State} {poller listener : State → Rx}
    (hs : deselectAwaits n s) (hp : passes d m s) :
    runBlock d m poller waitingOther listener s = .next { result .protocolError s with ctx := clearedCtx } :=
  (runBlock_of_deselectAwaits hs hp).trans (conclude_some_fail (by decide))

/-- Settles O43: S(DESELECT) is the one block with a rule of its own there. -/
theorem otherBlockEndsTheDeselect : Obligations.OtherBlockEndsTheDeselect := by
  intro i n s hi hne hs hp
  cases i with
  | sDsl d => exact absurd rfl (hne d)
  | iFinal => exact runBlock_waitingOther hs hp
  | iChain => exact runBlock_waitingOther hs hp
  | rAck => exact runBlock_waitingOther hs hp
  | rNak => exact runBlock_waitingOther hs hp
  | sWtx => exact runBlock_waitingOther hs hp
  | _ => simp [isBlock] at hi

theorem exec_sDsl_deselectAwaits {d : Bool} {n : Nat} {s : State} (hs : deselectAwaits n s) (hp : passes d false s) :
    exec (.sDsl d) s = conclude (some n) (waitingSDsl (hdrLen d false) s) :=
  runBlock_of_deselectAwaits hs hp

/-- Settles O42: in `RX` the rule asks nothing, in `WAIT_DESELECT` only for an INF. -/
theorem pollerReceivesDeselect : Obligations.PollerReceivesDeselect := by
  intro d s hp
  refine ⟨fun hs => ?rx, fun n hs hi => ?done, fun n hs hi => ?inf⟩
  case rx => exact (runBlock_of_pollerAwaits hs hp).trans (conclude_fail _ _)
  case done =>
    rw [exec_sDsl_deselectAwaits hs hp, waitingSDsl, if_pos ((noInf_iff hp).2 hi)]
    rfl
  case inf =>
    rw [exec_sDsl_deselectAwaits hs hp, waitingSDsl, if_neg (mt (noInf_iff hp).1 hi)]
    exact conclude_some_fail (by decide)

/-- Settles O52: the recovery runs in the state whose iteration is counted; a reset forgets that count. -/
theorem deselectResendsOnErrors : Obligations.DeselectResendsOnErrors := by
  intro n s e rest hs hch hc hcap ht hr u
  let v : State := { u with ctx := { u.ctx with dslIter := some (n + 1) } }
  have hstep : step s = conclude (some (n + 1)) (transmissionError .pollerWait e v) :=
    step_deselect_answer hs hc hcap ht hr
  obtain ⟨-, hst, -⟩ := hs
  rw [hstep]
  refine ⟨fun hm => ?bails, fun hm hx => ?exhausted, fun hm hx => ?resent⟩
  case bails =>
    rw [transmissionError_of_mem (s := v) hm, conclude_some_fail (by split <;> decide)]
  all_goals rw [transmissionError_of_not_mem (s := v) hm (by decide)]
  case exhausted => rw [pollerRecover_of_lt (s := v) hx, conclude_some_fail (by decide)]
  case resent =>
    rw [pollerRecover_waiting (s := v) hch hst, retryThen_of_le (k := .r) (s := v) hx, conclude_some_busyAfter, sendDsl_eq]
    rfl

end Sys2Proof.Machine
end

