-- ==== Sys2Proof/Proofs/ListenerReception.lean ====
section
/-! The listener's exchange (spec/45_listener.md R343 to R354): each received block's rule, case by case. -/

namespace Sys2Proof.Machine

open Sys2Proof.Spec

section
variable {s : State}

/-! ### The rule each block runs -/

section
variable {d m b : Bool}

theorem exec_iFinal_listenerRx (hs : listenerAwaits s) (hp : passes d m s) :
    exec (.iFinal d m b) s = conclude none (listenerIFinal (hdrLen d m) s) :=
  runBlock_of_listenerAwaits hs hp

theorem exec_iChain_listenerRx (hs : listenerAwaits s) (hp : passes d m s) :
    exec (.iChain d m b) s = conclude none (listenerIChain (hdrLen d m) s) :=
  runBlock_of_listenerAwaits hs hp

theorem exec_rAck_listenerRx (hs : listenerAwaits s) (hp : passes d false s) :
    exec (.rAck d b) s = conclude none (listenerRAck (hdrLen d false) b s) :=
  runBlock_of_listenerAwaits hs hp

theorem exec_rNak_listenerRx (hs : listenerAwaits s) (hp : passes d false s) :
    exec (.rNak d b) s = conclude none (listenerRNak (hdrLen d false) b s) :=
  runBlock_of_listenerAwaits hs hp

theorem exec_sDsl_listenerRx (hs : listenerAwaits s) (hp : passes d false s) :
    exec (.sDsl d) s = conclude none (listenerSDsl (hdrLen d false) s) :=
  runBlock_of_listenerAwaits hs hp

end

/-- R343: an error that is no bail-out only arms reception again. -/
theorem transmissionError_listenerRx_of_not_mem {e : TxError} (h : (s.cfg.mode, e) ∉ s.prm.bailOn) :
    transmissionError .listenerRx e s = busyAfter armReception s :=
  if_neg (mt bailsOn_iff.1 h)

/-! ### I-blocks -/

section
variable {h : Nat}

/-- R344. -/
theorem listenerIChain_of_not_chaining (ht : s.ctx.txChaining = false) :
    listenerIChain h s =
      ifFits h s (deliverThen h (setSt .rx) .partialData (sendAck (clearCounters (setRxChaining (toggleBn s))))) := by
  simp [listenerIChain, ht]

/-- R346. -/
theorem listenerIFinal_of_not_chaining (ht : s.ctx.txChaining = false) :
    listenerIFinal h s = ifFits h s (deliverThen h toIdle .done (toggleBn s)) := by
  simp [listenerIFinal, ht]

end

/-! ### Retransmission (R348) -/

theorem listenerRetransmit_of_nothing_sent (hl : s.ctx.lastFrame = []) : listenerRetransmit s = fail .protocolError s :=
  if_pos hl

/-- R191: the exhausted I ceiling has the code of an empty `ctx.lastFrame`, so that it decides whatever was sent. -/
theorem listenerRetransmit_of_lt (hx : s.cfg.maxI < s.ctx.cntI + 1) : listenerRetransmit s = fail .protocolError s := by
  unfold listenerRetransmit
  split_ifs
  · rfl
  · exact retryThen_of_lt (k := .i) hx

theorem listenerRetransmit_of_le {pcb : Byte} {f : List Byte} (hl : s.ctx.lastFrame = pcb :: f)
    (hx : s.ctx.cntI + 1 ≤ s.cfg.maxI) :
    listenerRetransmit s = busyAfter (fun t => setSt .rx (resendKept pcb t)) (countUp .i s) := by
  have hne : s.ctx.lastFrame ≠ [] := hl ▸ List.cons_ne_nil pcb f
  rw [listenerRetransmit, if_neg hne, retryThen_of_le (k := .i) hx, resendLast_cons (s := countUp .i s) hl]
  rfl

/-! ### R-blocks -/

section
variable {h : Nat} {b : Bool}

/-- R341: no R-block carries an INF. -/
theorem listenerRAck_of_inf (hi : ¬noInf h s = true) : listenerRAck h b s = fail .protocolError s := by
  simp [listenerRAck, hi]

/-- R341: no R-block carries an INF. -/
theorem listenerRNak_of_inf (hi : ¬noInf h s = true) : listenerRNak h b s = fail .protocolError s := by
  simp [listenerRNak, hi]

theorem listenerRAck_of_match (hi : noInf h s = true) (hb : b = s.ctx.bn) :
    listenerRAck h b s = listenerRetransmit s := by
  simp [listenerRAck, hi, hb]

theorem listenerRNak_of_match (hi : noInf h s = true) (hb : b = s.ctx.bn) :
    listenerRNak h b s = listenerRetransmit s := by
  simp [listenerRNak, hi, hb]

/-- R350. -/
theorem listenerRAck_of_chaining (hi : noInf h s = true) (hb : b ≠ s.ctx.bn) (ht : s.ctx.txChaining = true) :
    listenerRAck h b s = chainAcked s := by
  simp [listenerRAck, hi, hb, ht]

/-- R352. -/
theorem listenerRAck_of_not_chaining (hi : noInf h s = true) (hb : b ≠ s.ctx.bn) (ht : s.ctx.txChaining = false) :
    listenerRAck h b s = fail .protocolError s := by
  simp [listenerRAck, hi, hb, ht]

/-- R349. -/
theorem listenerRNak_of_mismatch (hi : noInf h s = true) (hb : b ≠ s.ctx.bn) :
    listenerRNak h b s = retryThen .r (busyAfter (fun t => setSt .rx (sendAck t))) s := by
  simp [listenerRNak, hi, hb]

end

end

/-- Settles O45: neither rule reads the received block number; the delivery adds the received bytes to what was acknowledged. -/
theorem listenerAcceptsIBlocks : Obligations.ListenerAcceptsIBlocks := by
  intro d n b s hs hp hch
  rw [exec_iChain_listenerRx hs hp, exec_iFinal_listenerRx hs hp, listenerIChain_of_not_chaining hch,
    listenerIFinal_of_not_chaining hch]
  refine ⟨fun hc => ⟨conclude_tooLarge hc, conclude_tooLarge hc⟩, fun hc => ⟨?chained, ?final⟩⟩
  case chained => rw [sendAck_eq, conclude_delivered hp hc] <;> rfl
  case final => rw [conclude_delivered hp hc] <;> rfl

/-- Settles O46: both R-blocks come down to the same retransmission, which the kept frame and the I ceiling decide. -/
theorem listenerRetransmits : Obligations.ListenerRetransmits := by
  intro d b s i hi hs hp hinf hb
  have hno : noInf (hdrLen d false) s = true := (noInf_iff hp).2 hinf
  have hexec : exec i s = conclude none (listenerRetransmit s) := by
    obtain rfl | rfl := hi
    · rw [exec_rAck_listenerRx hs hp, listenerRAck_of_match hno hb]
    · rw [exec_rNak_listenerRx hs hp, listenerRNak_of_match hno hb]
  rw [hexec]
  refine ⟨fun hx => ?fails, fun pcb f hl _ hx => ?resent⟩
  case fails => rw [hx.elim listenerRetransmit_of_nothing_sent listenerRetransmit_of_lt, conclude_fail]
  case resent =>
    rw [listenerRetransmit_of_le hl hx, conclude_busyAfter, ← hl]
    rfl

/-- Settles O44: the error either bails out or arms reception, which submits the empty frame. -/
theorem listenerRearmsOnErrors : Obligations.ListenerRearmsOnErrors := by
  intro s e rest hs ht hr
  let u : State := { s with tr := { s.tr with answers := rest, pend := none } }
  have hpoll : exec .poll s = conclude none (transmissionError .listenerRx e u) := by
    rw [exec_poll_answer (admits_poll_of_listenerAwaits hs) (phase_of_listenerAwaits hs) ht hr]
    obtain ⟨-, -, hiter⟩ := hs
    simp only [react, afterStatus, hiter, u]
  rw [hpoll]
  refine ⟨fun hm => ?bails, fun hm => ?rearms⟩
  case bails => rw [transmissionError_of_mem (s := u) hm, conclude_fail]
  case rearms =>
    rw [transmissionError_listenerRx_of_not_mem (s := u) hm, conclude_busyAfter]
    rfl

/-- Settles O47: a retry of kind R, whose acknowledgement leaves the listener in `RX`. -/
theorem listenerAnswersNak : Obligations.ListenerAnswersNak := by
  intro d b s hs hp hinf hb
  rw [exec_rNak_listenerRx hs hp, listenerRNak_of_mismatch ((noInf_iff hp).2 hinf) hb]
  refine ⟨fun hx => ?exhausted, fun hx => ?acked⟩
  case exhausted => rw [conclude_retry_of_lt (k := .r) hx]; rfl
  case acked => rw [conclude_retry_of_le (k := .r) hx, sendAck_eq]; rfl

/-- Settles O48: the INF and the chaining flag decide in turn. -/
theorem listenerChainIsAcknowledged : Obligations.ListenerChainIsAcknowledged := by
  intro d b s hs hp
  rw [exec_rAck_listenerRx hs hp, exec_rNak_listenerRx hs hp]
  refine ⟨fun hi hb hch => ?acked, fun hi hb hch => ?unasked, fun hi => ?inf⟩
  case acked => rw [listenerRAck_of_chaining ((noInf_iff hp).2 hi) hb hch]; rfl
  case unasked => rw [listenerRAck_of_not_chaining ((noInf_iff hp).2 hi) hb hch, conclude_fail]
  case inf =>
    have hno : ¬noInf (hdrLen d false) s = true := mt (noInf_iff hp).1 hi
    rw [listenerRAck_of_inf hno, listenerRNak_of_inf hno, conclude_fail]
    exact ⟨rfl, rfl⟩

/-- Settles O49: the rule asks nothing of the block. -/
theorem listenerRejectsWtx : Obligations.ListenerRejectsWtx :=
  fun _ _ hs hp => (runBlock_of_listenerAwaits hs hp).trans (conclude_fail _ _)

/-- Settles O50: the reply stays pending through the reset of the context, which the transport is no part of. -/
theorem listenerAnswersDeselect : Obligations.ListenerAnswersDeselect := by
  intro d s hs hp
  rw [exec_sDsl_listenerRx hs hp, listenerSDsl]
  refine ⟨fun hi => ?answered, fun hi => ?inf⟩
  case answered =>
    rw [if_pos ((noInf_iff hp).2 hi), sendFrame_eq_sent (by decide), fullReset_eq]
    rfl
  case inf => rw [if_neg (mt (noInf_iff hp).1 hi), conclude_fail]

end Sys2Proof.Machine
end

