-- ==== Sys2Proof/Proofs/RefilledSession.lean ====
section
/-! Before any `SET_SESSION` the session registers are unreadable (R63): `refill` puts other contents into them there, and every
operation of the machine can be done before or after it. Here: the operations that the rules share. -/

namespace Sys2Proof.Machine

/-- Contents of the session registers before any `SET_SESSION` (R40). -/
abbrev UnsetSes : Type := { r : Ses // r.valid = false }

/-- `s` with the contents `q` in its session registers, unless a `SET_SESSION` has written them. -/
def refill (q : UnsetSes) (s : State) : State := { s with ses := if s.ses.valid then s.ses else q.1 }

/-- A rule's answer with its state changed by `g`. -/
def onState (g : State → State) (r : Rx) : Rx := r.map fun p => (g p.1, p.2)

/-- What a step has fetched, with the state a command starts in changed by `g`. -/
def onFetched (g : State → State) : Fetched → Fetched
  | .command c t => .command c (g t)
  | .iteration n => .iteration n
  | .nothing => .nothing

/-- A step's outcome with its next state changed by `g`. -/
def onNext (g : State → State) : Outcome → Outcome
  | .next t => .next (g t)
  | .fault f => .fault f
  | .refused r => .refused r

section
variable (q : UnsetSes) (s : State)

theorem refill_eq : refill q s = if s.ses.valid then s else { s with ses := q.1 } := by
  cases h : s.ses.valid <;> simp [refill, h]

theorem refill_of_not_valid (h : s.ses.valid = false) : refill q s = { s with ses := q.1 } := by
  simp [refill_eq, h]

@[simp] theorem refill_prm : (refill q s).prm = s.prm := rfl
@[simp] theorem refill_cfg : (refill q s).cfg = s.cfg := rfl
@[simp] theorem refill_ctx : (refill q s).ctx = s.ctx := rfl
@[simp] theorem refill_cmd : (refill q s).cmd = s.cmd := rfl
@[simp] theorem refill_host : (refill q s).host = s.host := rfl
@[simp] theorem refill_tr : (refill q s).tr = s.tr := rfl

@[simp] theorem refill_ses_valid : (refill q s).ses.valid = s.ses.valid := by
  cases h : s.ses.valid <;> simp [refill, h, q.2]

@[simp] theorem refill_ses_readable : (refill q s).ses.readable = s.ses.readable := by
  cases h : s.ses.valid with
  | false => exact Ses.readable_of_not_valid (by simpa using h) h
  | true => simp [refill, h]

/-! ### What the rules read -/

@[simp] theorem rxFrame_refill : rxFrame (refill q s) = rxFrame s := rfl

@[simp] theorem rxInf_refill (h : Nat) : rxInf h (refill q s) = rxInf h s := rfl

@[simp] theorem noInf_refill (h : Nat) : noInf h (refill q s) = noInf h s := rfl

@[simp] theorem phase_refill : phase (refill q s) = phase s := rfl

@[simp] theorem fwtNormal_refill : fwtNormal (refill q s) = fwtNormal s := by simp [fwtNormal]

@[simp] theorem fwtWtx_refill (m : Nat) : fwtWtx m (refill q s) = fwtWtx m s := by simp [fwtWtx]

@[simp] theorem windowOk_refill : windowOk (refill q s) = windowOk s := by
  simp only [windowOk, refill_ses_valid, fwtNormal_refill]
  rfl

@[simp] theorem headerCheck_refill (d n : Bool) : headerCheck d n (refill q s) = headerCheck d n s := by
  simp only [headerCheck, rxFrame_refill, refill_ses_readable]
  rfl

@[simp] theorem buildFrame_refill (k : BlockKind) (inf : List Byte) : buildFrame k inf (refill q s) = buildFrame k inf s := by
  cases k <;> simp [buildFrame, nadBytes, nadInUse, didBytes, didInUse]

@[simp] theorem maxPayload_refill : maxPayload (refill q s) = maxPayload s := by simp [maxPayload, txHdrLenI]

theorem listenCheck_refill (f : Nat) (d : Option Byte) : listenCheck f d (refill q s) = listenCheck f d s := by
  simp only [listenCheck, refill_ses_readable]
  rfl

theorem txCheck_refill (l f : Nat) (d : Option Byte) : txCheck l f d (refill q s) = txCheck l f d s := by
  simp only [txCheck, refill_ses_readable, listenCheck_refill]

@[simp] theorem admits_refill (r : Row) : admits r (refill q s) = admits r s := by
  simp only [admits, tableAdmits.eq_def, refill_ses_valid]
  rfl

theorem refusalOf_refill (op : Byte) (e : DecodeError) : refusalOf op e (refill q s) = refusalOf op e s := by
  simp only [refusalOf, admits_refill]

/-! ### Updates of the state -/

@[simp] theorem submit_refill (f : List Byte) (w : Nat) : submit f w (refill q s) = refill q (submit f w s) := by
  simp only [submit, refill_ses_readable]
  rfl

@[simp] theorem sendFrame_refill (k : BlockKind) (inf : List Byte) (w : Nat) :
    sendFrame k inf w (refill q s) = refill q (sendFrame k inf w s) := by
  simp only [sendFrame, buildFrame_refill, submit_refill]
  rfl

@[simp] theorem sendAck_refill : sendAck (refill q s) = refill q (sendAck s) := by simp [sendAck]

@[simp] theorem sendNak_refill : sendNak (refill q s) = refill q (sendNak s) := by simp [sendNak]

@[simp] theorem sendWtxReply_refill (m : Nat) : sendWtxReply m (refill q s) = refill q (sendWtxReply m s) := by
  simp [sendWtxReply]

@[simp] theorem sendDsl_refill : sendDsl (refill q s) = refill q (sendDsl s) := by simp [sendDsl, fwtDsl]

@[simp] theorem sendI_refill : sendI (refill q s) = refill q (sendI s) := by simp [sendI]

@[simp] theorem resendI_refill : resendI (refill q s) = refill q (resendI s) := by
  simp only [resendI, refill_ctx, fwtNormal_refill, submit_refill]
  rfl

@[simp] theorem resendKept_refill (pcb : Byte) : resendKept pcb (refill q s) = refill q (resendKept pcb s) := by
  simp only [resendKept, refill_ctx, fwtNormal_refill, submit_refill]
  rfl

@[simp] theorem armReception_refill : armReception (refill q s) = refill q (armReception s) := by simp [armReception]

@[simp] theorem countUp_refill (k : Counter) : countUp k (refill q s) = refill q (countUp k s) := by cases k <;> rfl

@[simp] theorem setSt_refill (st : St) : setSt st (refill q s) = refill q (setSt st s) := rfl

@[simp] theorem toIdle_refill : toIdle (refill q s) = refill q (toIdle s) := rfl

@[simp] theorem fullReset_refill : fullReset (refill q s) = refill q (fullReset s) := rfl

@[simp] theorem finish_refill (c : Result) : finish c (refill q s) = refill q (finish c s) := rfl

theorem deselectStart_refill : deselectStart (refill q s) = refill q (deselectStart s) := by
  have hsent := sendDsl_refill q (setSt .waitDeselect (clearCounters (clearChaining s)))
  exact congrArg (fun t => { t with ctx := { t.ctx with dslIter := some 0 } }) hsent

theorem listenEffect_refill (r w f : Nat) (d : Option Byte) :
    listenEffect r w f d (refill q s) = refill q (listenEffect r w f d s) := by
  have harmed := armReception_refill q (clearRxLen { s with ctx := listenCtx r w f d s.ctx })
  exact congrArg (fun t => finish .done (setSt .activated t)) harmed

theorem tStatus_refill : tStatus (refill q s) = ((tStatus s).1, refill q (tStatus s).2) := by
  have hnext : nextStatus (refill q s) = ((nextStatus s).1, refill q (nextStatus s).2) := by
    simp only [nextStatus, refill_tr]
    split <;> rfl
  simp only [tStatus, hnext]
  cases (nextStatus s).1 <;> rfl

end

/-! ### What a rule answers -/

section
variable {q : UnsetSes} {s : State} {act : State → State}

@[simp] theorem fail_refill (c : Result) : fail c (refill q s) = onState (refill q) (fail c s) := rfl

@[simp] theorem busyAfter_refill (ha : act (refill q s) = refill q (act s)) :
    busyAfter act (refill q s) = onState (refill q) (busyAfter act s) :=
  congrArg (fun t => (.ok (t, .busy) : Rx)) ha

@[simp] theorem retryThen_refill {k : Counter} {f : State → Rx}
    (hf : f (refill q (countUp k s)) = onState (refill q) (f (countUp k s))) :
    retryThen k f (refill q s) = onState (refill q) (retryThen k f s) := by
  rcases retryThen_cases (s := s) k f with ⟨hlt, h⟩ | ⟨hle, h⟩
  · have hlt' : ceiling k (refill q s) < count k (refill q s) + 1 := by cases k <;> exact hlt
    rw [h, retryThen_of_lt hlt']
    rfl
  · have hle' : count k (refill q s) + 1 ≤ ceiling k (refill q s) := by cases k <;> exact hle
    rw [h, retryThen_of_le hle', countUp_refill, hf]

theorem ifFits_refill {h : Nat} {r r' : Rx} (hr : r' = onState (refill q) r) :
    ifFits h (refill q s) r' = onState (refill q) (ifFits h s r) := by
  simp only [ifFits, rxFrame_refill, refill_ctx, fail_refill, hr, apply_ite (onState (refill q))]

theorem deliverThen_refill {h : Nat} {c : Result} (ha : ∀ t, act (refill q t) = refill q (act t)) :
    deliverThen h act c (refill q s) = onState (refill q) (deliverThen h act c s) := by
  have hdeliver : deliver h (refill q s) = (deliver h s).map (refill q) := by
    simp only [deliver, rxInf_refill, refill_ctx]
    cases rxInf h s with
    | error f => rfl
    | ok inf => cases hw : memWrite [] s.ctx.rxCap 0 inf <;> simp only [hw] <;> rfl
  rw [deliverThen, deliverThen, hdeliver]
  cases deliver h s with
  | error f => rfl
  | ok t => exact congrArg (fun u => (.ok (u, c) : Rx)) (ha t)

@[simp] theorem chainAcked_refill : chainAcked (refill q s) = onState (refill q) (chainAcked s) := rfl

end

end Sys2Proof.Machine
end

