-- ==== Sys2Proof/Proofs/RefilledRules.lean ====
section
/-! The rules of the received blocks (R283 to R299, R341 to R354) commute with `refill`. -/

namespace Sys2Proof.Machine

section
variable (q : UnsetSes) (s : State) (h : Nat) (b : Bool)

/-- What both roles do with an accepted final block. -/
theorem finalBlock_refill : ifFits h (refill q s) (deliverThen h toIdle .done (toggleBn (refill q s))) =
    onState (refill q) (ifFits h s (deliverThen h toIdle .done (toggleBn s))) :=
  ifFits_refill (deliverThen_refill (s := toggleBn s) (toIdle_refill q))

/-- What both roles do with an accepted block of a chain, but for the state they go to. -/
theorem chainBlock_refill {act : State → State} (ha : ∀ t, act (refill q t) = refill q (act t)) :
    ifFits h (refill q s)
        (deliverThen h act .partialData (sendAck (clearCounters (setRxChaining (toggleBn (refill q s)))))) =
      onState (refill q)
        (ifFits h s (deliverThen h act .partialData (sendAck (clearCounters (setRxChaining (toggleBn s)))))) := by
  have hack := sendAck_refill q (clearCounters (setRxChaining (toggleBn s)))
  refine ifFits_refill ?_
  rw [← deliverThen_refill ha, ← hack]
  rfl

theorem pollerIChain_refill : pollerIChain h b (refill q s) = onState (refill q) (pollerIChain h b s) := by
  simp only [pollerIChain, refill_ctx, chainBlock_refill q s h (act := id) fun _ => rfl, apply_ite (onState (refill q)),
    fail_refill, busyAfter_refill (sendAck_refill q s)]

theorem pollerIFinal_refill : pollerIFinal h b (refill q s) = onState (refill q) (pollerIFinal h b s) := by
  simp only [pollerIFinal, refill_ctx, refill_cfg, finalBlock_refill, apply_ite (onState (refill q)), fail_refill]
  cases s.cfg.mode with
  | iso => rw [retryThen_refill (busyAfter_refill (sendNak_refill q _))]
  | _ => rfl

theorem pollerRAck_refill : pollerRAck h b (refill q s) = onState (refill q) (pollerRAck h b s) := by
  simp [pollerRAck, apply_ite (onState (refill q))]

theorem pollerSWtx_refill : pollerSWtx h (refill q s) = onState (refill q) (pollerSWtx h s) := by
  simp only [pollerSWtx, rxInf_refill]
  split
  · rfl
  · simp [apply_ite (onState (refill q))]
  · rfl

theorem waitingSDsl_refill : waitingSDsl h (refill q s) = onState (refill q) (waitingSDsl h s) := by
  simp only [waitingSDsl, noInf_refill, apply_ite (onState (refill q))]
  rfl

theorem listenerRetransmit_refill : listenerRetransmit (refill q s) = onState (refill q) (listenerRetransmit s) := by
  have hlast (t : State) : resendLast (refill q t) = (resendLast t).map (refill q) := by
    simp only [resendLast, refill_ctx, resendKept_refill]
    cases memByte t.ctx.lastFrame 0 <;> rfl
  have hretry : retryThen .i (fun t => (resendLast t).map (fun u => (setSt .rx u, .busy))) (refill q s) =
      onState (refill q) (retryThen .i (fun t => (resendLast t).map (fun u => (setSt .rx u, .busy))) s) := by
    refine retryThen_refill ?_
    rw [hlast]
    cases resendLast (countUp .i s) <;> rfl
  simp only [listenerRetransmit, refill_ctx, fail_refill, hretry, apply_ite (onState (refill q))]

theorem listenerRAck_refill : listenerRAck h b (refill q s) = onState (refill q) (listenerRAck h b s) := by
  simp only [listenerRAck, noInf_refill, refill_ctx, listenerRetransmit_refill, chainAcked_refill, fail_refill,
    apply_ite (onState (refill q))]
  rfl

theorem listenerRNak_refill : listenerRNak h b (refill q s) = onState (refill q) (listenerRNak h b s) := by
  simp [listenerRNak, listenerRetransmit_refill, apply_ite (onState (refill q))]

theorem listenerIChain_refill : listenerIChain h (refill q s) = onState (refill q) (listenerIChain h s) := by
  simp only [listenerIChain, refill_ctx, chainBlock_refill q s h (setSt_refill q · .rx), apply_ite (onState (refill q)),
    fail_refill]

theorem listenerIFinal_refill : listenerIFinal h (refill q s) = onState (refill q) (listenerIFinal h s) := by
  simp only [listenerIFinal, refill_ctx, finalBlock_refill, apply_ite (onState (refill q)), fail_refill]

theorem listenerSDsl_refill : listenerSDsl h (refill q s) = onState (refill q) (listenerSDsl h s) := by
  simp only [listenerSDsl, noInf_refill, fwtNormal_refill, sendFrame_refill, fail_refill, apply_ite (onState (refill q))]
  rfl

theorem transmissionError_refill (p : Phase) (e : TxError) :
    transmissionError p e (refill q s) = onState (refill q) (transmissionError p e s) := by
  have hrecover : pollerRecover (refill q s) = onState (refill q) (pollerRecover s) := by
    simp [pollerRecover, apply_ite (onState (refill q))]
  cases p <;> simp [transmissionError, hrecover, apply_ite (onState (refill q))]

end

end Sys2Proof.Machine
end

