-- ==== Sys2Proof/Proofs/UnreadableRegisters.lean ====
section
/-! What R63 leaves unspecified at power-on is unreadable: in `UNINIT` only `INIT` runs, which overwrites `cfg`, and a step commutes
with `refill`. -/

namespace Sys2Proof.Machine

open Sys2Proof.Spec

/-! ### `cfg` in `UNINIT` -/

theorem runBlock_of_phase_none {d n : Bool} {poller waiting listener : State → Rx} {s : State} (h : phase s = none) :
    runBlock d n poller waiting listener s = .refused .noReception := by
  simp only [runBlock, h]

theorem exec_block_of_uninit {i : Instr} {s : State} (hi : isBlock i = true) (hst : s.ctx.st = .uninit) :
    exec i s = .refused .noReception := by
  have hp : phase s = none := by rw [phase.eq_def, hst]; cases s.ctx.role <;> rfl
  cases i with
  | iFinal | iChain | rAck | rNak | sDsl | sWtx => exact runBlock_of_phase_none hp
  | _ => cases hi

/-- In `UNINIT` no instruction reads `cfg`: all but `INIT` are refused, and `INIT` writes all of it. -/
theorem exec_withCfg_of_uninit (i : Instr) {s : State} (cfg : Cfg) (hst : s.ctx.st = .uninit) :
    exec i { s with cfg := cfg } = exec i s := by
  by_cases hinit : ∃ m a b c, i = .init m a b c
  · obtain ⟨m, a, b, c, rfl⟩ := hinit
    rfl
  cases hi : isBlock i with
  | true => rw [exec_block_of_uninit hi hst, exec_block_of_uninit (s := { s with cfg := cfg }) hi hst]
  | false =>
    obtain ⟨r, hr, hne⟩ := commandRow_of_ne_init hi fun m a b c h => hinit ⟨m, a, b, c, h⟩
    have refused (t : State) (ht : t.ctx.st = .uninit) : exec i t = .refused .notAdmitted :=
      (exec_eq_notAdmitted hr).2 (not_admits_of_uninit ht hne)
    rw [refused s hst, refused { s with cfg := cfg } hst]

/-! ### Outcomes -/

section
variable (q : UnsetSes) (s : State)

theorem conclude_refill (iter : Option Nat) (r : Rx) :
    conclude iter (onState (refill q) r) = onNext (refill q) (conclude iter r) := by
  cases r with
  | error f => rfl
  | ok p =>
    cases iter with
    | none => rfl
    | some n =>
      simp only [onState, Except.map, conclude, complete, onNext, fullReset_refill, finish_refill, apply_ite (refill q)]

theorem ifAdmitted_refill {r : Row} {o o' : Outcome} (h : o' = onNext (refill q) o) :
    ifAdmitted r (refill q s) o' = onNext (refill q) (ifAdmitted r s o) := by
  rw [ifAdmitted, ifAdmitted, admits_refill, h]
  split <;> rfl

/-- A received block commutes with `refill` when the three rules it may run do. -/
theorem runBlock_refill {d n : Bool} {poller waiting listener : State → Rx}
    (hp : poller (refill q s) = onState (refill q) (poller s)) (hw : waiting (refill q s) = onState (refill q) (waiting s))
    (hl : listener (refill q s) = onState (refill q) (listener s)) :
    runBlock d n poller waiting listener (refill q s) = onNext (refill q) (runBlock d n poller waiting listener s) := by
  simp only [runBlock, phase_refill, headerCheck_refill, refill_ctx]
  cases phase s with
  | none => rfl
  | some p =>
    dsimp only
    rw [← conclude_refill]
    congr 1
    rcases headerCheck_cases d n s with ⟨hcheck, -, -⟩ | hcheck
    · rw [hcheck]
      cases p with
      | pollerRx => exact hp
      | pollerWait => exact hw
      | listenerRx => exact hl
    · rw [hcheck]
      rfl

theorem exec_block_refill {i : Instr} (hi : isBlock i = true) : exec i (refill q s) = onNext (refill q) (exec i s) := by
  cases i with
  | iFinal d n b => exact runBlock_refill q s (pollerIFinal_refill q s _ b) rfl (listenerIFinal_refill q s _)
  | iChain d n b => exact runBlock_refill q s (pollerIChain_refill q s _ b) rfl (listenerIChain_refill q s _)
  | rAck d b => exact runBlock_refill q s (pollerRAck_refill q s _ b) rfl (listenerRAck_refill q s _ b)
  | rNak d b => exact runBlock_refill q s rfl rfl (listenerRNak_refill q s _ b)
  | sDsl d => exact runBlock_refill q s rfl (waitingSDsl_refill q s _) (listenerSDsl_refill q s _)
  | sWtx d => exact runBlock_refill q s (pollerSWtx_refill q s _) rfl rfl
  | _ => cases hi

/-! ### A reception step -/

theorem malformed_refill : malformed (refill q s) = onNext (refill q) (malformed s) :=
  conclude_refill q _ (fail .protocolError s)

theorem runHeader_refill (k : Header) : runHeader k (refill q s) = onNext (refill q) (runHeader k s) := by
  cases k with
  | invalid => exact malformed_refill q s
  | iBlock c d n b =>
    cases c with
    | false => exact exec_block_refill q s (i := .iFinal d n b) rfl
    | true => exact exec_block_refill q s (i := .iChain d n b) rfl
  | rAck d b => exact exec_block_refill q s (i := .rAck d b) rfl
  | rNak d b => exact exec_block_refill q s (i := .rNak d b) rfl
  | sDsl d => exact exec_block_refill q s (i := .sDsl d) rfl
  | sWtx d => exact exec_block_refill q s (i := .sWtx d) rfl

theorem react_refill (p : Phase) (a : TStatus) : react p a (refill q s) = onNext (refill q) (react p a s) := by
  cases a with
  | busy => exact conclude_refill q _ (busyAfter id s)
  | linkLoss => exact conclude_refill q _ (fail .linkLoss s)
  | error e => simp only [react, transmissionError_refill, conclude_refill, refill_ctx]
  | done f =>
    cases f with
    | nil => exact malformed_refill q s
    | cons pcb f => exact runHeader_refill q s (decodePcb pcb)

theorem receive_refill : receive (refill q s) = onNext (refill q) (receive s) := by
  simp only [receive, phase_refill, tStatus_refill, react_refill]
  cases phase s <;> rfl

/-! ### Commands -/

theorem exec_refill (i : Instr) : exec i (refill q s) = onNext (refill q) (exec i s) := by
  cases i with
  | iFinal | iChain | rAck | rNak | sDsl | sWtx => exact exec_block_refill q s rfl
  | init m a b c => exact ifAdmitted_refill q s rfl
  | setSession w f n =>
    refine ifAdmitted_refill q s ?_
    rw [apply_ite (onNext (refill q))]
    rfl
  | startTx b l c r w f d =>
    refine ifAdmitted_refill q s ?_
    rw [txCheck_refill, apply_ite (onNext (refill q))]
    cases memRead b 0 l <;> rfl
  | poll =>
    refine ifAdmitted_refill q s ?_
    have hsent : pollTx (refill q s) = refill q (pollTx s) :=
      congrArg (fun t => finish .busy (setSt .rx t)) (sendI_refill q s)
    rw [apply_ite (onNext (refill q)), receive_refill, hsent]
    rfl
  | deselect =>
    refine ifAdmitted_refill q s ?_
    rw [windowOk_refill, deselectStart_refill, apply_ite (onNext (refill q))]
    rfl
  | listenStart r w f d =>
    refine ifAdmitted_refill q s ?_
    rw [listenCheck_refill, listenEffect_refill, apply_ite (onNext (refill q))]
    rfl
  | getMaxPayload =>
    refine ifAdmitted_refill q s ?_
    rw [maxPayload_refill]
    rfl
  | encodeHdr | decodeHdr | fwi2fwt | sfgi2sfgt => exact ifAdmitted_refill q s rfl

theorem deselectIteration_refill (n : Nat) :
    deselectIteration n (refill q s) = onNext (refill q) (deselectIteration n s) := by
  rw [deselectIteration, deselectIteration, apply_ite (onNext (refill q)), ← receive_refill]
  rfl

theorem fetch_refill : fetch (refill q s) = onFetched (refill q) (fetch s) := by
  simp only [fetch, refill_cmd, refill_ctx, refill_host]
  cases s.cmd with
  | some c => rfl
  | none =>
    cases s.ctx.dslIter with
    | some n => rfl
    | none => cases s.host <;> rfl

/-- R63: a step reads nothing of the session registers before a `SET_SESSION`, and keeps what they hold. -/
theorem step_refill : step (refill q s) = onNext (refill q) (step s) := by
  simp only [step, fetch_refill]
  cases fetch s with
  | nothing => rfl
  | iteration n => exact deselectIteration_refill q s n
  | command c t =>
    simp only [onFetched]
    cases decode (.cmd c) with
    | ok i => exact exec_refill q t i
    | error e => exact congrArg Host.Outcome.refused (refusalOf_refill q t c.op e)

end

/-- Settles O1: the values are `State.reset`'s own; `cfg` is overwritten or not reached, and refilling the session registers
commutes with a step. -/
theorem resetLeavesPowerOnState : Obligations.ResetLeavesPowerOnState := by
  refine ⟨rfl, rfl, rfl, rfl, fun i s cfg hst => exec_withCfg_of_uninit i cfg hst, fun s ses hs hses => ?unread⟩
  let q : UnsetSes := ⟨ses, hses⟩
  have hstep : step { s with ses := ses } = onNext (refill q) (step s) := by
    rw [← step_refill, refill_of_not_valid q s hs]
  rw [hstep]
  cases step s with
  | next t => exact congrArg Host.Outcome.next (refill_eq q t)
  | fault f => rfl
  | refused r => rfl

end Sys2Proof.Machine
end

