-- ==== Sys2Proof/Proofs/EncodedInstructions.lean ====
section
/-! Encoding and decoding undo each other: on every well-formed instruction (R114, R121, R122), and on every byte that is a
header (R114). -/

namespace Sys2Proof

/-! ### Header bytes -/

/-- R150, R161: the fields of an I-block's header read back. -/
theorem decodePcb_encI (b c d n : Bool) : decodePcb (encI b c d n) = .iBlock c d n b := by
  cases b <;> cases c <;> cases d <;> cases n <;> rfl

/-- R151, R162. -/
theorem decodePcb_encRAck (b d : Bool) : decodePcb (encRAck b d) = .rAck d b := by
  cases b <;> cases d <;> rfl

/-- R152, R162. -/
theorem decodePcb_encRNak (b d : Bool) : decodePcb (encRNak b d) = .rNak d b := by
  cases b <;> cases d <;> rfl

/-- R153, R163. -/
theorem decodePcb_encSDsl (d : Bool) : decodePcb (encSDsl d) = .sDsl d := by
  cases d <;> rfl

/-- R154, R163. -/
theorem decodePcb_encSWtx (d : Bool) : decodePcb (encSWtx d) = .sWtx d := by
  cases d <;> rfl

theorem decode_cmd (c : CmdReg) : decode (.cmd c) = decodeCmd c := rfl

/-- Settles O4: the header's fields read back, and each argument of a command is one its reader accepts and gives back. -/
theorem decodeOfEncodeIsTheInstruction : Obligations.DecodeOfEncodeIsTheInstruction := by
  intro i hwf
  cases i with
  | iFinal d n b => exact (decode_pcb_of_headerInstr rfl).2 (decodePcb_encI b false d n)
  | iChain d n b => exact (decode_pcb_of_headerInstr rfl).2 (decodePcb_encI b true d n)
  | rAck d b => exact (decode_pcb_of_headerInstr rfl).2 (decodePcb_encRAck b d)
  | rNak d b => exact (decode_pcb_of_headerInstr rfl).2 (decodePcb_encRNak b d)
  | sDsl d => exact (decode_pcb_of_headerInstr rfl).2 (decodePcb_encSDsl d)
  | sWtx d => exact (decode_pcb_of_headerInstr rfl).2 (decodePcb_encSWtx d)
  | init m i r s =>
    obtain ⟨⟨hi, hr⟩, hs⟩ : (i ≤ maxCeiling ∧ r ≤ maxCeiling) ∧ s ≤ maxCeiling := by
      simpa [Instr.WellFormed, Instr.wf] using hwf
    rw [encode, decode_cmd, decodeCmd_init rfl]
    exact ⟨m, argMode_modeCode m, hi, hr, hs, rfl⟩
  | setSession w f n =>
    have hf : f ≤ maxLen := by simpa [Instr.WellFormed, Instr.wf] using hwf
    rw [encode, decode_cmd, decodeCmd_setSession rfl]
    exact ⟨hf, n, argOptByte_toNat .nad n, rfl⟩
  | startTx b l c r w f d =>
    obtain ⟨⟨⟨hl, hb⟩, hr⟩, hf⟩ : ((l ≤ maxLen ∧ l ≤ b.length) ∧ r ≤ maxLen) ∧ f ≤ maxLen := by
      simpa [Instr.WellFormed, Instr.wf] using hwf
    rw [encode, decode_cmd, decodeCmd_startTx rfl]
    exact ⟨hl, hb, c, argBit_bitNat .chainingFlag c, hr, hf, d, argOptByte_toNat .did d, rfl⟩
  | poll => rfl
  | deselect => rfl
  | listenStart r w f d =>
    obtain ⟨hr, hf⟩ : r ≤ maxLen ∧ f ≤ maxLen := by simpa [Instr.WellFormed, Instr.wf] using hwf
    rw [encode, decode_cmd, decodeCmd_listenStart rfl]
    exact ⟨hr, hf, d, argOptByte_toNat .did d, rfl⟩
  | getMaxPayload => rfl
  | encodeHdr k b c d n =>
    rw [encode, decode_cmd, decodeCmd_encodeHdr rfl]
    exact ⟨k, argKind_kindCode k, b, argBit_bitNat .bn b, c, argBit_bitNat .chain c, d,
      argBit_bitNat .didPresent d, n, argBit_bitNat .nadPresent n, rfl⟩
  | decodeHdr p =>
    rw [encode, decode_cmd, decodeCmd_decodeHdr rfl]
    exact ⟨p, argByte_toNat .pcb p, rfl⟩
  | fwi2fwt f =>
    rw [encode, decode_cmd, decodeCmd_fwi2fwt rfl]
    exact ⟨f, argNibble_toNat .fwi f, rfl⟩
  | sfgi2sfgt f =>
    rw [encode, decode_cmd, decodeCmd_sfgi2sfgt rfl]
    exact ⟨f, argNibble_toNat .sfgi f, rfl⟩

/-! ### A byte is fixed by its header (R114) -/

/-- Two bytes that agree under a mask, and on every bit outside it, are the same. -/
theorem eq_of_mask {x y m v : Byte} (hx : x &&& m = v) (hy : y &&& m = v)
    (hfree : ∀ k : Fin 8, m.getLsbD k = false → x.getLsbD k = y.getLsbD k) : x = y := by
  refine BitVec.eq_of_getLsbD_eq fun k hk => ?_
  have hxk := (and_eq_iff_bits x m v).1 hx ⟨k, hk⟩
  have hyk := (and_eq_iff_bits y m v).1 hy ⟨k, hk⟩
  cases hm : m.getLsbD k with
  | false => exact hfree ⟨k, hk⟩ hm
  | true =>
    simp only [hm, Bool.and_true] at hxk hyk
    rw [hxk, hyk]

/-- No two bytes decode to the same header: a class and its fields leave no bit open. -/
theorem decodePcb_inj {x y : Byte} {k : Header} (hk : k ≠ .invalid) (hx : decodePcb x = k) (hy : decodePcb y = k) : x = y := by
  cases k with
  | invalid => exact absurd rfl hk
  | iBlock c d n b =>
    obtain ⟨⟨hxi, hxc⟩, hxd, hxn, hxb⟩ := decodePcb_eq_iBlock.1 hx
    obtain ⟨⟨hyi, hyc⟩, hyd, hyn, hyb⟩ := decodePcb_eq_iBlock.1 hy
    refine eq_of_mask (classify_eq_i.1 hxi) (classify_eq_i.1 hyi) ?_
    simp_all [Fin.forall_fin_succ, bitB, bitC, bitD, bitN]
  | rAck d b =>
    obtain ⟨hxr, hxd, hxb⟩ := decodePcb_eq_rAck.1 hx
    obtain ⟨hyr, hyd, hyb⟩ := decodePcb_eq_rAck.1 hy
    refine eq_of_mask (row_rAck.2 hxr) (row_rAck.2 hyr) ?_
    simp_all [Fin.forall_fin_succ, bitB, bitD]
  | rNak d b =>
    obtain ⟨hxr, hxd, hxb⟩ := decodePcb_eq_rNak.1 hx
    obtain ⟨hyr, hyd, hyb⟩ := decodePcb_eq_rNak.1 hy
    refine eq_of_mask (row_rNak.2 hxr) (row_rNak.2 hyr) ?_
    simp_all [Fin.forall_fin_succ, bitB, bitD]
  | sDsl d =>
    obtain ⟨hxs, hxd⟩ := decodePcb_eq_sDsl.1 hx
    obtain ⟨hys, hyd⟩ := decodePcb_eq_sDsl.1 hy
    refine eq_of_mask (row_sDsl.2 hxs) (row_sDsl.2 hys) ?_
    simp_all [Fin.forall_fin_succ, bitD]
  | sWtx d =>
    obtain ⟨hxs, hxd⟩ := decodePcb_eq_sWtx.1 hx
    obtain ⟨hys, hyd⟩ := decodePcb_eq_sWtx.1 hy
    refine eq_of_mask (row_sWtx.2 hxs) (row_sWtx.2 hys) ?_
    simp_all [Fin.forall_fin_succ, bitD]

/-- Settles O5: the byte and the encoding of its instruction decode to the same header. -/
theorem encodeOfDecodedHeaderIsTheByte : Obligations.EncodeOfDecodedHeaderIsTheByte := by
  intro pcb i hi
  have hheader := decode_pcb_eq_ok.1 hi
  generalize hk : decodePcb pcb = k at hheader
  cases k with
  | invalid => cases hheader
  | iBlock c d n b =>
    have hbyte := decodePcb_inj (by simp) (decodePcb_encI b c d n) hk
    cases c <;> cases hheader <;> exact congrArg Code.pcb hbyte
  | rAck d b =>
    cases hheader
    exact congrArg Code.pcb (decodePcb_inj (by simp) (decodePcb_encRAck b d) hk)
  | rNak d b =>
    cases hheader
    exact congrArg Code.pcb (decodePcb_inj (by simp) (decodePcb_encRNak b d) hk)
  | sDsl d =>
    cases hheader
    exact congrArg Code.pcb (decodePcb_inj (by simp) (decodePcb_encSDsl d) hk)
  | sWtx d =>
    cases hheader
    exact congrArg Code.pcb (decodePcb_inj (by simp) (decodePcb_encSWtx d) hk)

/-- Settles O3: the decoder evaluates each of the nine words to the instruction it stands for. -/
theorem writtenOutWordsDecode : Obligations.WrittenOutWordsDecode :=
  ⟨rfl, rfl, rfl, rfl, rfl, rfl, rfl, rfl, rfl⟩

end Sys2Proof
end

