-- ==== Sys2Proof/Proofs/StepDispatch.lean ====
section
/-! What a step dispatches: the fetched command (R64, R413), or the received block (R280, R341); and what becomes of a frame that
is no block, or no block for this exchange (R287, R345). -/

namespace Sys2Proof.Machine

open Sys2Proof.Spec

section
variable {s t : State} {c c' : CmdReg} {i : Instr}

/-! ### The fetched command -/

theorem fetch_of_begins (h : begins c s t) : fetch s = .command c t := by
  rcases h with ⟨hcmd, rfl⟩ | ⟨hcmd, hiter, rest, hhost, rfl⟩
  · simp only [fetch, hcmd]
  · simp only [fetch, hcmd, hiter, hhost]

theorem step_of_decode_ok (h : begins c s t) (hd : decode (.cmd c) = .ok i) : step s = exec i t := by
  simp only [step, fetch_of_begins h, hd]

theorem step_of_decode_error {e : DecodeError} (h : begins c s t) (hd : decode (.cmd c) = .error e) :
    step s = .refused (refusalOf c.op e t) := by
  simp only [step, fetch_of_begins h, hd]

/-- A command register's row of R262 is that of the instruction it decodes to. -/
theorem commandRow_of_decodeCmd (h : decodeCmd c = .ok i) : ∃ r, rowOf c.op = some r ∧ commandRow i = some r := by
  have hr := (decodeCmd_isOk_iff_inRange c).1 ⟨i, h⟩
  unfold inRange at hr
  split at hr
  next hc => obtain ⟨m, -, -, -, -, rfl⟩ := (decodeCmd_init hc).1 h; exact ⟨_, by simp [rowOf, hc], rfl⟩
  next hc => obtain ⟨-, n, -, rfl⟩ := (decodeCmd_setSession hc).1 h; exact ⟨_, by simp [rowOf, hc], rfl⟩
  next hc => obtain ⟨-, -, k, -, -, -, d, -, rfl⟩ := (decodeCmd_startTx hc).1 h; exact ⟨_, by simp [rowOf, hc], rfl⟩
  next hc => obtain rfl := (decodeCmd_poll hc).1 h; exact ⟨_, by simp [rowOf, hc], rfl⟩
  next hc => obtain rfl := (decodeCmd_deselect hc).1 h; exact ⟨_, by simp [rowOf, hc], rfl⟩
  next hc => obtain ⟨-, -, d, -, rfl⟩ := (decodeCmd_listenStart hc).1 h; exact ⟨_, by simp [rowOf, hc], rfl⟩
  next hc => obtain rfl := (decodeCmd_getMaxPayload hc).1 h; exact ⟨_, by simp [rowOf, hc], rfl⟩
  next hc => obtain ⟨k, -, b, -, m, -, d, -, n, -, rfl⟩ := (decodeCmd_encodeHdr hc).1 h; exact ⟨_, by simp [rowOf, hc], rfl⟩
  next hc => obtain ⟨p, -, rfl⟩ := (decodeCmd_decodeHdr hc).1 h; exact ⟨_, by simp [rowOf, hc], rfl⟩
  next hc => obtain ⟨f, -, rfl⟩ := (decodeCmd_fwi2fwt hc).1 h; exact ⟨_, by simp [rowOf, hc], rfl⟩
  next hc => obtain ⟨f, -, rfl⟩ := (decodeCmd_sfgi2sfgt hc).1 h; exact ⟨_, by simp [rowOf, hc], rfl⟩
  next => exact hr.elim

/-! ### The received block -/

theorem phase_eq_none : phase s = none ↔
    ¬((s.ctx.role = .poller ∧ (s.ctx.st = .rx ∨ s.ctx.st = .waitDeselect)) ∨
      (s.ctx.role = .listener ∧ (s.ctx.st = .rx ∨ s.ctx.st = .activated))) := by
  unfold phase
  cases s.ctx.role <;> cases s.ctx.st <;> simp

/-- Every received block is checked by its own presence bits, then runs one of three rules. -/
theorem exec_block (hi : isBlock i = true) :
    ∃ poller waiting listener, ∀ s, exec i s = runBlock (hasDid i) (hasNad i) poller waiting listener s := by
  cases i with
  | iFinal | iChain | rAck | rNak | sDsl | sWtx => exact ⟨_, _, _, fun _ => rfl⟩
  | _ => cases hi

theorem react_of_decode_ok {pcb : Byte} (hd : decode (.pcb pcb) = .ok i) (p : Phase) (f : List Byte) (s : State) :
    react p (.done (pcb :: f)) s = exec i s :=
  runHeader_eq_exec (decode_pcb_eq_ok.1 hd)

/-- R287, R301, R345, R355: an empty frame and an `Invalid` header end a reception alike. -/
theorem react_malformed {f : List Byte} (hf : f = [] ∨ ∃ pcb g, f = pcb :: g ∧ decode (.pcb pcb) = .error .invalidHeader)
    (p : Phase) (s : State) : react p (.done f) s = conclude s.ctx.dslIter (fail .protocolError s) := by
  obtain rfl | ⟨pcb, g, rfl, hd⟩ := hf
  · rfl
  · simp only [react, decode_pcb_eq_error.1 hd]
    rfl

/-- R287, R345: a block that fails the header check runs no rule. -/
theorem runBlock_of_fails {d n : Bool} {poller waiting listener : State → Rx} (hp : phase s ≠ none)
    (hc : headerCheck d n s = .ok false) :
    runBlock d n poller waiting listener s = conclude s.ctx.dslIter (fail .protocolError s) := by
  obtain ⟨p, hp⟩ := Option.ne_none_iff_exists'.1 hp
  simp only [runBlock, hp, hc]

/-- An exchange that awaits a block, of either role. -/
theorem phase_of_awaits (hs : pollerAwaits s ∨ listenerAwaits s) : ∃ p, phase s = some p :=
  hs.elim (fun h => ⟨_, phase_of_pollerAwaits h⟩) (fun h => ⟨_, phase_of_listenerAwaits h⟩)

theorem admits_poll_of_awaits (hs : pollerAwaits s ∨ listenerAwaits s) : admits .poll s = true :=
  hs.elim admits_poll_of_pollerAwaits admits_poll_of_listenerAwaits

theorem dslIter_of_awaits (hs : pollerAwaits s ∨ listenerAwaits s) : s.ctx.dslIter = none :=
  hs.elim (·.2.2) (·.2.2)

/-! ### The header check (R166) -/

/-- The second byte of a frame is read exactly where there is one (R82). -/
theorem memByte_one_eq_ok {f : List Byte} {b : Byte} : memByte f 1 = .ok b ↔ ∃ pcb rest, f = pcb :: b :: rest := by
  match f with
  | [] => simp [memByte]
  | [_] => simp [memByte]
  | _ :: _ :: _ => simp [memByte]

theorem didMatches_eq_true {d : Bool} : didMatches d s = .ok true ↔
    (s.ctx.did = none → d = false) ∧
    (∀ v, s.ctx.did = some v → d = true ∧ ∃ pcb b rest, rxFrame s = pcb :: b :: rest ∧ b.extractLsb' 0 4 = v) := by
  unfold didMatches
  cases hdid : s.ctx.did with
  | none => simp
  | some v =>
    cases d with
    | false => simp
    | true =>
      have hread : (memByte (rxFrame s) 1).map (fun b => b.truncate 4 == v) = .ok true ↔
          ∃ b, memByte (rxFrame s) 1 = .ok b ∧ b.extractLsb' 0 4 = v := by
        cases memByte (rxFrame s) 1 <;> simp [Except.map, BitVec.truncate, BitVec.setWidth_eq_extractLsb']
      simp only [if_true, hread, memByte_one_eq_ok]
      grind

theorem headerCheck_eq_true {d n : Bool} : headerCheck d n s = .ok true ↔
    hdrLen d n ≤ (rxFrame s).length ∧ (rxFrame s).length + crcLen ≤ s.ses.readable.ourFsx ∧ didMatches d s = .ok true := by
  unfold headerCheck
  split_ifs with hshort hlong
  · simp [hshort]
  · simp [hlong]
  · simp [Nat.not_lt.1 hshort, Nat.not_lt.1 hlong]

end

/-- Settles O7: the decoder's answer decides, and a rejected command has the row of R262 of every command with its code. -/
theorem stepRunsTheDecodedCommand : Obligations.StepRunsTheDecodedCommand := by
  intro c s t hb
  refine ⟨fun i hd => step_of_decode_ok hb hd, fun hd => ?reserved, fun a c' i hd hop hd' => ?argument⟩
  case reserved =>
    rw [step_of_decode_error hb hd]
    unfold refusalOf
    cases rowOf c.op <;> rfl
  case argument =>
    obtain ⟨r, hrow, hcommand⟩ := commandRow_of_decodeCmd hd'
    rw [step_of_decode_error hb hd, refusalOf_argument (hop ▸ hrow), ne_eq, exec_eq_notAdmitted hcommand, not_not]
    exact ⟨fun ha => by rw [if_neg ha], fun ha => by rw [if_pos ha]⟩

/-- Settles O8: both receptions read the laid-down answer, whose header byte is the block's. -/
theorem receptionRunsTheDecodedBlock : Obligations.ReceptionRunsTheDecodedBlock := by
  intro s pcb f rest i hd ht hr
  refine ⟨fun hs => ?poll, fun n hs hc hcap => ?iteration⟩
  case poll =>
    obtain ⟨p, hp⟩ := phase_of_awaits hs
    exact (exec_poll_answer (admits_poll_of_awaits hs) hp ht hr).trans (react_of_decode_ok hd p f _)
  case iteration => exact (step_deselect_answer hs hc hcap ht hr).trans (react_of_decode_ok hd .pollerWait f _)

/-- Settles O11: a block is refused exactly where no reception is due, since its rules refuse nothing. -/
theorem blocksRunOnlyInAReception : Obligations.BlocksRunOnlyInAReception := by
  intro i s hi
  obtain ⟨poller, waiting, listener, hexec⟩ := exec_block hi
  rw [hexec, ← phase_eq_none]
  rcases runBlock_cases (s := s) (hasDid i) (hasNad i) poller waiting listener with
    ⟨hp, h⟩ | ⟨hp, _, h⟩ | ⟨_, ⟨hp, h⟩ | ⟨hp, h⟩ | ⟨hp, h⟩⟩ <;> simp [h, hp]

/-- Settles O26: each check in its written order; the DID byte is read behind the length check. -/
theorem headerCheckDecides : Obligations.HeaderCheckDecides := by
  intro d n s
  constructor
  · rcases headerCheck_cases d n s with ⟨h, -, -⟩ | h <;> exact ⟨_, h⟩
  · have hlen : hdrLen d n = 1 + (if d then 1 else 0) + (if n then 1 else 0) := by cases d <;> cases n <;> rfl
    rw [headerCheck_eq_true, didMatches_eq_true, hlen, crcLen]

/-- Settles O32: the failed check is a terminal error of whatever runs. -/
theorem headerCheckFailureEndsTheExchange : Obligations.HeaderCheckFailureEndsTheExchange := by
  intro i s hi hc
  obtain ⟨poller, waiting, listener, hexec⟩ := exec_block hi
  rw [hexec]
  refine ⟨fun hs => ?exchange, fun n hs => ?deselect⟩
  case exchange =>
    rw [runBlock_of_fails (Option.ne_none_iff_exists'.2 (phase_of_awaits hs)) hc, dslIter_of_awaits hs, conclude_fail]
  case deselect =>
    have hp := Option.ne_none_iff_exists'.2 ⟨_, phase_of_deselectAwaits hs⟩
    obtain ⟨-, -, hiter⟩ := hs
    rw [runBlock_of_fails hp hc, hiter, conclude_some_fail (by decide)]

/-- Settles O33: the answer leaves its frame in the receive buffer, then the reception fails. -/
theorem malformedFrameEndsTheExchange : Obligations.MalformedFrameEndsTheExchange := by
  intro s f rest ht hr hf u
  refine ⟨fun hs => ?poll, fun n hs hc hcap => ?iteration⟩
  case poll =>
    obtain ⟨p, hp⟩ := phase_of_awaits hs
    have hiter : u.ctx.dslIter = none := dslIter_of_awaits hs
    calc exec .poll s = react p (.done f) u := exec_poll_answer (admits_poll_of_awaits hs) hp ht hr
      _ = conclude u.ctx.dslIter (fail .protocolError u) := react_malformed hf p u
      _ = .next (failed .protocolError u) := by rw [hiter, conclude_fail]
  case iteration =>
    rw [step_deselect_answer hs hc hcap ht hr, react_malformed hf]
    exact conclude_some_fail (by decide)

/-- Settles O29: the answer read is the first laid down, and all that follows of it is `afterStatus`. -/
theorem transportAnswersOnce : Obligations.TransportAnswersOnce :=
  ⟨fun _ _ ht hr => tStatus_answer ht hr, fun _ _ _ ht hr => tStatus_answer ht hr, fun _ _ _ ht hr => tStatus_answer ht hr,
    fun _ _ ht hr => tStatus_answer ht hr, fun _ => rfl⟩

end Sys2Proof.Machine
end

