-- ==== Sys2Proof/Proofs/ArmingCommands.lean ====
section
/-! The commands that arm the transport, or say what may be sent: `LISTEN_START` (R260), `DESELECT` (R381), and the payload room
of `START_TX` (R246, R252). -/

namespace Sys2Proof.Machine

open Sys2Proof.Spec

section
variable {s : State} {f : Nat} {d : Option Byte}

/-! ### `LISTEN_START` -/

theorem exec_listenStart_of_check (h : admits .listenStart s = true) (hc : listenCheck f d s = true) (r w : Nat) :
    exec (.listenStart r w f d) s = .next (listenEffect r w f d s) :=
  (ifAdmitted_of_admits h).trans (if_pos hc)

theorem exec_listenStart_of_not_check (h : admits .listenStart s = true) (hc : ¬listenCheck f d s = true) (r w : Nat) :
    exec (.listenStart r w f d) s = .next (result .parameterError s) :=
  (ifAdmitted_of_admits h).trans (if_neg hc)

/-- R260: in a session the reception is armed at the frame-waiting time just written. -/
theorem listenEffect_eq (hv : s.ses.valid = true) (r w f : Nat) (d : Option Byte) :
    listenEffect r w f d s =
      { s with ctx := { s.ctx with st := .activated, role := .listener, bn := true,
                                   did := d.map (fun v => v.truncate 4), fwt := w, fsx := f, rxCap := r,
                                   cntI := 0, cntR := 0, cntS := 0, txChaining := false, rxChaining := false,
                                   lastKind := none, lastI := [], lastFrame := [], txInf := [] },
               out := { s.out with result := .done, rxLen := 0 },
               tr := { s.tr with pend := pending [] (min s.prm.maxFwt (w + s.ses.dFwt)) s } } := by
  have hfwt : min s.prm.maxFwt (w + s.ses.readable.dFwt) = min s.prm.maxFwt (w + s.ses.dFwt) := by
    rw [Ses.readable_of_valid hv]
  rw [← hfwt]
  rfl

/-! ### `DESELECT` -/

/-- R197: the statements' condition on the window and the machine's check of it. -/
theorem windowOk_iff_windowIsLarger : windowOk s = true ↔ windowIsLarger s :=
  windowOk_iff

theorem exec_deselect_of_window (h : admits .deselect s = true) (hw : windowOk s = true) :
    exec .deselect s = .next (deselectStart s) :=
  (ifAdmitted_of_admits h).trans (if_pos hw)

theorem exec_deselect_of_not_window (h : admits .deselect s = true) (hw : ¬windowOk s = true) :
    exec .deselect s = .refused .deselectWindow :=
  (ifAdmitted_of_admits h).trans (if_neg hw)

/-- R381: the role, the DID and what the exchange has received stay. -/
theorem deselectStart_eq (s : State) :
    deselectStart s =
      { s with ctx := { s.ctx with st := .waitDeselect, txChaining := false, rxChaining := false, cntI := 0, cntR := 0,
                                   cntS := 0, lastKind := some .sDsl, dslIter := some 0,
                                   lastFrame := controlFrame (encSDsl s.ctx.did.isSome) [] s },
               tr := { s.tr with pend := pending (controlFrame (encSDsl s.ctx.did.isSome) [] s) s.prm.fwtDsl s } } := by
  rw [deselectStart, sendDsl_eq]
  rfl

/-! ### The payload room -/

/-- The DID in use stands for the argument it came from in the header length. -/
theorem txHdrLenI_eq_arg (hv : s.ses.valid = true) (hd : d.map (fun v => v.truncate 4) = s.ctx.did) :
    txHdrLenI s = argHdrLen d s := by
  have hsome : s.ctx.did.isSome = d.isSome := by rw [← hd, Option.isSome_map]
  rw [txHdrLenI, hsome, hdrLen_arg hv]

/-- `START_TX` leads to `TX` exactly where its check passes. -/
theorem exec_startTx_arms_iff {b : List Byte} {l : Nat} (h : admits .startTx s = true) (hst : s.ctx.st = .idle)
    (hl : l ≤ b.length) (c : Bool) (r w : Nat) :
    (∃ u, exec (.startTx b l c r w f d) s = .next u ∧ u.ctx.st = .tx) ↔ txCheck l f d s = true := by
  constructor
  · rintro ⟨u, hu, hut⟩
    by_contra hc
    rw [exec_startTx_of_not_check h hc] at hu
    cases hu
    rw [hst] at hut
    cases hut
  · exact fun hc => ⟨_, exec_startTx_of_le h hc hl c r w, rfl⟩

end

/-- Settles O16: `ListenCheck` decides between the two answers. -/
theorem listenStartArmsOrReports : Obligations.ListenStartArmsOrReports := by
  intro r w f d s hst hn hv hrules
  have hadm := admits_listenStart.2 ⟨hn, hst, hv, hrules⟩
  rw [← listenCheck_iff hv]
  refine ⟨fun hc => ?arms, fun hc => exec_listenStart_of_not_check hadm hc r w⟩
  case arms => rw [exec_listenStart_of_check hadm hc, listenEffect_eq hv]

/-- Settles O23: R197's condition decides between the start and the refusal. -/
theorem deselectStartsTheProcedure : Obligations.DeselectStartsTheProcedure := by
  intro s hrole hst hn
  have hadm := admits_deselect.2 ⟨hn, hrole, hst⟩
  rw [← windowOk_iff_windowIsLarger]
  refine ⟨fun hw => ?starts, fun hw => exec_deselect_of_not_window hadm hw⟩
  case starts => rw [exec_deselect_of_window hadm hw, deselectStart_eq]

/-- Settles O18: of the four parts of `TxCheck` only the last reads the length, and its bound is the query's answer. -/
theorem getMaxPayloadIsTheLargestAdmitted : Obligations.GetMaxPayloadIsTheLargestAdmitted := by
  intro s t b l c d hst hn hv hl hdid hd hf hh hq
  have hquery := admits_getMaxPayload.2 ⟨hn, .inr ⟨hv, .inl hst⟩⟩
  rw [exec_getMaxPayload hquery, maxPayload, txHdrLenI_eq_arg hv hdid, crcLen] at hq
  cases hq
  rw [exec_startTx_arms_iff (admits_startTx.2 ⟨hn, hst, hv⟩) hst hl, txCheck_iff hv]
  exact ⟨fun ⟨_, _, _, hle⟩ => hle, fun hle => ⟨hd, hf, hh, hle⟩⟩

end Sys2Proof.Machine
end

