-- ==== Sys2Proof/Proofs/Reactions.lean ====
section
/-! Everything a reception step can do, once its transport has answered: the ways a rule may leave the state, with the code it
gives (`Reacts`), and that every block and every error takes one of them. -/

namespace Sys2Proof.Machine

open Sys2Proof.Spec

/-- `u` is `s` but for its retry counters, which are within their ceilings where those of `s` are (R67, R193). -/
def Recounted (s u : State) : Prop :=
  (∃ i r m, u = { s with ctx := { s.ctx with cntI := i, cntR := r, cntS := m } }) ∧ (CountersBounded s → CountersBounded u)

/-- `s` with the INF behind a received header of `h` bytes delivered (R90). -/
def delivered (h : Nat) (s : State) : State :=
  { s with out := { s.out with rxData := (rxFrame s).drop h, rxLen := (rxFrame s).length - h } }

@[simp] theorem delivered_ctx (h : Nat) (s : State) : (delivered h s).ctx = s.ctx := rfl

/-- The received I-blocks, which alone may carry data to the caller (R59). -/
def carriesData : Instr → Bool
  | .iFinal _ _ _ => true
  | .iChain _ _ _ => true
  | _ => false

/-- `Reacts data s p t c`: a rule of the reception `p` may answer the state `t` and the code `c` in the state `s`. Data is
delivered to the caller only where `data` is true. -/
inductive Reacts (data : Bool) (s : State) : Phase → State → Result → Prop
  /-- A terminal error (R404). -/
  | fails {p : Phase} {c : Result}
      (hc : c = .protocolError ∨ c = .timeout ∨ c = .linkLoss) : Reacts data s p (toIdle s) c
  /-- An I-block is too large for the caller's buffer (R300). -/
  | tooLarge {p : Phase} (hd : data = true) (hp : p ≠ .pollerWait) : Reacts data s p (toIdle s) .bufferTooSmall
  /-- A control frame is sent; a listener moves to `RX`. -/
  | replies {p : Phase} {u : State} {k : BlockKind} {inf : List Byte} {w : Nat} {st : St} (hu : Recounted s u) (hk : k ≠ .i)
      (hinf : inf.length ≤ 1) (hst : st = s.ctx.st ∨ p = .listenerRx ∧ st = .rx) :
      Reacts data s p (setSt st (sendFrame k inf w u)) .busy
  /-- A listener arms reception again (R343). -/
  | rearms : Reacts data s .listenerRx (armReception s) .busy
  /-- The poller's last I-block is sent again (R291). -/
  | resendsI {u : State} (hu : Recounted s u) (ht : s.ctx.txChaining = true) : Reacts data s .pollerRx (resendI u) .busy
  /-- A listener's last frame is sent again (R348). -/
  | resendsLast {u : State} {pcb : Byte} (hu : Recounted s u) (hl : s.ctx.lastFrame.head? = some pcb) :
      Reacts data s .listenerRx (setSt .rx (resendKept pcb u)) .busy
  /-- A chained block of the block's own is acknowledged (R290, R352). -/
  | acked {p : Phase} (hp : p ≠ .pollerWait) (ht : s.ctx.txChaining = true) :
      Reacts data s p (setSt .idle (clearCounters (toggleBn s))) .done
  /-- A block of the remote's chain is accepted (R293, R344). -/
  | chained {p : Phase} {h : Nat} (hd : data = true) (hp : p ≠ .pollerWait) (ht : s.ctx.txChaining = false) :
      Reacts data s p (setSt .rx (delivered h (sendAck (clearCounters (setRxChaining (toggleBn s)))))) .partialData
  /-- A final block is accepted (R295, R346). -/
  | final {p : Phase} {h : Nat} (hd : data = true) (hp : p ≠ .pollerWait) :
      Reacts data s p (toIdle (delivered h (toggleBn s))) .done
  /-- The poller's S(DESELECT) is answered (R299). -/
  | deselects : Reacts data s .pollerWait (fullReset s) .done
  /-- A listener answers S(DESELECT) (R354). -/
  | answersDeselect {w : Nat} : Reacts data s .listenerRx (fullReset (sendFrame .sDsl [] w s)) .deselected

/-- A rule's answer is no fault, and one of the ways to react. -/
def Answers (data : Bool) (s : State) (p : Phase) (r : Rx) : Prop := ∃ t c, r = .ok (t, c) ∧ Reacts data s p t c

section
variable {data : Bool} {s u : State} {p : Phase}

theorem recounted_refl (s : State) : Recounted s s := ⟨⟨_, _, _, rfl⟩, id⟩

theorem recounted_countUp {k : Counter} (h : count k s + 1 ≤ ceiling k s) : Recounted s (countUp k s) := by
  constructor
  · cases k <;> exact ⟨_, _, _, rfl⟩
  · rintro ⟨hi, hr, hm⟩
    cases k with
    | i => exact ⟨h, hr, hm⟩
    | r => exact ⟨hi, h, hm⟩
    | s => exact ⟨hi, hr, h⟩

theorem setSt_self {st : St} (h : s.ctx.st = st) : setSt st s = s := by
  subst h; rfl

/-! ### The shared ways to answer -/

theorem answers_fail {c : Result} (hc : c = .protocolError ∨ c = .timeout ∨ c = .linkLoss) :
    Answers data s p (fail c s) :=
  ⟨_, _, rfl, .fails hc⟩

theorem answers_protocolError : Answers data s p (fail .protocolError s) :=
  answers_fail (.inl rfl)

theorem answers_send {k : BlockKind} {inf : List Byte} {w : Nat} (hu : Recounted s u) (hk : k ≠ .i) (hinf : inf.length ≤ 1) :
    Answers data s p (busyAfter (sendFrame k inf w) u) := by
  obtain ⟨⟨i, r, m, rfl⟩, hb⟩ := hu
  exact ⟨_, _, rfl, .replies (st := s.ctx.st) ⟨⟨i, r, m, rfl⟩, hb⟩ hk hinf (.inl rfl)⟩

/-- A retry reacts as its action does, or ends the exchange with its counter's code. -/
theorem answers_retry {k : Counter} {act : State → Rx} (ha : ∀ u, Recounted s u → Answers data s p (act u)) :
    Answers data s p (retryThen k act s) := by
  rcases retryThen_cases (s := s) k act with ⟨_, h⟩ | ⟨hle, h⟩
  · rw [h]
    exact answers_fail (by cases k <;> simp [exhaustCode])
  · rw [h]
    exact ha _ (recounted_countUp hle)

/-- The buffer check fails, or guarantees that the delivery meets no fault. -/
theorem answers_ifFits {h : Nat} {act : State → State} {c : Result} (hp : p ≠ .pollerWait) (hh : h ≤ (rxFrame s).length)
    (hf : rxFrame u = rxFrame s) (hu : u.ctx.rxCap = s.ctx.rxCap) (ha : Reacts true s p (act (delivered h u)) c) :
    Answers true s p (ifFits h s (deliverThen h act c u)) := by
  rcases ifFits_cases (s := s) h (deliverThen h act c u) with ⟨_, h'⟩ | ⟨hle, h'⟩
  · rw [h']
    exact ⟨_, _, rfl, .tooLarge rfl hp⟩
  · rw [h']
    exact ⟨_, _, deliverThen_of_fits (hf ▸ hh) (by rwa [hf, hu]), ha⟩

theorem answers_chainAcked (hp : p ≠ .pollerWait) (ht : s.ctx.txChaining = true) : Answers data s p (chainAcked s) :=
  ⟨_, _, rfl, .acked hp ht⟩

theorem answers_final {h : Nat} (hp : p ≠ .pollerWait) (hh : h ≤ (rxFrame s).length) :
    Answers true s p (ifFits h s (deliverThen h toIdle .done (toggleBn s))) :=
  answers_ifFits hp hh rfl rfl (.final rfl hp)

/-! ### Transmission errors -/

theorem answers_pollerRecover : Answers data s p (pollerRecover s) := by
  have hretry {k : BlockKind} (w : State → Nat) (hk : k ≠ .i) :
      Answers data s p (retryThen .r (busyAfter fun u => sendFrame k [] (w u) u) s) :=
    answers_retry fun u hu => answers_send hu hk (by simp)
  unfold pollerRecover
  split_ifs
  · exact hretry fwtNormal (by decide)
  · exact hretry fwtDsl (by decide)
  · exact hretry fwtNormal (by decide)

theorem answers_transmissionError (e : TxError) : Answers data s p (transmissionError p e s) := by
  unfold transmissionError
  split_ifs
  · exact answers_fail (by cases e <;> simp [bailCode])
  · cases p with
    | pollerRx => exact answers_pollerRecover
    | pollerWait => exact answers_pollerRecover
    | listenerRx => exact ⟨_, _, rfl, .rearms⟩

/-! ### The poller's rules -/

section
variable {h : Nat} {b : Bool}

theorem answers_pollerSWtx (hh : h ≤ (rxFrame s).length) : Answers data s .pollerRx (pollerSWtx h s) := by
  unfold pollerSWtx
  rw [rxInf_of_le hh]
  split
  next hf => cases hf
  next b _ =>
    dsimp only
    split_ifs
    · exact answers_protocolError
    · exact answers_retry fun u hu => answers_send hu (by decide) (by simp)
  next => exact answers_protocolError

theorem answers_pollerRAck : Answers data s .pollerRx (pollerRAck h b s) := by
  unfold pollerRAck
  split_ifs with ht _ _
  · exact answers_protocolError
  · exact answers_protocolError
  · exact answers_chainAcked (by decide) (by simpa using ht)
  · exact answers_retry fun u hu => ⟨_, _, rfl, .resendsI hu (by simpa using ht)⟩

theorem answers_pollerIChain (hst : s.ctx.st = .rx) (hh : h ≤ (rxFrame s).length) :
    Answers true s .pollerRx (pollerIChain h b s) := by
  unfold pollerIChain
  split_ifs with ht _
  · exact answers_protocolError
  · have hreact := Reacts.chained (data := true) (s := s) (p := .pollerRx) (h := h) rfl (by decide) (by simpa using ht)
    rw [setSt_self (by exact hst)] at hreact
    exact answers_ifFits (by decide) hh rfl rfl hreact
  · exact answers_send (recounted_refl s) (by decide) (by simp)

theorem answers_pollerIFinal (hh : h ≤ (rxFrame s).length) : Answers true s .pollerRx (pollerIFinal h b s) := by
  unfold pollerIFinal
  split_ifs
  · exact answers_protocolError
  · exact answers_final (by decide) hh
  · cases s.cfg.mode with
    | nfcForum => exact answers_protocolError
    | emv => exact answers_protocolError
    | iso => exact answers_retry fun u hu => answers_send hu (by decide) (by simp)

theorem answers_waitingSDsl : Answers data s .pollerWait (waitingSDsl h s) := by
  unfold waitingSDsl
  split_ifs
  · exact ⟨_, _, rfl, .deselects⟩
  · exact answers_protocolError

/-! ### The listener's rules -/

theorem answers_listenerRetransmit : Answers data s .listenerRx (listenerRetransmit s) := by
  unfold listenerRetransmit
  split_ifs with hne
  · exact answers_protocolError
  · obtain ⟨pcb, f, hl⟩ := List.exists_cons_of_ne_nil hne
    refine answers_retry fun u hu => ⟨setSt .rx (resendKept pcb u), .busy, ?_, .resendsLast hu (by simp [hl])⟩
    obtain ⟨⟨i, r, m, rfl⟩, _⟩ := hu
    rw [resendLast_cons (by exact hl)]
    rfl

theorem answers_listenerRAck : Answers data s .listenerRx (listenerRAck h b s) := by
  unfold listenerRAck
  split_ifs with _ _ ht
  · exact answers_protocolError
  · exact answers_listenerRetransmit
  · exact answers_chainAcked (by decide) ht
  · exact answers_protocolError

theorem answers_listenerRNak : Answers data s .listenerRx (listenerRNak h b s) := by
  unfold listenerRNak
  split_ifs
  · exact answers_protocolError
  · exact answers_listenerRetransmit
  · exact answers_retry fun u hu => ⟨_, _, rfl, .replies hu (by decide) (by simp) (.inr ⟨rfl, rfl⟩)⟩

theorem answers_listenerIChain (hh : h ≤ (rxFrame s).length) : Answers true s .listenerRx (listenerIChain h s) := by
  unfold listenerIChain
  split_ifs with ht
  · exact answers_protocolError
  · exact answers_ifFits (by decide) hh rfl rfl (.chained rfl (by decide) (by simpa using ht))

theorem answers_listenerIFinal (hh : h ≤ (rxFrame s).length) : Answers true s .listenerRx (listenerIFinal h s) := by
  unfold listenerIFinal
  split_ifs
  · exact answers_protocolError
  · exact answers_final (by decide) hh

theorem answers_listenerSDsl : Answers data s .listenerRx (listenerSDsl h s) := by
  unfold listenerSDsl
  split_ifs
  · exact ⟨_, _, rfl, .answersDeselect⟩
  · exact answers_protocolError

end

/-! ### A received block -/

section
variable {i : Instr}

/-- A block concludes with a terminal error, or with the rule of its reception. -/
theorem runBlock_answers {d n : Bool} {poller waiting listener : State → Rx} (hp : phase s = some p)
    (hpoller : s.ctx.st = .rx → hdrLen d n ≤ (rxFrame s).length → Answers data s .pollerRx (poller s))
    (hwaiting : Answers data s .pollerWait (waiting s))
    (hlistener : hdrLen d n ≤ (rxFrame s).length → Answers data s .listenerRx (listener s)) :
    ∃ r, runBlock d n poller waiting listener s = conclude s.ctx.dslIter r ∧ Answers data s p r := by
  rcases runBlock_cases (s := s) d n poller waiting listener with
    ⟨hq, _⟩ | ⟨_, _, h⟩ | ⟨hc, ⟨hq, h⟩ | ⟨hq, h⟩ | ⟨hq, h⟩⟩
  · rw [hp] at hq
    cases hq
  · exact ⟨_, h, answers_protocolError⟩
  · obtain rfl : p = .pollerRx := Option.some.inj (hp.symm.trans hq)
    obtain ⟨-, hst⟩ : s.ctx.role = .poller ∧ s.ctx.st = .rx := by simpa using phase_eq_some.1 hq
    exact ⟨_, h, hpoller hst (hdrLen_le hc)⟩
  · obtain rfl : p = .pollerWait := Option.some.inj (hp.symm.trans hq)
    exact ⟨_, h, hwaiting⟩
  · obtain rfl : p = .listenerRx := Option.some.inj (hp.symm.trans hq)
    exact ⟨_, h, hlistener (hdrLen_le hc)⟩

theorem exec_block_answers (hi : isBlock i = true) (hp : phase s = some p) :
    ∃ r, exec i s = conclude s.ctx.dslIter r ∧ Answers (carriesData i) s p r := by
  cases i with
  | iFinal => exact runBlock_answers hp (fun _ => answers_pollerIFinal) answers_protocolError answers_listenerIFinal
  | iChain => exact runBlock_answers hp answers_pollerIChain answers_protocolError answers_listenerIChain
  | rAck =>
    exact runBlock_answers hp (fun _ _ => answers_pollerRAck) answers_protocolError fun _ => answers_listenerRAck
  | rNak =>
    exact runBlock_answers hp (fun _ _ => answers_protocolError) answers_protocolError fun _ => answers_listenerRNak
  | sDsl =>
    exact runBlock_answers hp (fun _ _ => answers_protocolError) answers_waitingSDsl fun _ => answers_listenerSDsl
  | sWtx => exact runBlock_answers hp (fun _ => answers_pollerSWtx) answers_protocolError fun _ => answers_protocolError
  | _ => cases hi

/-! ### A reception step -/

theorem headerInstr_eq_none {k : Header} : headerInstr k = none ↔ k = .invalid := by
  fun_cases headerInstr k <;> simp

theorem isBlock_of_headerInstr {k : Header} (h : headerInstr k = some i) : isBlock i = true := by
  fun_cases headerInstr k <;> cases h <;> rfl

theorem react_answers {a : TStatus} (ha : a ≠ .busy) (hp : phase s = some p) :
    ∃ data r, react p a s = conclude s.ctx.dslIter r ∧ Answers data s p r := by
  cases a with
  | busy => exact absurd rfl ha
  | linkLoss => exact ⟨false, _, rfl, answers_fail (by simp)⟩
  | error e => exact ⟨false, _, rfl, answers_transmissionError e⟩
  | done f =>
    cases f with
    | nil => exact ⟨false, _, rfl, answers_protocolError⟩
    | cons pcb f =>
      cases hd : headerInstr (decodePcb pcb) with
      | none =>
        have herror := decode_pcb_eq_error.2 (headerInstr_eq_none.1 hd)
        exact ⟨false, _, react_malformed (.inr ⟨pcb, f, rfl, herror⟩) p s, answers_protocolError⟩
      | some i =>
        rw [react_of_decode_ok (decode_pcb_eq_ok.2 hd)]
        exact ⟨_, exec_block_answers (isBlock_of_headerInstr hd) hp⟩

/-- Everything a reception step can do where one is due: the transport is busy and its operation stays pending, or it has ended
the operation and the step reacts. -/
theorem receive_cases (hp : phase s = some p) : ∃ tr : Transport,
    (tr.pend = s.tr.pend ∧ receive s = .next (complete s.ctx.dslIter .busy { s with tr := tr })) ∨
    (tr.pend = none ∧ ∃ data t c,
      receive s = .next (complete s.ctx.dslIter c t) ∧ Reacts data { s with tr := tr } p t c) := by
  obtain ⟨tr, htr⟩ := tStatus_frame s
  obtain ⟨hbusy, hover⟩ := tStatus_pend s
  have hreceive : receive s = react p (tStatus s).1 { s with tr := tr } := by simp only [receive, hp, htr]
  rw [htr] at hbusy hover
  refine ⟨tr, ?_⟩
  by_cases ha : (tStatus s).1 = .busy
  · exact .inl ⟨hbusy ha, by rw [hreceive, ha]; rfl⟩
  · obtain ⟨data, r, hr, t, c, rfl, hreacts⟩ := react_answers (s := { s with tr := tr }) ha hp
    exact .inr ⟨hover ha, data, t, c, hreceive.trans hr, hreacts⟩

end
end

end Sys2Proof.Machine
end

