-- ==== Sys2Proof/Proofs/StepMoves.lean ====
section
/-! Everything a step can do (R12): a command's effect, with the conditions under which it is reached, or a reception. -/

namespace Sys2Proof.Machine

open Sys2Proof.Spec

/-- `Due s u`: a reception of a step in `s` runs in `u`: in `s` itself after a `POLL`, or in `s` with one more iteration of a
running `DESELECT` counted (R382). -/
def Due (s u : State) : Prop :=
  (s.ctx.dslIter = none ∧ u = s) ∨
  ∃ n, s.ctx.dslIter = some n ∧ n ≠ s.prm.dslCap ∧ u = { s with ctx := { s.ctx with dslIter := some (n + 1) } }

/-- `Moves s t`: a step of the machine may lead from `s`, its command fetched, to `t`. -/
inductive Moves (s : State) : State → Prop
  /-- Nothing is fetched (R400). -/
  | waits : Moves s s
  /-- `INIT` (R240). -/
  | inits {m : Mode} {a b c : Nat} (ha : a ≤ maxCeiling) (hb : b ≤ maxCeiling) (hc : c ≤ maxCeiling) :
      Moves s (initEffect m a b c s)
  /-- `SET_SESSION` with a passed check (R242). -/
  | setsSession {w f : Nat} {n : Option Byte} (hst : s.ctx.st = .idle) (hc : sessionCheck f n s = true) (hf : f ≤ maxLen) :
      Moves s (result .done { s with ses := { valid := true, dFwt := w, ourFsx := f, nad := n } })
  /-- A command whose check fails (R402). -/
  | reports : Moves s (result .parameterError s)
  /-- `START_TX` with a passed check (R247). -/
  | startsTx {inf : List Byte} {c : Bool} {r w f : Nat} {d : Option Byte} (hst : s.ctx.st = .idle) (hn : s.ctx.dslIter = none)
      (hv : s.ses.valid = true) (hc : txCheck inf.length f d s = true) (hr : r ≤ maxLen) (hf : f ≤ maxLen) :
      Moves s (startTxEffect inf c r w f d s)
  /-- `POLL` in `TX` (R249). -/
  | sends (hst : s.ctx.st = .tx) (hn : s.ctx.dslIter = none) : Moves s (pollTx s)
  /-- The start of a `DESELECT` (R381). -/
  | deselects (hrole : s.ctx.role = .poller) (hw : windowOk s = true) : Moves s (deselectStart s)
  /-- `LISTEN_START` with a passed check (R260). -/
  | listens {r w f : Nat} {d : Option Byte} (hst : s.ctx.st = .idle) (hn : s.ctx.dslIter = none) (hv : s.ses.valid = true)
      (hc : listenCheck f d s = true) (hr : r ≤ maxLen) (hf : f ≤ maxLen) : Moves s (listenEffect r w f d s)
  /-- A query. -/
  | answers {v : Nat} : Moves s (answered v s)
  /-- A reception whose transport is busy (R281). -/
  | busy {u : State} {p : Phase} {tr : Transport} (hu : Due s u) (hp : phase u = some p) (htr : tr.pend = u.tr.pend) :
      Moves s (complete u.ctx.dslIter .busy { u with tr := tr })
  /-- A reception whose transport has ended the operation. -/
  | receives {data : Bool} {u t : State} {p : Phase} {tr : Transport} {c : Result} (hu : Due s u) (hp : phase u = some p)
      (htr : tr.pend = none) (hr : Reacts data { u with tr := tr } p t c) : Moves s (complete u.ctx.dslIter c t)
  /-- An iteration of a `DESELECT` at its cap (R383). -/
  | capped : Moves s (finish .timeout (fullReset (tCancel s)))

section
variable {s t u : State}

/-- A reception that is due leads on by `busy` or `receives`. -/
theorem moves_of_receive (hu : Due s u) (h : receive u = .next t) : Moves s t := by
  cases hp : phase u with
  | none => simp [receive, hp] at h
  | some p =>
    obtain ⟨tr, ⟨htr, hr⟩ | ⟨htr, data, t', c, hr, hreacts⟩⟩ := receive_cases hp
    · rw [hr] at h
      cases h
      exact .busy hu hp htr
    · rw [hr] at h
      cases h
      exact .receives hu hp htr hreacts

/-- R82: a reception reads no buffer out of bounds. -/
theorem receive_ne_fault (s : State) (f : Fault) : receive s ≠ .fault f := by
  cases hp : phase s with
  | none => simp [receive, hp]
  | some p =>
    obtain ⟨tr, ⟨_, hr⟩ | ⟨_, _, t, c, hr, _⟩⟩ := receive_cases hp <;> simp [hr]

/-- A command with its arguments in range leads on by one of the moves. -/
theorem moves_of_exec {i : Instr} (hi : isBlock i = false) (hwf : i.WellFormed) (h : exec i s = .next t) : Moves s t := by
  cases i with
  | iFinal | iChain | rAck | rNak | sDsl | sWtx => cases hi
  | init m a b c =>
    obtain ⟨_, he⟩ := ifAdmitted_next h
    obtain ⟨⟨ha, hb⟩, hc⟩ : (a ≤ maxCeiling ∧ b ≤ maxCeiling) ∧ c ≤ maxCeiling := by
      simpa [Instr.WellFormed, Instr.wf] using hwf
    cases he
    exact .inits ha hb hc
  | setSession w f n =>
    obtain ⟨hadm, he⟩ := ifAdmitted_next h
    have hf : f ≤ maxLen := by simpa [Instr.WellFormed, Instr.wf] using hwf
    split_ifs at he with hc
    · cases he
      exact .setsSession (admits_setSession.1 hadm).2 hc hf
    · cases he
      exact .reports
  | startTx b l c r w f d =>
    obtain ⟨hadm, he⟩ := ifAdmitted_next h
    obtain ⟨⟨⟨-, hl⟩, hr⟩, hf⟩ : ((l ≤ maxLen ∧ l ≤ b.length) ∧ r ≤ maxLen) ∧ f ≤ maxLen := by
      simpa [Instr.WellFormed, Instr.wf] using hwf
    obtain ⟨hn, hst, hv⟩ := admits_startTx.1 hadm
    split_ifs at he with hc
    · rw [memRead_zero_of_le hl] at he
      cases he
      exact .startsTx hst hn hv (by rwa [List.length_take_of_le hl]) hr hf
    · cases he
      exact .reports
  | poll =>
    obtain ⟨hadm, he⟩ := ifAdmitted_next h
    obtain ⟨hn, -⟩ := admits_poll.1 hadm
    split_ifs at he with hst
    · cases he
      exact .sends hst hn
    · exact moves_of_receive (.inl ⟨hn, rfl⟩) he
  | deselect =>
    obtain ⟨hadm, he⟩ := ifAdmitted_next h
    obtain ⟨-, hrole, -⟩ := admits_deselect.1 hadm
    split_ifs at he with hw
    cases he
    exact .deselects hrole hw
  | listenStart r w f d =>
    obtain ⟨hadm, he⟩ := ifAdmitted_next h
    obtain ⟨hr, hf⟩ : r ≤ maxLen ∧ f ≤ maxLen := by simpa [Instr.WellFormed, Instr.wf] using hwf
    obtain ⟨hn, hst, hv, -⟩ := admits_listenStart.1 hadm
    split_ifs at he with hc
    · cases he
      exact .listens hst hn hv hc hr hf
    · cases he
      exact .reports
  | getMaxPayload | encodeHdr | decodeHdr | fwi2fwt | sfgi2sfgt =>
    obtain ⟨_, he⟩ := ifAdmitted_next h
    cases he
    exact .answers

theorem moves_of_deselectIteration {n : Nat} (hn : s.ctx.dslIter = some n) (h : deselectIteration n s = .next t) :
    Moves s t := by
  unfold deselectIteration at h
  split_ifs at h with hcap
  · cases h
    exact .capped
  · exact moves_of_receive (.inr ⟨n, hn, hcap, rfl⟩) h

/-- A command register holds no received block. -/
theorem isBlock_of_decodeCmd {c : CmdReg} {i : Instr} (h : decodeCmd c = .ok i) : isBlock i = false := by
  obtain ⟨r, -, hr⟩ := commandRow_of_decodeCmd h
  cases i with
  | iFinal | iChain | rAck | rNak | sDsl | sWtx => cases hr
  | _ => rfl

/-- What a step has fetched, and from where: only the host's commands are used up. -/
theorem fetch_cases (s : State) :
    fetch s = .nothing ∨ (∃ n, s.ctx.dslIter = some n ∧ fetch s = .iteration n) ∨
    ∃ c cmd host, fetch s = .command c { s with cmd := cmd, host := host } := by
  unfold fetch
  cases s.cmd with
  | some c => exact .inr (.inr ⟨c, _, _, rfl⟩)
  | none =>
    cases hn : s.ctx.dslIter with
    | some n => exact .inr (.inl ⟨n, rfl, rfl⟩)
    | none =>
      cases s.host with
      | nil => exact .inl rfl
      | cons c rest => exact .inr (.inr ⟨c, _, _, rfl⟩)

/-- Every step is one of the moves, once it has fetched its command. -/
theorem moves_of_step (h : step s = .next t) : ∃ cmd host, Moves { s with cmd := cmd, host := host } t := by
  unfold step at h
  rcases fetch_cases s with hf | ⟨n, hn, hf⟩ | ⟨c, cmd, host, hf⟩
  · rw [hf] at h
    cases h
    exact ⟨_, _, .waits⟩
  · rw [hf] at h
    exact ⟨_, _, moves_of_deselectIteration hn h⟩
  · rw [hf] at h
    dsimp only at h
    rw [decode_cmd] at h
    cases hd : decodeCmd c with
    | error e => simp [hd] at h
    | ok i =>
      rw [hd] at h
      exact ⟨_, _, moves_of_exec (isBlock_of_decodeCmd hd) (wellFormed_of_decodeCmd hd) h⟩

end

end Sys2Proof.Machine
end

