-- ==== Sys2Proof/Proofs/KeptInvariants.lean ====
section
/-! The invariants of reachable states (R45, R48, R52, R53, R66, R67, R197, R247) that neither the transport nor the count of a
`DESELECT` enters: each is kept by every way a rule may react and by every command, hence by every step. -/

namespace Sys2Proof.Machine

open Sys2Proof.Spec

/-- `P` does not depend on the machine's inputs, the transport, the iteration count, the result and the query output. -/
def Blind (P : State → Prop) : Prop :=
  ∀ s cmd host tr iter r v, P s →
    P { s with cmd := cmd, host := host, tr := tr, ctx := { s.ctx with dslIter := iter },
               out := { s.out with result := r, value := v } }

/-- What there is to show of a blind property, that every step keeps it. -/
structure Kept (P : State → Prop) : Prop where
  blind : Blind P
  reset : ∀ {s}, P s → P (fullReset s)
  reacts : ∀ {data s p t c}, P s → phase s = some p → Reacts data s p t c → P t
  inits : ∀ {s m a b c}, P s → a ≤ maxCeiling → b ≤ maxCeiling → c ≤ maxCeiling → P (initEffect m a b c s)
  setsSession : ∀ {s w f n}, P s → s.ctx.st = .idle → sessionCheck f n s = true → f ≤ maxLen →
    P { s with ses := { valid := true, dFwt := w, ourFsx := f, nad := n } }
  startsTx : ∀ {s inf c r w f d}, P s → s.ctx.st = .idle → s.ses.valid = true → txCheck inf.length f d s = true →
    r ≤ maxLen → f ≤ maxLen → P (startTxEffect inf c r w f d s)
  sends : ∀ {s}, P s → s.ctx.st = .tx → P (pollTx s)
  deselects : ∀ {s}, P s → s.ctx.role = .poller → windowOk s = true → P (deselectStart s)
  listens : ∀ {s r w f d}, P s → s.ctx.st = .idle → s.ses.valid = true → listenCheck f d s = true → r ≤ maxLen →
    f ≤ maxLen → P (listenEffect r w f d s)

section
variable {P : State → Prop} {s t u : State}

theorem Blind.due (h : Blind P) (hs : P s) (hu : Due s u) (tr : Transport) : P { u with tr := tr } := by
  obtain ⟨-, rfl⟩ | ⟨n, -, -, rfl⟩ := hu
  · exact h u u.cmd u.host tr u.ctx.dslIter u.out.result u.out.value hs
  · exact h s s.cmd s.host tr (some (n + 1)) s.out.result s.out.value hs

theorem Blind.finish (h : Blind P) (c : Result) (hs : P s) : P (finish c s) :=
  h s s.cmd s.host s.tr s.ctx.dslIter c s.out.value hs

theorem Kept.complete (h : Kept P) (iter : Option Nat) (c : Result) (hs : P s) : P (complete iter c s) := by
  rcases complete_cases (s := s) iter c with ⟨_, e⟩ | ⟨_, _, e⟩ | ⟨_, _, e⟩ <;> rw [e]
  · exact h.blind.finish c hs
  · exact hs
  · exact h.blind.finish c (h.reset hs)

theorem Kept.moves (h : Kept P) (hs : P s) (hm : Moves s t) : P t := by
  cases hm with
  | waits => exact hs
  | inits ha hb hc => exact h.inits hs ha hb hc
  | setsSession hst hc hf => exact h.blind.finish .done (h.setsSession hs hst hc hf)
  | reports => exact h.blind.finish .parameterError hs
  | startsTx hst _ hv hc hr hf => exact h.startsTx hs hst hv hc hr hf
  | sends hst _ => exact h.sends hs hst
  | deselects hrole hw => exact h.deselects hs hrole hw
  | listens hst _ hv hc hr hf => exact h.listens hs hst hv hc hr hf
  | answers => exact h.blind s s.cmd s.host s.tr s.ctx.dslIter .done _ hs
  | busy hu _ _ => exact h.complete _ _ (h.blind.due hs hu _)
  | receives hu hp _ hr => exact h.complete _ _ (h.reacts (h.blind.due hs hu _) (by exact hp) hr)
  | capped => exact h.blind.finish _ (h.reset (h.blind _ _ _ _ _ _ _ hs))

/-- A kept property holds after every step that begins in it. -/
theorem Kept.step (h : Kept P) (hs : P s) (hstep : step s = .next t) : P t := by
  obtain ⟨cmd, host, hm⟩ := moves_of_step hstep
  exact h.moves (h.blind _ _ _ _ _ _ _ hs) hm

end


/-! ### What the effects of the commands leave in the Link Context -/

section
variable (s : State)

@[simp] theorem initEffect_ctx (m : Mode) (a b c : Nat) : (initEffect m a b c s).ctx = Ctx.cleared := rfl

@[simp] theorem startTxEffect_ctx (inf : List Byte) (c : Bool) (r w f : Nat) (d : Option Byte) :
    (startTxEffect inf c r w f d s).ctx =
      { s.ctx with st := .tx, txInf := inf, txChaining := c, rxCap := r, fwt := w, fsx := f, did := didOfArg d,
                   cntI := 0, cntR := 0, cntS := 0 } := rfl

@[simp] theorem pollTx_ctx : (pollTx s).ctx =
    { s.ctx with st := .rx, lastKind := some .i, lastI := buildFrame .i s.ctx.txInf s,
                 lastFrame := buildFrame .i s.ctx.txInf s } := rfl

@[simp] theorem deselectStart_ctx : (deselectStart s).ctx =
    { s.ctx with st := .waitDeselect, txChaining := false, rxChaining := false, cntI := 0, cntR := 0, cntS := 0,
                 lastKind := some .sDsl, dslIter := some 0, lastFrame := buildFrame .sDsl [] s } := rfl

@[simp] theorem listenEffect_ctx (r w f : Nat) (d : Option Byte) :
    (listenEffect r w f d s).ctx = { listenCtx r w f d s.ctx with st := .activated } := rfl

end

/-! ### The counters and the ranges -/

/-- R67. -/
theorem countersBounded_kept : Kept CountersBounded where
  blind _ _ _ _ _ _ _ h := h
  reset _ := ⟨Nat.zero_le _, Nat.zero_le _, Nat.zero_le _⟩
  reacts := by
    intro data s p t c hs _ hr
    cases hr with
    | replies hu | resendsI hu | resendsLast hu => exact hu.2 hs
    | rearms => exact hs
    | _ => exact ⟨Nat.zero_le _, Nat.zero_le _, Nat.zero_le _⟩
  inits _ _ _ _ := ⟨Nat.zero_le _, Nat.zero_le _, Nat.zero_le _⟩
  setsSession h _ _ _ := h
  startsTx _ _ _ _ _ _ := ⟨Nat.zero_le _, Nat.zero_le _, Nat.zero_le _⟩
  sends h _ := h
  deselects _ _ _ := ⟨Nat.zero_le _, Nat.zero_le _, Nat.zero_le _⟩
  listens _ _ _ _ _ _ := ⟨Nat.zero_le _, Nat.zero_le _, Nat.zero_le _⟩

/-- Settles O57: the retries alone raise a counter, each within its ceiling; `INIT` alone writes a ceiling, and clears the
counters. -/
theorem stepKeepsCountersBounded : Obligations.StepKeepsCountersBounded :=
  fun _ _ hs hstep => countersBounded_kept.step hs hstep

/-- R48: an accepted `deviceId` is no 15. -/
theorem didOfArg_ne_fifteen {d : Option Byte} {s : State} (h : didArgOk d s = true) : didOfArg d ≠ some 15#4 := by
  intro h15
  obtain ⟨v, hv, hlow⟩ := Option.map_eq_some_iff.1 h15
  have hle : v.toNat ≤ 14 := (didArgOk_iff.1 h v hv).1
  have hmod : v.toNat % 16 = 15 := by simpa using congrArg BitVec.toNat hlow
  omega

theorem didArgOk_of_listenCheck {f : Nat} {d : Option Byte} {s : State} (h : listenCheck f d s = true) :
    didArgOk d s = true := by
  simp only [listenCheck, Bool.and_eq_true] at h
  exact h.1.1

theorem listenCheck_of_txCheck {l f : Nat} {d : Option Byte} {s : State} (h : txCheck l f d s = true) :
    listenCheck f d s = true := by
  simp only [txCheck, Bool.and_eq_true] at h
  exact h.1

/-- R9, R34, R48. -/
theorem rangesKept_kept : Kept RangesKept where
  blind _ _ _ _ _ _ _ h := h
  reset h := by simp_all [RangesKept, Ctx.cleared]
  reacts := by
    intro data s p t c hs _ hr
    cases hr with
    | replies hu | resendsI hu | resendsLast hu =>
      obtain ⟨⟨i, r, m, rfl⟩, -⟩ := hu
      exact hs
    | deselects | answersDeselect => simp_all [RangesKept, Ctx.cleared]
    | _ => exact hs
  inits := by
    rintro s m a b c ⟨-, -, -, hses, -⟩ ha hb hc
    exact ⟨by simp [Ctx.cleared], by simp [Ctx.cleared], by simp [Ctx.cleared], hses, ha, hb, hc⟩
  setsSession := by
    rintro s w f n ⟨hdid, hfsx, hcap, -, hcfg⟩ - - hf
    exact ⟨hdid, hfsx, hcap, hf, hcfg⟩
  startsTx := by
    rintro s inf c r w f d ⟨-, -, -, hfix⟩ - hv hc hr hf
    exact ⟨didOfArg_ne_fifteen (didArgOk_of_listenCheck (listenCheck_of_txCheck hc)), hf, hr, hfix⟩
  sends h _ := h
  deselects h _ _ := h
  listens := by
    rintro s r w f d ⟨-, -, -, hfix⟩ - hv hc hr hf
    exact ⟨didOfArg_ne_fifteen (didArgOk_of_listenCheck hc), hf, hr, hfix⟩

/-! ### The frame kept for retransmission, and the received data -/

/-- R150 to R155: a built frame begins with a header the codec recognises. -/
theorem lastFrameValid_of_built {k : BlockKind} {inf : List Byte} {s t : State} (h : t.ctx.lastFrame = buildFrame k inf s) :
    LastFrameValid t := by
  intro pcb rest hl
  rw [h, buildFrame] at hl
  cases hl
  exact encHeader_valid _ _ _ _ _

theorem lastFrameValid_of_nil {t : State} (h : t.ctx.lastFrame = []) : LastFrameValid t := by
  intro pcb rest hl
  rw [h] at hl
  cases hl

/-- R55, R228. -/
theorem lastFrameValid_kept : Kept LastFrameValid where
  blind _ _ _ _ _ _ _ h := h
  reset _ := lastFrameValid_of_nil rfl
  reacts := by
    intro data s p t c hs _ hr
    cases hr with
    | replies | chained => exact lastFrameValid_of_built rfl
    | resendsI hu | resendsLast hu =>
      obtain ⟨⟨i, r, m, rfl⟩, -⟩ := hu
      exact hs
    | deselects | answersDeselect => exact lastFrameValid_of_nil rfl
    | _ => exact hs
  inits _ _ _ _ := lastFrameValid_of_nil rfl
  setsSession h _ _ _ := h
  startsTx h _ _ _ _ _ := h
  sends _ _ := lastFrameValid_of_built rfl
  deselects _ _ _ := lastFrameValid_of_built rfl
  listens _ _ _ _ _ _ := lastFrameValid_of_nil rfl

/-- R59. -/
theorem rxLenRight_kept : Kept RxLenRight where
  blind _ _ _ _ _ _ _ h := h
  reset h := h
  reacts := by
    intro data s p t c hs _ hr
    cases hr with
    | replies hu | resendsI hu | resendsLast hu =>
      obtain ⟨⟨i, r, m, rfl⟩, -⟩ := hu
      exact hs
    | chained | final => exact .inr List.length_drop.symm
    | _ => exact hs
  inits _ _ _ _ := .inl rfl
  setsSession h _ _ _ := h
  startsTx _ _ _ _ _ _ := .inl rfl
  sends h _ := h
  deselects h _ _ := h
  listens _ _ _ _ _ _ := .inl rfl

/-! ### The states of the block -/

/-- R45. -/
theorem legalState_kept : Kept LegalState where
  blind _ _ _ _ _ _ _ h := h
  reset _ := by simp [LegalState, Ctx.cleared]
  reacts := by
    intro data s p t c hs hp hr
    cases hr with
    | replies hu _ _ hst =>
      obtain ⟨⟨i, r, m, rfl⟩, -⟩ := hu
      obtain rfl | ⟨rfl, rfl⟩ := hst
      · exact hs
      · simp [LegalState]
    | resendsI hu =>
      obtain ⟨⟨i, r, m, rfl⟩, -⟩ := hu
      exact hs
    | rearms => exact hs
    | _ => simp [LegalState, Ctx.cleared]
  inits _ _ _ _ := by simp [LegalState, Ctx.cleared]
  setsSession h _ _ _ := h
  startsTx _ _ _ _ _ _ := by simp [LegalState]
  sends _ _ := by simp [LegalState]
  deselects _ hrole _ := by simp [LegalState, hrole]
  listens _ _ _ _ _ _ := by simp [LegalState, listenCtx]

/-- R52, R53, R247, R341. -/
theorem chainingApart_kept : Kept ChainingApart where
  blind _ _ _ _ _ _ _ h := h
  reset _ := by simp [ChainingApart, Ctx.cleared]
  reacts := by
    intro data s p t c hs hp hr
    have htx := hs.2.1
    cases hr with
    | replies hu _ _ hst =>
      obtain ⟨⟨i, r, m, rfl⟩, -⟩ := hu
      obtain rfl | ⟨rfl, rfl⟩ := hst
      · exact hs
      · simpa [ChainingApart] using htx
    | resendsI hu =>
      obtain ⟨⟨i, r, m, rfl⟩, -⟩ := hu
      exact hs
    | resendsLast hu =>
      obtain ⟨⟨i, r, m, rfl⟩, -⟩ := hu
      simpa [ChainingApart] using htx
    | rearms => exact hs
    | acked _ ht => simp_all [ChainingApart]
    | chained _ _ ht => simpa [ChainingApart, sendAck] using ht
    | _ => simp [ChainingApart, Ctx.cleared]
  inits _ _ _ _ := by simp [ChainingApart, Ctx.cleared]
  setsSession h _ _ _ := h
  startsTx h hst _ _ _ _ := by simp_all [ChainingApart]
  sends h hst := by simp_all [ChainingApart]
  deselects _ _ _ := by simp [ChainingApart]
  listens _ _ _ _ _ _ := by simp [ChainingApart, listenCtx]

/-- An exchange that awaits a block runs in a session. -/
theorem valid_of_phase {s : State} {p : Phase} (hs : SessionValid s) (hp : phase s = some p) (hne : p ≠ .pollerWait) :
    s.ses.valid = true := by
  rcases phase_eq_some.1 hp with ⟨-, -, hst⟩ | ⟨hp', -⟩ | ⟨-, -, hst⟩
  · exact hs.1 (.inr (.inl hst))
  · exact absurd hp' hne
  · exact hs.1 (.inr hst)

/-- R63, R262. -/
theorem sessionValid_kept : Kept SessionValid where
  blind _ _ _ _ _ _ _ h := h
  reset h := ⟨by simp [Ctx.cleared], h.2⟩
  reacts := by
    intro data s p t c hs hp hr
    cases hr with
    | replies hu _ _ hst =>
      obtain ⟨⟨i, r, m, rfl⟩, -⟩ := hu
      obtain rfl | ⟨rfl, rfl⟩ := hst
      · exact hs
      · have hv := valid_of_phase hs hp (by decide)
        exact ⟨fun _ => hv, hs.2⟩
    | resendsI hu =>
      obtain ⟨⟨i, r, m, rfl⟩, -⟩ := hu
      exact hs
    | resendsLast hu =>
      obtain ⟨⟨i, r, m, rfl⟩, -⟩ := hu
      have hv := valid_of_phase hs hp (by decide)
      exact ⟨fun _ => hv, hs.2⟩
    | rearms => exact hs
    | chained _ hne =>
      have hv := valid_of_phase hs hp hne
      exact ⟨fun _ => hv, hs.2⟩
    | _ => exact ⟨by simp [Ctx.cleared], hs.2⟩
  inits h _ _ _ := ⟨by simp [Ctx.cleared], h.2⟩
  setsSession := by
    intro s w f n _ _ hc _
    exact ⟨fun _ => rfl, fun _ => (sessionCheck_iff.1 hc).1⟩
  startsTx h _ hv _ _ _ := ⟨fun _ => hv, h.2⟩
  sends h hst := ⟨fun _ => h.1 (.inl hst), h.2⟩
  deselects h _ _ := ⟨by simp, h.2⟩
  listens h _ hv _ _ _ := ⟨fun _ => hv, h.2⟩

/-- R197. -/
theorem windowIsLarger_kept : Kept WindowIsLarger where
  blind _ _ _ _ _ _ _ h := h
  reset _ := by simp [WindowIsLarger, Ctx.cleared]
  reacts := by
    intro data s p t c hs hp hr
    cases hr with
    | replies hu _ _ hst =>
      obtain ⟨⟨i, r, m, rfl⟩, -⟩ := hu
      obtain rfl | ⟨rfl, rfl⟩ := hst
      · exact hs
      · simp [WindowIsLarger]
    | resendsI hu =>
      obtain ⟨⟨i, r, m, rfl⟩, -⟩ := hu
      exact hs
    | rearms => exact hs
    | _ => simp [WindowIsLarger, Ctx.cleared]
  inits _ _ _ _ := by simp [WindowIsLarger, Ctx.cleared]
  setsSession _ hst _ _ := by simp [WindowIsLarger, hst]
  startsTx _ _ _ _ _ _ := by simp [WindowIsLarger]
  sends _ _ := by simp [WindowIsLarger]
  deselects _ _ hw := fun _ => windowOk_iff.1 hw
  listens _ _ _ _ _ _ := by simp [WindowIsLarger]

/-! ### The frames of an exchange -/

/-- Where a reception is due, the frames it may send again fit the remote, or are short control frames. -/
theorem kept_of_phase {s : State} {p : Phase} (hs : FramesFit s) (hp : phase s = some p) :
    s.ctx.lastFrame.length + crcLen ≤ s.ctx.fsx ∨ ShortControl s.ctx.lastFrame := by
  refine hs.kept ?_
  rcases phase_eq_some.1 hp with ⟨-, -, hst⟩ | ⟨-, -, hst⟩ | ⟨-, -, hst | hst⟩
  · exact .inl hst
  · exact .inr (.inr hst)
  · exact .inl hst
  · exact .inr (.inl hst)

/-- A listener's chained I-block fits the remote also before the listener is in `RX`: in `ACTIVATED` it has sent none. -/
theorem last_of_listenerRx {s : State} (hch : ChainingApart s) (hs : FramesFit s) (hp : phase s = some .listenerRx)
    (ht : s.ctx.txChaining = true) : s.ctx.lastI ≠ [] ∧ s.ctx.lastI.length + crcLen ≤ s.ctx.fsx := by
  rcases phase_eq_some.1 hp with ⟨hp', -⟩ | ⟨hp', -⟩ | ⟨-, -, hst | hst⟩
  · cases hp'
  · cases hp'
  · exact hs.last hst ht
  · rw [hch.2.2 hst] at ht
    cases ht

/-- R66: what a `POLL` sends in `TX` fits the remote. -/
theorem length_le_of_tx {s : State} (hs : FramesFit s) (hst : s.ctx.st = .tx) :
    (buildFrame .i s.ctx.txInf s).length + crcLen ≤ s.ctx.fsx := by
  have hpending := hs.pending hst
  rw [txHdrLenI] at hpending
  rw [buildFrame_length, decide_eq_true rfl, Bool.true_and]
  omega

/-- No frame is kept for an exchange in a state that neither sends nor reads. -/
theorem framesFit_of_idle {s : State} (h : s.ctx.st = .idle) : FramesFit s :=
  ⟨by simp [h], by simp [h], by simp [Reading, h]⟩

/-- R66, R81, with the chaining flags that the exchange's frames depend on. -/
theorem framesFit_kept : Kept (fun s => ChainingApart s ∧ FramesFit s) where
  blind _ _ _ _ _ _ _ h := ⟨h.1, h.2.pending, h.2.last, h.2.kept⟩
  reset h := ⟨chainingApart_kept.reset h.1, framesFit_of_idle rfl⟩
  reacts := by
    rintro data s p t c ⟨hch, hs⟩ hp hr
    refine ⟨chainingApart_kept.reacts hch hp hr, ?_⟩
    cases hr with
    | replies hu hk hinf hst =>
      obtain ⟨⟨i, r, m, rfl⟩, -⟩ := hu
      obtain rfl | ⟨rfl, rfl⟩ := hst
      · exact ⟨hs.pending, by simpa [hk] using hs.last, fun _ => .inr (buildFrame_shortControl hk hinf)⟩
      · exact ⟨by simp, by simpa [hk] using last_of_listenerRx hch hs hp,
          fun _ => .inr (buildFrame_shortControl hk hinf)⟩
    | resendsI hu =>
      obtain ⟨⟨i, r, m, rfl⟩, -⟩ := hu
      exact ⟨hs.pending, hs.last, hs.kept⟩
    | resendsLast hu =>
      obtain ⟨⟨i, r, m, rfl⟩, -⟩ := hu
      have hkept := kept_of_phase hs hp
      exact ⟨by simp, by simpa using last_of_listenerRx hch hs hp, fun _ => hkept⟩
    | rearms => exact ⟨hs.pending, hs.last, hs.kept⟩
    | chained _ _ ht =>
      exact ⟨by simp, by simp [sendAck, ht], fun _ => .inr (buildFrame_shortControl (by decide) (by simp))⟩
    | _ => exact framesFit_of_idle rfl
  inits h ha hb hc := ⟨chainingApart_kept.inits h.1 ha hb hc, framesFit_of_idle rfl⟩
  setsSession h hst hc hf := ⟨chainingApart_kept.setsSession h.1 hst hc hf, framesFit_of_idle hst⟩
  startsTx := by
    rintro s inf c r w f d ⟨hch, -⟩ hst hv hc hr hf
    refine ⟨chainingApart_kept.startsTx hch hst hv hc hr hf, fun _ => ?_, by simp, by simp [Reading]⟩
    obtain ⟨-, -, hh, hl⟩ := (txCheck_iff hv).1 hc
    have hhdr : txHdrLenI (startTxEffect inf c r w f d s) = argHdrLen d s := txHdrLenI_eq_arg hv rfl
    simp only [hhdr, startTxEffect_ctx, crcLen]
    omega
  sends := by
    rintro s ⟨hch, hs⟩ hst
    have hlen := length_le_of_tx hs hst
    refine ⟨chainingApart_kept.sends hch hst, by simp, fun _ _ => ⟨by simp [buildFrame], hlen⟩, fun _ => .inl hlen⟩
  deselects h hrole hw :=
    ⟨chainingApart_kept.deselects h.1 hrole hw, by simp, by simp,
      fun _ => .inr (buildFrame_shortControl (by decide) (by simp))⟩
  listens h hst hv hc hr hf :=
    ⟨chainingApart_kept.listens h.1 hst hv hc hr hf, by simp, by simp, fun _ => .inr (by simp [listenCtx, ShortControl])⟩

end Sys2Proof.Machine
end

