-- ==== Sys2Proof/Proofs/Invariant.lean ====
section
/-! The two invariants that the transport and the count of a `DESELECT` enter (R58, R62), and the invariant of reachable states as
a whole: it holds after reset, and every step keeps it. -/

namespace Sys2Proof.Machine

open Sys2Proof.Spec

section
variable {data : Bool} {s t u : State} {p : Phase} {c : Result}

/-! ### A running `DESELECT` (R58, R262) -/

theorem deselectMarked_of_none (hn : t.ctx.dslIter = none) (hst : t.ctx.st ≠ .waitDeselect) : DeselectMarked t :=
  ⟨by simp [hn, hst], by simp [hn]⟩

theorem deselectMarked_due (hs : DeselectMarked s) (hu : Due s u) : DeselectMarked u := by
  obtain ⟨-, rfl⟩ | ⟨n, hn, hcap, rfl⟩ := hu
  · exact hs
  · have hst : s.ctx.st = .waitDeselect := hs.waiting.1 (by simp [hn])
    have hle : n + 1 ≤ s.prm.dslCap := Nat.lt_of_le_of_ne (hs.capped n hn) hcap
    exact ⟨by simp [hst], by simpa using hle⟩

/-- Outside `WAIT_DESELECT` no `DESELECT` runs, so that the state may change there. -/
theorem dslIter_of_phase (hs : DeselectMarked s) (hp : phase s = some p) (hne : p ≠ .pollerWait) : s.ctx.dslIter = none := by
  have hst : s.ctx.st ≠ .waitDeselect := by
    rcases phase_eq_some.1 hp with ⟨-, -, h⟩ | ⟨hp', -⟩ | ⟨-, -, h | h⟩
    · simp [h]
    · exact absurd hp' hne
    · simp [h]
    · simp [h]
  simpa [hst] using hs.waiting

theorem deselectMarked_reacts (hs : DeselectMarked s) (hp : phase s = some p) (hr : Reacts data s p t c) : DeselectMarked t := by
  cases hr with
  | replies hu _ _ hst =>
    obtain ⟨⟨i, r, m, rfl⟩, -⟩ := hu
    obtain rfl | ⟨rfl, rfl⟩ := hst
    · exact ⟨hs.waiting, hs.capped⟩
    · have hn := dslIter_of_phase hs hp (by decide)
      exact deselectMarked_of_none hn (by simp)
  | rearms => exact ⟨hs.waiting, hs.capped⟩
  | resendsI hu =>
    obtain ⟨⟨i, r, m, rfl⟩, -⟩ := hu
    exact ⟨hs.waiting, hs.capped⟩
  | resendsLast hu =>
    have hn := dslIter_of_phase hs hp (by decide)
    obtain ⟨⟨i, r, m, rfl⟩, -⟩ := hu
    exact deselectMarked_of_none hn (by simp)
  | acked hne | chained _ hne =>
    have hn := dslIter_of_phase hs hp hne
    exact deselectMarked_of_none hn (by simp)
  | fails | tooLarge | final | deselects | answersDeselect => exact deselectMarked_of_none rfl (by simp [Ctx.cleared])

theorem deselectMarked_complete (iter : Option Nat) (c : Result) (hs : DeselectMarked s) :
    DeselectMarked (complete iter c s) := by
  rcases complete_cases (s := s) iter c with ⟨_, e⟩ | ⟨_, _, e⟩ | ⟨_, _, e⟩ <;> rw [e]
  · exact ⟨hs.waiting, hs.capped⟩
  · exact hs
  · exact deselectMarked_of_none rfl (by simp [Ctx.cleared])

theorem deselectMarked_moves (hs : DeselectMarked s) (hm : Moves s t) : DeselectMarked t := by
  cases hm with
  | waits => exact hs
  | setsSession | reports | answers => exact ⟨hs.waiting, hs.capped⟩
  | startsTx _ hn => exact deselectMarked_of_none hn (by simp)
  | sends _ hn => exact deselectMarked_of_none hn (by simp)
  | listens _ hn => exact deselectMarked_of_none hn (by simp)
  | inits | capped => exact deselectMarked_of_none rfl (by simp [Ctx.cleared])
  | deselects => exact ⟨by simp, by simp⟩
  | busy hu =>
    have hmarked := deselectMarked_due hs hu
    exact deselectMarked_complete _ _ ⟨hmarked.waiting, hmarked.capped⟩
  | receives hu hp _ hr =>
    have hmarked := deselectMarked_due hs hu
    refine deselectMarked_complete _ _ (deselectMarked_reacts ?_ (by exact hp) hr)
    exact ⟨hmarked.waiting, hmarked.capped⟩

/-! ### The pending operation (R62) -/

/-- A rule that leaves a state which reads the transport has submitted an operation. -/
theorem readsPending_reacts (hr : Reacts data s p t c) : ReadsPending t := by
  cases hr with
  | replies | rearms | resendsI | resendsLast | chained => exact fun _ h => by cases h
  | fails | tooLarge | acked | final | deselects | answersDeselect => simp [ReadsPending, Reading, Ctx.cleared]

theorem readsPending_complete (iter : Option Nat) (c : Result) (hs : ReadsPending s) : ReadsPending (complete iter c s) := by
  rcases complete_cases (s := s) iter c with ⟨_, e⟩ | ⟨_, _, e⟩ | ⟨_, _, e⟩ <;> rw [e]
  · exact hs
  · exact hs
  · simp [ReadsPending, Reading, Ctx.cleared]

theorem readsPending_moves (hs : ReadsPending s) (hm : Moves s t) : ReadsPending t := by
  cases hm with
  | waits | setsSession | reports | answers => exact hs
  | startsTx | inits | capped => simp [ReadsPending, Reading, Ctx.cleared]
  | sends | deselects | listens => exact fun _ h => by cases h
  | busy hu _ htr =>
    refine readsPending_complete _ _ fun hreads => ?_
    rw [htr]
    obtain ⟨-, rfl⟩ | ⟨n, -, -, rfl⟩ := hu
    · exact hs hreads
    · exact hs hreads
  | receives _ _ _ hr => exact readsPending_complete _ _ (readsPending_reacts hr)

/-! ### The whole invariant -/

/-- What the host has still to say enters no invariant. -/
theorem invariant_withInputs (hs : Invariant s) (cmd : Option CmdReg) (host : List CmdReg) :
    Invariant { s with cmd := cmd, host := host } :=
  { hs with
    marked := ⟨hs.marked.waiting, hs.marked.capped⟩
    fit := ⟨hs.fit.pending, hs.fit.last, hs.fit.kept⟩ }

theorem invariant_moves (hs : Invariant s) (hm : Moves s t) : Invariant t where
  counters := countersBounded_kept.moves hs.counters hm
  legal := legalState_kept.moves hs.legal hm
  reads := readsPending_moves hs.reads hm
  marked := deselectMarked_moves hs.marked hm
  chaining := chainingApart_kept.moves hs.chaining hm
  fit := (framesFit_kept.moves ⟨hs.chaining, hs.fit⟩ hm).2
  session := sessionValid_kept.moves hs.session hm
  ranges := rangesKept_kept.moves hs.ranges hm
  lastFrame := lastFrameValid_kept.moves hs.lastFrame hm
  rxLen := rxLenRight_kept.moves hs.rxLen hm
  window := windowIsLarger_kept.moves hs.window hm

end

/-- Settles O56: a step is one of the moves, and each part of the invariant is kept by every move. -/
theorem stepKeepsTheInvariant : Obligations.StepKeepsTheInvariant := by
  intro s t hs hstep
  obtain ⟨cmd, host, hm⟩ := moves_of_step hstep
  exact invariant_moves (invariant_withInputs hs cmd host) hm

/-- Settles O55: at reset nothing runs, is pending or has been sent, and every counter and length is 0. -/
theorem resetMeetsTheInvariant : Obligations.ResetMeetsTheInvariant where
  counters := by decide
  legal := by decide
  reads := by decide
  marked := deselectMarked_of_none rfl (by decide)
  chaining := by decide
  fit := ⟨by decide, by decide, by simp [Reading, State.reset, Ctx.reset]⟩
  session := by decide
  ranges := by decide
  lastFrame := lastFrameValid_of_nil rfl
  rxLen := .inl rfl
  window := by simp [WindowIsLarger, State.reset, Ctx.reset]

end Sys2Proof.Machine
end

