-- ==== Sys2Proof/Proofs/StepEffects.lean ====
section
/-! What a step writes, case by case of `Reacts` and `Moves`: the registers and their writers (R33, R41, R59), the block number
(R47, R68), the pending frame (R66, R81), and the results of `POLL` (R248, R401). -/

namespace Sys2Proof.Machine

open Sys2Proof.Spec

section
variable {data : Bool} {s t u : State} {p : Phase} {c : Result}

/-! ### Writers of the registers -/

/-- A reaction writes the Link Context, the output registers and the transport alone. -/
theorem reacts_frame (hr : Reacts data s p t c) : t = { s with ctx := t.ctx, out := t.out, tr := t.tr } := by
  cases hr with
  | replies hu | resendsI hu | resendsLast hu =>
    obtain ⟨⟨i, r, m, rfl⟩, -⟩ := hu
    rfl
  | _ => rfl

/-- A reaction writes an output register only where it delivers received data (R59). -/
theorem reacts_out (hr : Reacts data s p t c) :
    t.out = s.out ∨ data = true ∧ (c = .done ∨ c = .partialData) ∧ t.out.value = s.out.value := by
  cases hr with
  | replies hu | resendsI hu | resendsLast hu =>
    obtain ⟨⟨i, r, m, rfl⟩, -⟩ := hu
    exact .inl rfl
  | chained hd => exact .inr ⟨hd, .inr rfl, rfl⟩
  | final hd => exact .inr ⟨hd, .inl rfl, rfl⟩
  | _ => exact .inl rfl

/-- The end of a reception step writes the Link Context and the result alone (R382, R384, R400). -/
theorem complete_frame (iter : Option Nat) (c : Result) (s : State) :
    complete iter c s =
      { s with ctx := (complete iter c s).ctx, out := { s.out with result := (complete iter c s).out.result } } := by
  rcases complete_cases (s := s) iter c with ⟨_, e⟩ | ⟨_, _, e⟩ | ⟨_, _, e⟩ <;> rw [e] <;> rfl

theorem complete_prm (iter : Option Nat) (c : Result) (s : State) : (complete iter c s).prm = s.prm :=
  congrArg (·.prm) (complete_frame iter c s)

theorem complete_cfg (iter : Option Nat) (c : Result) (s : State) : (complete iter c s).cfg = s.cfg :=
  congrArg (·.cfg) (complete_frame iter c s)

theorem complete_ses (iter : Option Nat) (c : Result) (s : State) : (complete iter c s).ses = s.ses :=
  congrArg (·.ses) (complete_frame iter c s)

theorem complete_value (iter : Option Nat) (c : Result) (s : State) : (complete iter c s).out.value = s.out.value :=
  congrArg (·.out.value) (complete_frame iter c s)

theorem complete_rxData (iter : Option Nat) (c : Result) (s : State) : (complete iter c s).out.rxData = s.out.rxData :=
  congrArg (·.out.rxData) (complete_frame iter c s)

theorem complete_tr (iter : Option Nat) (c : Result) (s : State) : (complete iter c s).tr = s.tr :=
  congrArg (·.tr) (complete_frame iter c s)

theorem complete_result (iter : Option Nat) (hc : c ≠ .busy) (s : State) : (complete iter c s).out.result = c := by
  rcases complete_cases (s := s) iter c with ⟨_, e⟩ | ⟨_, hbusy, _⟩ | ⟨_, _, e⟩
  · rw [e]; rfl
  · exact absurd hbusy hc
  · rw [e]; rfl

theorem complete_busy_ctx (iter : Option Nat) (s : State) : (complete iter .busy s).ctx = s.ctx := by
  cases iter <;> rfl

/-- Of the registers that have writers of their own, `t` differs from `s` at most in the received data, and there only where data
may be delivered and an accepted block has its result. -/
structure WritesData (data : Bool) (s t : State) : Prop where
  prm : t.prm = s.prm
  cfg : t.cfg = s.cfg
  ses : t.ses = s.ses
  value : t.out.value = s.out.value
  rxData : t.out.rxData ≠ s.out.rxData → data = true ∧ (t.out.result = .done ∨ t.out.result = .partialData)

theorem writesData_of_eq (hprm : t.prm = s.prm) (hcfg : t.cfg = s.cfg) (hses : t.ses = s.ses)
    (hvalue : t.out.value = s.out.value) (hdata : t.out.rxData = s.out.rxData) : WritesData false s t :=
  ⟨hprm, hcfg, hses, hvalue, fun hne => absurd hdata hne⟩

/-- Whatever the writers are, such a step answers for none of them but that of the received data. -/
theorem WritesData.writers {A B C D : Prop} (hw : WritesData data s t) (hd : data = true → D) :
    t.prm = s.prm ∧ (t.cfg ≠ s.cfg → A) ∧ (t.ses ≠ s.ses → B) ∧ (t.out.value ≠ s.out.value → C) ∧
    (t.out.rxData ≠ s.out.rxData → D ∧ (t.out.result = .done ∨ t.out.result = .partialData)) :=
  ⟨hw.prm, fun hne => absurd hw.cfg hne, fun hne => absurd hw.ses hne, fun hne => absurd hw.value hne,
    fun hne => ⟨hd (hw.rxData hne).1, (hw.rxData hne).2⟩⟩

theorem writesData_of_reacts (hr : Reacts data s p t c) (iter : Option Nat) :
    WritesData data s (complete iter c t) where
  prm := (complete_prm iter c t).trans (congrArg (·.prm) (reacts_frame hr))
  cfg := (complete_cfg iter c t).trans (congrArg (·.cfg) (reacts_frame hr))
  ses := (complete_ses iter c t).trans (congrArg (·.ses) (reacts_frame hr))
  value := by
    rw [complete_value]
    rcases reacts_out hr with hout | ⟨-, -, hvalue⟩
    · rw [hout]
    · exact hvalue
  rxData := by
    rw [complete_rxData]
    intro hne
    rcases reacts_out hr with hout | ⟨hd, hc, -⟩
    · rw [hout] at hne
      exact absurd rfl hne
    · refine ⟨hd, ?_⟩
      rwa [complete_result iter (by rintro rfl; simp at hc)]

theorem writesData_of_receive (h : receive s = .next t) : ∃ data, WritesData data s t := by
  cases hp : phase s with
  | none => simp [receive, hp] at h
  | some p =>
    obtain ⟨tr, ⟨-, hr⟩ | ⟨-, data, u, c, hr, hreacts⟩⟩ := receive_cases hp
    · rw [hr] at h
      cases h
      exact ⟨false, writesData_of_eq (complete_prm ..) (complete_cfg ..) (complete_ses ..) (complete_value ..)
        (complete_rxData ..)⟩
    · rw [hr] at h
      cases h
      have hwrites := writesData_of_reacts hreacts s.ctx.dslIter
      exact ⟨data, hwrites.prm, hwrites.cfg, hwrites.ses, hwrites.value, hwrites.rxData⟩

theorem writesData_of_block {i : Instr} (hi : isBlock i = true) (h : exec i s = .next t) :
    WritesData (carriesData i) s t := by
  cases hp : phase s with
  | none =>
    obtain ⟨poller, waiting, listener, hexec⟩ := exec_block hi
    rw [hexec, runBlock_of_phase_none hp] at h
    cases h
  | some p =>
    obtain ⟨r, hr, u, c, rfl, hreacts⟩ := exec_block_answers hi hp
    rw [hr] at h
    cases h
    exact writesData_of_reacts hreacts s.ctx.dslIter

theorem writesData_of_poll (h : exec .poll s = .next t) : ∃ data, WritesData data s t := by
  obtain ⟨-, he⟩ := ifAdmitted_next h
  split_ifs at he
  · cases he
    exact ⟨false, writesData_of_eq rfl rfl rfl rfl rfl⟩
  · exact writesData_of_receive he

theorem iBlock_of_carriesData {i : Instr} (h : carriesData i = true) : ∃ d n b, i = .iFinal d n b ∨ i = .iChain d n b := by
  cases i with
  | iFinal d n b => exact ⟨d, n, b, .inl rfl⟩
  | iChain d n b => exact ⟨d, n, b, .inr rfl⟩
  | _ => cases h

/-! ### The block number -/

/-- A reception that is due runs in the step's own block number and state. -/
theorem due_ctx (hu : Due s u) : u.ctx.bn = s.ctx.bn ∧ u.ctx.st = s.ctx.st := by
  obtain ⟨-, rfl⟩ | ⟨n, -, -, rfl⟩ := hu <;> exact ⟨rfl, rfl⟩

/-- A reaction changes the block number where it accepts a block, or resets the context. -/
theorem reacts_bn (hr : Reacts data s p t c) (hp : phase s = some p) (hbn : t.ctx.bn ≠ s.ctx.bn) :
    t.ctx = Ctx.cleared ∨
    ((s.ctx.st = .rx ∨ s.ctx.st = .activated) ∧
      ((t.ctx.st = .idle ∧ c = .done) ∨ (t.ctx.st = .rx ∧ c = .partialData ∧ t.ctx.rxChaining = true))) := by
  have hawaits (hne : p ≠ .pollerWait) : s.ctx.st = .rx ∨ s.ctx.st = .activated := by
    rcases phase_eq_some.1 hp with ⟨-, -, hst⟩ | ⟨hwait, -⟩ | ⟨-, -, hst⟩
    · exact .inl hst
    · exact absurd hwait hne
    · exact hst
  cases hr with
  | replies hu | resendsI hu | resendsLast hu =>
    obtain ⟨⟨i, r, m, rfl⟩, -⟩ := hu
    exact absurd rfl hbn
  | fails | tooLarge | rearms => exact absurd rfl hbn
  | deselects | answersDeselect => exact .inl rfl
  | acked hne => exact .inr ⟨hawaits hne, .inl ⟨rfl, rfl⟩⟩
  | final _ hne => exact .inr ⟨hawaits hne, .inl ⟨rfl, rfl⟩⟩
  | chained _ hne => exact .inr ⟨hawaits hne, .inr ⟨rfl, rfl, rfl⟩⟩

end

/-- Settles O59: a reception writes none of these registers but `out.rxData`; every other command is one update. -/
theorem registersHaveOnlyTheirWriters : Obligations.RegistersHaveOnlyTheirWriters := by
  intro i s t h
  cases i with
  | iFinal | iChain | rAck | rNak | sDsl | sWtx =>
    exact (writesData_of_block rfl h).writers fun hd => .inr (iBlock_of_carriesData hd)
  | poll =>
    obtain ⟨data, hw⟩ := writesData_of_poll h
    exact hw.writers fun _ => .inl rfl
  | init m a b c =>
    obtain ⟨-, he⟩ := ifAdmitted_next h
    cases he
    exact ⟨rfl, fun _ => ⟨m, a, b, c, rfl⟩, fun hne => absurd rfl hne, fun _ => .inl ⟨m, a, b, c, rfl⟩,
      fun hne => absurd rfl hne⟩
  | setSession w f n =>
    obtain ⟨-, he⟩ := ifAdmitted_next h
    split_ifs at he <;> cases he <;>
      exact ⟨rfl, fun hne => absurd rfl hne, fun _ => ⟨w, f, n, rfl⟩, fun hne => absurd rfl hne,
        fun hne => absurd rfl hne⟩
  | startTx b l c r w f d =>
    obtain ⟨-, he⟩ := ifAdmitted_next h
    split_ifs at he
    · rcases memRead_cases b 0 l with ⟨-, hread⟩ | ⟨-, hread⟩ <;> rw [hread] at he <;> cases he
      exact (writesData_of_eq rfl rfl rfl rfl rfl).writers (by simp)
    · cases he
      exact (writesData_of_eq rfl rfl rfl rfl rfl).writers (by simp)
  | deselect | listenStart =>
    obtain ⟨-, he⟩ := ifAdmitted_next h
    split_ifs at he <;> cases he <;> exact (writesData_of_eq rfl rfl rfl rfl rfl).writers (by simp)
  | getMaxPayload | encodeHdr | decodeHdr | fwi2fwt | sfgi2sfgt =>
    obtain ⟨-, he⟩ := ifAdmitted_next h
    cases he
    exact ⟨rfl, fun hne => absurd rfl hne, fun hne => absurd rfl hne, fun _ => by simp, fun hne => absurd rfl hne⟩

/-- Settles O58: beside the resets and `LISTEN_START`, only the acceptances of a block toggle the number. -/
theorem blockNumberChangesOnlyOnAcceptance : Obligations.BlockNumberChangesOnlyOnAcceptance := by
  intro s t hstep hbn
  obtain ⟨cmd, host, hm⟩ := moves_of_step hstep
  cases hm with
  | waits | setsSession | reports | startsTx | sends | deselects | answers => exact absurd rfl hbn
  | inits | capped => exact .inl rfl
  | listens hst => exact .inr (.inl ⟨hst, rfl, rfl, rfl, rfl⟩)
  | @busy u _ tr hu =>
    obtain ⟨hubn, -⟩ := due_ctx hu
    rw [complete_busy_ctx] at hbn
    exact absurd hubn hbn
  | @receives _ u v _ _ c hu hp _ hr =>
    obtain ⟨hubn, hust⟩ := due_ctx hu
    rcases complete_cases (s := v) u.ctx.dslIter c with ⟨-, e⟩ | ⟨-, rfl, e⟩ | ⟨-, -, e⟩
    · rw [e] at hbn ⊢
      rcases reacts_bn hr hp (fun h => hbn (h.trans hubn)) with hcleared | ⟨hst, haccept⟩
      · exact .inl hcleared
      · exact .inr (.inr ⟨hust ▸ hst, haccept⟩)
    · rw [e] at hbn ⊢
      rcases reacts_bn hr hp (fun h => hbn (h.trans hubn)) with hcleared | ⟨-, ⟨-, h⟩ | ⟨-, h, -⟩⟩
      · exact .inl hcleared
      · cases h
      · cases h
    · rw [e]
      exact .inl rfl

end Sys2Proof.Machine
end

