-- ==== Sys2Proof/Proofs/PendingFrames.lean ====
section
/-! The pending operation suits the remote (R66, R81): an I-block, and any other frame above 3 bytes, is submitted only where it
fits the remote's frame size and its answer is awaited. -/

namespace Sys2Proof.Machine

open Sys2Proof.Spec

/-- The pending frame, if any, is a short control frame (R81), which suits the remote in every state. -/
def PendingShort (s : State) : Prop := ∀ q, s.tr.pend = some q → ShortControl q.frame

section
variable {data : Bool} {s t u : State} {p : Phase} {c : Result}

theorem pendingShort_of_none (h : s.tr.pend = none) : PendingShort s := by
  intro q hq
  rw [h] at hq
  cases hq

theorem pendingShort_of_frame {f : List Byte} {w : Nat} (h : s.tr.pend = some (pendingOf f w u)) (hf : ShortControl f) :
    PendingShort s := by
  intro q hq
  obtain rfl : pendingOf f w u = q := Option.some.inj (h.symm.trans hq)
  exact hf

/-- An armed reception sends nothing (D31). -/
theorem shortControl_nil : ShortControl [] := by
  simp [ShortControl]

theorem headerKind_eq_i {k : Header} : headerKind k = some .i ↔ ∃ c d n b, k = .iBlock c d n b := by
  cases k <;> simp [headerKind]

/-- A short control frame suits the remote in every state. -/
theorem pendingFits_of_short (h : PendingShort s) : pendingFits s := by
  intro q hq
  obtain ⟨hlen, hkind⟩ := h q hq
  exact .inr ⟨hlen, fun pcb f hf c d n b hdec => hkind pcb (by simp [hf]) (headerKind_eq_i.2 ⟨c, d, n, b, hdec⟩)⟩

theorem pendingFits_of_frame {f : List Byte} {w : Nat} (h : s.tr.pend = some (pendingOf f w u)) (hst : Reading s)
    (hf : f.length + crcLen ≤ s.ctx.fsx ∨ ShortControl f) : pendingFits s := by
  rcases hf with hf | hf
  · intro q hq
    obtain rfl : pendingOf f w u = q := Option.some.inj (h.symm.trans hq)
    exact .inl ⟨hf, hst⟩
  · exact pendingFits_of_short (pendingShort_of_frame h hf)

/-- Where no answer is awaited, only a short control frame can be pending. -/
theorem pendingShort_of_pendingFits (h : pendingFits s) (hst : ¬Reading s) : PendingShort s := by
  intro q hq
  rcases h q hq with ⟨-, hreads⟩ | ⟨hlen, hdec⟩
  · exact absurd hreads hst
  · refine ⟨hlen, fun pcb hhead hkind => ?_⟩
    obtain ⟨f, hf⟩ := List.head?_eq_some_iff.1 hhead
    obtain ⟨c, d, n, b, hk⟩ := headerKind_eq_i.1 hkind
    exact hdec pcb f hf c d n b hk

/-- A reaction leaves no long frame pending but a repetition, after which the exchange goes on. -/
theorem pending_reacts (hfit : FramesFit s) (hpend : s.tr.pend = none) (hp : phase s = some p) (hr : Reacts data s p t c) :
    PendingShort t ∨ c = .busy ∧ pendingFits t := by
  cases hr with
  | fails | tooLarge | acked | final | deselects => exact .inl (pendingShort_of_none hpend)
  | replies hu hk hinf => exact .inl (pendingShort_of_frame rfl (buildFrame_shortControl hk hinf))
  | chained => exact .inl (pendingShort_of_frame rfl (buildFrame_shortControl (by decide) (by simp)))
  | answersDeselect => exact .inl (pendingShort_of_frame rfl (buildFrame_shortControl (by decide) (by simp)))
  | rearms => exact .inl (pendingShort_of_frame rfl shortControl_nil)
  | resendsI hu ht =>
    obtain ⟨-, hst⟩ : s.ctx.role = .poller ∧ s.ctx.st = .rx := by simpa using phase_eq_some.1 hp
    obtain ⟨-, hlen⟩ := hfit.last hst ht
    obtain ⟨⟨i, r, m, rfl⟩, -⟩ := hu
    exact .inr ⟨rfl, pendingFits_of_frame rfl (.inl hst) (.inl hlen)⟩
  | resendsLast hu =>
    have hkept := kept_of_phase hfit hp
    obtain ⟨⟨i, r, m, rfl⟩, -⟩ := hu
    exact .inr ⟨rfl, pendingFits_of_frame rfl (.inl rfl) hkept⟩

theorem pendingFits_complete (iter : Option Nat) (h : PendingShort t ∨ c = .busy ∧ pendingFits t) :
    pendingFits (complete iter c t) := by
  rcases h with hshort | ⟨rfl, hfits⟩
  · have hshort' : PendingShort (complete iter c t) := by
      intro q hq
      rw [complete_tr] at hq
      exact hshort q hq
    exact pendingFits_of_short hshort'
  · intro q hq
    rw [complete_tr] at hq
    rw [complete_busy_ctx]
    exact hfits q hq

theorem pendingFits_moves (hs : Invariant s) (h : pendingFits s) (hm : Moves s t) : pendingFits t := by
  cases hm with
  | waits | setsSession | reports | answers => exact h
  | inits | capped => exact pendingFits_of_short (pendingShort_of_none rfl)
  | startsTx hst =>
    have hshort := pendingShort_of_pendingFits h (by simp [Reading, hst])
    exact pendingFits_of_short hshort
  | sends hst =>
    have hlen : (buildFrame .i s.ctx.txInf s).length + crcLen ≤ s.ctx.fsx := length_le_of_tx hs.fit hst
    exact pendingFits_of_frame rfl (.inl rfl) (.inl hlen)
  | deselects =>
    exact pendingFits_of_short (pendingShort_of_frame rfl (buildFrame_shortControl (by decide) (by simp)))
  | listens => exact pendingFits_of_short (pendingShort_of_frame rfl shortControl_nil)
  | @busy u _ tr hu _ htr =>
    refine pendingFits_complete _ (.inr ⟨rfl, fun q hq => ?_⟩)
    rw [htr] at hq
    obtain ⟨-, rfl⟩ | ⟨n, -, -, rfl⟩ := hu
    · exact h q hq
    · exact h q hq
  | @receives _ u _ _ tr _ hu hp htr hr =>
    have hfit : FramesFit { u with tr := tr } := (framesFit_kept.blind.due ⟨hs.chaining, hs.fit⟩ hu tr).2
    exact pendingFits_complete _ (pending_reacts hfit htr hp hr)

end

/-- Settles O60: every submission is a short control frame, or a frame that the invariant bounds. -/
theorem submittedFramesFit : Obligations.SubmittedFramesFit := by
  intro s t hs hfits hstep
  obtain ⟨cmd, host, hm⟩ := moves_of_step hstep
  exact pendingFits_moves (invariant_withInputs hs cmd host) hfits hm

end Sys2Proof.Machine
end

