-- ==== Sys2Proof/Proofs/PollCompletion.lean ====
section
/-! `POLL` completes wherever it is dispatched, and no step faults (R82, R248, R401). -/

namespace Sys2Proof.Machine

open Sys2Proof.Spec

section
variable {data : Bool} {s t : State} {p : Phase} {c : Result} {f : Fault}

/-! ### No fault -/

theorem ifAdmitted_ne_fault {r : Row} {o : Outcome} (h : o ≠ .fault f) : ifAdmitted r s o ≠ .fault f := by
  rcases ifAdmitted_cases (s := s) r o with ⟨_, e⟩ | ⟨_, e⟩ <;> rw [e]
  · exact h
  · simp

/-- The copy-in of a `START_TX` in range stays inside the caller's buffer (R91, R122). -/
theorem exec_ne_fault {i : Instr} (hi : isBlock i = false) (hwf : i.WellFormed) : exec i s ≠ .fault f := by
  cases i with
  | iFinal | iChain | rAck | rNak | sDsl | sWtx => cases hi
  | startTx b l c r w g d =>
    obtain ⟨⟨⟨-, hl⟩, -⟩, -⟩ : ((l ≤ maxLen ∧ l ≤ b.length) ∧ r ≤ maxLen) ∧ g ≤ maxLen := by
      simpa [Instr.WellFormed, Instr.wf] using hwf
    refine ifAdmitted_ne_fault ?_
    rw [memRead_zero_of_le hl]
    split_ifs <;> simp
  | poll =>
    refine ifAdmitted_ne_fault ?_
    split_ifs
    · simp
    · exact receive_ne_fault s f
  | setSession | deselect | listenStart =>
    refine ifAdmitted_ne_fault ?_
    split_ifs <;> simp
  | init | getMaxPayload | encodeHdr | decodeHdr | fwi2fwt | sfgi2sfgt => exact ifAdmitted_ne_fault (by simp)

theorem step_ne_fault (s : State) (f : Fault) : step s ≠ .fault f := by
  unfold step
  rcases fetch_cases s with hf | ⟨n, -, hf⟩ | ⟨c, cmd, host, hf⟩ <;> rw [hf]
  · simp
  · dsimp only
    unfold deselectIteration
    split_ifs
    · simp
    · exact receive_ne_fault _ f
  · dsimp only
    rw [decode_cmd]
    cases hd : decodeCmd c with
    | error e => simp
    | ok i => exact exec_ne_fault (isBlock_of_decodeCmd hd) (wellFormed_of_decodeCmd hd)

/-! ### The result of a `POLL` -/

theorem st_ne_idle_of_phase (hp : phase s = some p) : s.ctx.st ≠ .idle := by
  intro hst
  simp [phase, hst] at hp

/-- The code of a reaction, and the state it goes with: the exchange goes on exactly after `Busy` and `PartialData`. -/
theorem reacts_code (hp : phase s = some p) (hr : Reacts data s p t c) :
    c ≠ .parameterError ∧ (c = .deselected → p = .listenerRx) ∧ (c = .busy ∨ c = .partialData ↔ t.ctx.st ≠ .idle) := by
  have hst := st_ne_idle_of_phase hp
  cases hr with
  | fails hc => obtain rfl | rfl | rfl := hc <;> simp
  | replies hu _ _ hst' =>
    obtain rfl | ⟨-, rfl⟩ := hst'
    · simp [hst]
    · simp
  | resendsI hu =>
    obtain ⟨⟨i, r, m, rfl⟩, -⟩ := hu
    simp [hst]
  | rearms => simp [hst]
  | _ => simp [Ctx.cleared]

/-- R248: where the transport is to be read, `POLL` is a reception step. -/
theorem exec_poll_receive (ha : admits .poll s = true) (hp : phase s = some p) : exec .poll s = receive s := by
  have hst : s.ctx.st ≠ .tx := by
    intro h
    simp [phase, h] at hp
  exact (ifAdmitted_of_admits ha).trans (if_neg hst)

end

/-- Settles O24: no rule reads out of bounds, and each reaction of an exchange has a result of the list. -/
theorem pollAlwaysCompletes : Obligations.PollAlwaysCompletes := by
  refine ⟨step_ne_fault, fun s hn hs => ?_⟩
  rcases hs with htx | hs
  · exact ⟨_, exec_poll_tx (admits_poll.2 ⟨hn, .inl htx⟩) htx, by simp [pollTx]⟩
  · obtain ⟨p, hp⟩ := phase_of_awaits hs
    rw [exec_poll_receive (admits_poll_of_awaits hs) hp]
    obtain ⟨tr, ⟨-, hr⟩ | ⟨-, data, t, c, hr, hreacts⟩⟩ := receive_cases hp
    · have hst := st_ne_idle_of_phase hp
      rw [hr, hn]
      exact ⟨_, rfl, by simp [complete, hst]⟩
    · obtain ⟨hparam, hdsl, hbusy⟩ := reacts_code (by exact hp) hreacts
      have hrole (hl : p = .listenerRx) : s.ctx.role = .listener := by
        subst hl
        obtain ⟨hrole, -⟩ : s.ctx.role = .listener ∧ (s.ctx.st = .rx ∨ s.ctx.st = .activated) := by
          simpa using phase_eq_some.1 hp
        exact hrole
      rw [hr, hn]
      exact ⟨_, rfl, hparam, fun h => hrole (hdsl h), hbusy⟩

end Sys2Proof.Machine
end

