-- ==== Sys2Proof/Proofs/DeselectProcedure.lean ====
section
/-! The deselect procedure as a whole (R381 to R386, R455): each iteration counts or ends it, so that its cap bounds it; and its
run against a remote that always fails. -/

namespace Sys2Proof.Machine

open Sys2Proof.Spec

section
variable {data : Bool} {s t : State} {c : Result} {n : Nat}

/-! ### One iteration -/

/-- The procedure has ended with one of its four results, the context reset (R384, R385). -/
def DeselectEnded (s t : State) : Prop :=
  t.ctx = clearedCtx ∧ t.out = { s.out with result := t.out.result } ∧
  (t.out.result = .done ∨ t.out.result = .timeout ∨ t.out.result = .protocolError ∨ t.out.result = .linkLoss)

/-- R382, R384: what a reaction in `WAIT_DESELECT` makes of the iteration it was met by. -/
theorem deselect_of_reacts (hs : deselectAwaits n s) (hr : Reacts data s .pollerWait t c) :
    (deselectAwaits n (complete (some n) c t) ∧ (complete (some n) c t).out = s.out) ∨
    DeselectEnded s (complete (some n) c t) := by
  obtain ⟨hrole, hst, hiter⟩ := hs
  cases hr with
  | fails hc => obtain rfl | rfl | rfl := hc <;> exact .inr ⟨rfl, rfl, by simp [complete]⟩
  | replies hu _ _ hst' =>
    obtain ⟨⟨i, r, m, rfl⟩, -⟩ := hu
    obtain rfl : _ = s.ctx.st := by simpa using hst'
    exact .inl ⟨⟨hrole, hst, hiter⟩, rfl⟩
  | deselects => exact .inr ⟨rfl, rfl, by simp [complete]⟩
  | tooLarge _ hne | acked hne | chained _ hne | final _ hne => exact absurd rfl hne

/-- R383: at its cap an iteration ends the procedure. -/
theorem step_deselect_capped (hs : deselectAwaits n s) (hc : s.cmd = none) (hcap : n = s.prm.dslCap) :
    step s = .next { result .timeout s with ctx := clearedCtx, tr := { s.tr with pend := none } } := by
  obtain ⟨-, -, hiter⟩ := hs
  rw [step_of_running hiter hc, deselectIteration, if_pos hcap]
  rfl

/-- R382, R384: below its cap an iteration counts itself, or ends the procedure; it writes nothing but the Link Context, the
output registers and the transport. -/
theorem step_deselect_below (hs : deselectAwaits n s) (hc : s.cmd = none) (hcap : n ≠ s.prm.dslCap) :
    ∃ t, step s = .next t ∧ t = { s with ctx := t.ctx, out := t.out, tr := t.tr } ∧
      ((deselectAwaits (n + 1) t ∧ t.out = s.out) ∨ DeselectEnded s t) := by
  obtain ⟨hrole, hst, hiter⟩ := hs
  let u : State := { s with ctx := { s.ctx with dslIter := some (n + 1) } }
  have hu : deselectAwaits (n + 1) u := ⟨hrole, hst, rfl⟩
  have hstep : step s = receive u := (step_of_running hiter hc).trans (if_neg hcap)
  obtain ⟨tr, ⟨-, hr⟩ | ⟨-, data, t, c, hr, hreacts⟩⟩ := receive_cases (phase_of_deselectAwaits hu)
  · exact ⟨_, hstep.trans hr, rfl, .inl ⟨hu, rfl⟩⟩
  · refine ⟨_, hstep.trans hr, ?frame, deselect_of_reacts (s := { u with tr := tr }) hu hreacts⟩
    case frame => rw [complete_frame, reacts_frame hreacts]

end

/-- Settles O51: the cap decides, then the reaction in `WAIT_DESELECT`. -/
theorem deselectIterationCountsOrEnds : Obligations.DeselectIterationCountsOrEnds := by
  intro n s hs hc
  refine ⟨fun hcap => step_deselect_capped hs hc hcap, fun hcap => ?_⟩
  obtain ⟨t, hstep, hframe, hcases⟩ := step_deselect_below hs hc hcap
  exact ⟨t, hstep, congrArg (·.cfg) hframe, congrArg (·.ses) hframe, hcases⟩

/-! ### The cap bounds the procedure -/

theorem run_succ_of_step {s t : State} (h : step s = .next t) (k : Nat) : run (k + 1) s = run k t := by
  rw [run, h]

/-- Settles O54: by induction on the iterations that the cap leaves. -/
theorem deselectTerminatesByItsCap : Obligations.DeselectTerminatesByItsCap := by
  intro n s hs hc hle
  induction hleft : s.prm.dslCap - n generalizing n s with
  | zero =>
    have hstep := step_deselect_capped hs hc (by omega)
    exact ⟨1, _, by omega, run_succ_of_step hstep 0, rfl, rfl, rfl⟩
  | succ m ih =>
    obtain ⟨t, hstep, hframe, ⟨ht, -⟩ | ⟨hctx, -, -⟩⟩ := step_deselect_below hs hc (by omega)
    · have hprm : t.prm = s.prm := congrArg (·.prm) hframe
      have htc : t.cmd = none := (congrArg (·.cmd) hframe).trans hc
      obtain ⟨k, u, hk, hrun, hctx, hcfg, hses⟩ := ih (n + 1) t ht htc (by rw [hprm]; omega) (by rw [hprm]; omega)
      exact ⟨k + 1, u, by omega, by rw [run_succ_of_step hstep, hrun], hctx, hcfg.trans (congrArg (·.cfg) hframe),
        hses.trans (congrArg (·.ses) hframe)⟩
    · exact ⟨1, t, by omega, run_succ_of_step hstep 0, hctx, congrArg (·.cfg) hframe, congrArg (·.ses) hframe⟩

/-! ### A remote that always fails (R386) -/

theorem run_succ_of_run {s t : State} {k : Nat} (h : run k s = .next t) : run (k + 1) s = step t := by
  induction k generalizing s with
  | zero =>
    obtain rfl : s = t := by simpa [run] using h
    rw [run]
    cases step s <;> rfl
  | succ k ih =>
    cases hstep : step s with
    | next u =>
      rw [run_succ_of_step hstep] at h ⊢
      exact ih h
    | fault f => simp [run, hstep] at h
    | refused r => simp [run, hstep] at h

/-- The state of a `DESELECT` begun in `s` after `k` transmission errors, with the answers `as` still to come: S(DESELECT) is
pending for the `k + 1`st time. -/
structure Resent (s : State) (k : Nat) (as : List TStatus) (t : State) : Prop where
  awaits : deselectAwaits k t
  notChaining : t.ctx.rxChaining = false
  cmd : t.cmd = none
  prm : t.prm = s.prm
  cfg : t.cfg = s.cfg
  ses : t.ses = s.ses
  did : t.ctx.did = s.ctx.did
  count : t.ctx.cntR = k
  pend : t.tr.pend = pending (controlFrame (encSDsl s.ctx.did.isSome) [] s) s.prm.fwtDsl s
  answers : t.tr.answers = as

section
variable {s t : State} {k : Nat} {e : TxError} {as : List TStatus}

/-- R381: the command is the first submission. -/
theorem resent_start (a : Args) (hcmd : s.cmd = some { op := 0x05#8, args := a }) (hw : windowIsLarger s)
    (hrole : s.ctx.role = .poller) (hst : s.ctx.st = .idle ∨ s.ctx.st = .tx ∨ s.ctx.st = .rx) (hn : s.ctx.dslIter = none) :
    ∃ t, step s = .next t ∧ Resent s 0 s.tr.answers t := by
  have hstep : step s = exec .deselect { s with cmd := none } := step_of_decode_ok (.inl ⟨hcmd, rfl⟩) rfl
  obtain ⟨hstarts, -⟩ := deselectStartsTheProcedure { s with cmd := none } hrole hst hn
  exact ⟨_, hstep.trans (hstarts hw), ⟨hrole, rfl, rfl⟩, rfl, rfl, rfl, rfl, rfl, rfl, rfl, rfl, rfl⟩

/-- R285: within the ceiling an error is one more submission. -/
theorem resent_next (h : Resent s k (.error e :: as) t) (he : (s.cfg.mode, e) ∉ s.prm.bailOn) (hk : k + 1 ≤ s.cfg.maxR)
    (hcap : k ≠ s.prm.dslCap) : ∃ u, step t = .next u ∧ Resent s (k + 1) as u := by
  obtain ⟨-, -, hresend⟩ :=
    deselectResendsOnErrors k t e as h.awaits h.notChaining h.cmd (by rwa [h.prm]) (by simp [h.pend]) h.answers
  obtain ⟨hrole, hst, hiter⟩ := h.awaits
  refine ⟨_, hresend (by rwa [h.cfg, h.prm]) (by rwa [h.cfg, h.count]), ⟨hrole, hst, rfl⟩, h.notChaining, h.cmd, h.prm,
    h.cfg, h.ses, h.did, congrArg (· + 1) h.count, ?_, rfl⟩
  simp only [pending, controlFrame, h.did, h.prm, h.ses]

/-- R191, R384: at the ceiling an error ends the procedure. -/
theorem resent_exhausted (h : Resent s k (.error e :: as) t) (he : (s.cfg.mode, e) ∉ s.prm.bailOn) (hk : s.cfg.maxR < k + 1)
    (hcap : k ≠ s.prm.dslCap) :
    ∃ u, step t = .next u ∧ u.out.result = .timeout ∧ u.ctx = clearedCtx ∧ u.cfg = s.cfg ∧ u.ses = s.ses ∧
      u.tr.pend = none ∧ u.tr.answers = as := by
  obtain ⟨-, hends, -⟩ :=
    deselectResendsOnErrors k t e as h.awaits h.notChaining h.cmd (by rwa [h.prm]) (by simp [h.pend]) h.answers
  exact ⟨_, hends (by rwa [h.cfg, h.prm]) (by rwa [h.cfg, h.count]), rfl, rfl, h.cfg, h.ses, rfl, rfl⟩

end

/-- Settles O53: by induction on the errors met so far. -/
theorem deselectAgainstAFailingRemote : Obligations.DeselectAgainstAFailingRemote := by
  intro s a es rest hcmd hw hrole hst hn hlen hbail hcap hanswers
  have hresent (k : Nat) (hk : k ≤ s.cfg.maxR) :
      ∃ t, run (k + 1) s = .next t ∧ Resent s k ((es.drop k).map TStatus.error ++ rest) t := by
    induction k with
    | zero =>
      obtain ⟨t, hstep, ht⟩ := resent_start a hcmd hw hrole hst hn
      exact ⟨t, run_succ_of_step hstep 0, by simpa [hanswers] using ht⟩
    | succ k ih =>
      obtain ⟨t, hrun, ht⟩ := ih (by omega)
      have hdrop : es.drop k = es[k] :: es.drop (k + 1) := List.drop_eq_getElem_cons (by omega)
      rw [hdrop] at ht
      obtain ⟨u, hstep, hu⟩ := resent_next ht (hbail _ (List.getElem_mem _)) hk (by omega)
      exact ⟨u, by rw [run_succ_of_run hrun, hstep], hu⟩
  refine ⟨fun k hk => ?_, ?_⟩
  · obtain ⟨t, hrun, ht⟩ := hresent k hk
    exact ⟨t, hrun, ht.awaits, ht.count, ht.pend⟩
  · obtain ⟨t, hrun, ht⟩ := hresent s.cfg.maxR le_rfl
    have hlast : es.drop s.cfg.maxR = [es[s.cfg.maxR]] := by
      rw [List.drop_eq_getElem_cons (by omega), List.drop_of_length_le (by omega)]
    rw [hlast] at ht
    obtain ⟨u, hstep, hu⟩ := resent_exhausted ht (hbail _ (List.getElem_mem _)) (by omega) (by omega)
    exact ⟨u, by rw [run_succ_of_run hrun, hstep], hu⟩

end Sys2Proof.Machine
end
